-- ==== Sys2Proof/Word.lean ====
section
/-! DEFINITION. The word types of HUFFCORE (00_scope.md R6, R7; 20_memory.md R70, R75). -/

namespace Sys2Proof

/-- A 32-bit register or bus word: the width of every host access (R5, R75). -/
abbrev Word := BitVec 32

/-- One byte of a RAM, and one symbol: an 8-bit unsigned value (R6). -/
abbrev Byte := BitVec 8

/-- A byte offset inside the block's window of 0x40000 bytes (R70). -/
abbrev Offset := BitVec 18

/-- An index into the node arena (R5: IDXW = 9). -/
abbrev NodeIdx := BitVec 9

/-- A node weight inside BUILD_TREE (R5: WGTW = 40). -/
abbrev Weight := BitVec 40

/-- A stored code value (R5: CVALW = 256). -/
abbrev CodeVal := BitVec 256

end Sys2Proof
end

