-- ==== Sys2Proof/Syntax.lean ====
section
/-! DEFINITION. The commands of HUFFCORE (30_encoding.md R109), the fields of a command word (R101), and the
statements of a host program (R120, R121). -/

namespace Sys2Proof

/-- The nine commands, one constructor per row of spec/opcode_table.json, in the table's order. No command
carries an operand (R107). -/
inductive Instr where
  /-- NOP (R215). -/
  | nop
  /-- CLR_FREQ (R216). -/
  | clrFreq
  /-- BUILD_TREE (R131). -/
  | buildTree
  /-- GEN_CODES (R152). -/
  | genCodes
  /-- ENCODE (R171). -/
  | encode
  /-- DECODE (R191). -/
  | decode
  /-- DECODE.ALL (R192). -/
  | decodeAll
  /-- CLR_TREE (R218). -/
  | clrTree
  /-- CLR_CODES (R219). -/
  | clrCodes
  deriving DecidableEq, Repr

/-- The fields of a command word (R101), from bit 31 down. -/
structure CmdFields where
  /-- Bits 31:16, RSVD. -/
  rsvd : BitVec 16
  /-- Bits 15:9, FRSV. -/
  frsv : BitVec 7
  /-- Bit 8, ALL. -/
  all  : Bool
  /-- Bits 7:0, OP. -/
  op   : BitVec 8
  deriving DecidableEq, Repr

/-- The fields of each command's word, as the opcode map gives them (R109). -/
def Instr.fields : Instr → CmdFields
  | .nop       => ⟨0, 0, false, 0x00⟩
  | .clrFreq   => ⟨0, 0, false, 0x01⟩
  | .buildTree => ⟨0, 0, false, 0x02⟩
  | .genCodes  => ⟨0, 0, false, 0x03⟩
  | .encode    => ⟨0, 0, false, 0x04⟩
  | .decode    => ⟨0, 0, false, 0x05⟩
  | .decodeAll => ⟨0, 0, true,  0x05⟩
  | .clrTree   => ⟨0, 0, false, 0x06⟩
  | .clrCodes  => ⟨0, 0, false, 0x07⟩

/-- One host bus access (R2, R71, R72): a 32-bit read or write at a bus address. -/
inductive BusAccess where
  /-- A read of the word that holds the byte at bus address `addr`. -/
  | read (addr : Nat)
  /-- A write of `v` to the word that holds the byte at bus address `addr`. -/
  | write (addr : Nat) (v : Word)
  deriving DecidableEq, Repr

/-- One statement of a host program (R120, R121). -/
inductive HostStmt where
  /-- `RD` or `WR`. -/
  | access (a : BusAccess)
  /-- `WAIT`: read STATUS, and again while bit 0 of the value read is 1. -/
  | wait
  deriving DecidableEq, Repr

end Sys2Proof
end

