-- ==== Sys2Proof/WellFormed.lean ====
section
/-! DEFINITION. Which command words are legal (30_encoding.md R101, R102, R110; 10_state.md R26): the checks, one
by one, and the reason a word is refused. -/

namespace Sys2Proof

/-- RSVD must be 0 (R101). -/
def CmdFields.rsvdOk (f : CmdFields) : Bool := f.rsvd == 0

/-- FRSV must be 0 (R101). -/
def CmdFields.frsvOk (f : CmdFields) : Bool := f.frsv == 0

/-- ALL must be 0 unless OP = 0x05 (R101, R102). -/
def CmdFields.allOk (f : CmdFields) : Bool := !f.all || f.op == 0x05

/-- OP must be one of 0x00..0x07 (R26, R109). -/
def CmdFields.opOk (f : CmdFields) : Bool := f.op.toNat ≤ 0x07

/-- The four checks of a legal command word together. -/
def CmdFields.wf (f : CmdFields) : Bool := f.rsvdOk && f.frsvOk && f.allOk && f.opOk

/-- A command is well formed when its word's fields are legal. A command has no operands, so every command is. -/
def Instr.wf (i : Instr) : Bool := i.fields.wf

/-- Why a word is no command (R110, R220). -/
inductive DecodeError where
  /-- CMD[31:16] is not 0. -/
  | reservedBits
  /-- CMD[15:8] holds a bit that OP does not allow. -/
  | reservedFlags
  /-- OP is outside 0x00..0x07. -/
  | unknownOp
  deriving DecidableEq, Repr

end Sys2Proof
end

