-- ==== Sys2Proof/Decode.lean ====
section
/-! DEFINITION. Decoding a command word (30_encoding.md R110) and encoding a command (R101, R109); the node word
format and its decoding functions (R103, R104). -/

namespace Sys2Proof

/-- The fields of a command word (R101). -/
def CmdFields.ofWord (c : Word) : CmdFields :=
  { rsvd := c.extractLsb' 16 16, frsv := c.extractLsb' 9 7, all := c.getLsbD 8, op := c.extractLsb' 0 8 }

/-- The command word with the given fields (R101): `0000000000000000 0000000 a oooooooo` for legal ones. -/
def CmdFields.toWord (f : CmdFields) : Word :=
  f.rsvd ++ (f.frsv ++ (BitVec.ofBool f.all ++ f.op))

/-- `decode(c)` of R110, total on all 2^32 words; every word outside the nine of R109 is refused by name and
is ILLEGAL. -/
def decode (c : Word) : Except DecodeError Instr :=
  let f := CmdFields.ofWord c
  if f.rsvd != 0 then .error .reservedBits
  else if f.op == 0x05 && f.frsv == 0 then .ok (if f.all then .decodeAll else .decode)
  else if f.frsv != 0 || f.all then .error .reservedFlags
  else if f.op == 0x00 then .ok .nop
  else if f.op == 0x01 then .ok .clrFreq
  else if f.op == 0x02 then .ok .buildTree
  else if f.op == 0x03 then .ok .genCodes
  else if f.op == 0x04 then .ok .encode
  else if f.op == 0x06 then .ok .clrTree
  else if f.op == 0x07 then .ok .clrCodes
  else .error .unknownOp

/-- The command word of a command (R109). -/
def encode (i : Instr) : Word := i.fields.toWord

/-- The host's question: which command do the `nbits` bits of `w` decode to, every bit above them 0. A command
word is one 32-bit value (R112), so no byte order enters. -/
def decodeTableWord (nbits w : Nat) : Option Instr :=
  match decode (BitVec.ofNat 32 (w % 2 ^ nbits)) with
  | .ok i => some i
  | .error _ => none

/-! Node words (R103, R104). -/

/-- `tag(w)`: 0b00 EMPTY, 0b01 LEAF, 0b10 INTERNAL, 0b11 reserved (R104). -/
def nodeTag (w : Word) : BitVec 2 := w.extractLsb' 30 2

/-- `isLeaf(w)` (R104). -/
def isLeaf (w : Word) : Bool := nodeTag w == 1

/-- `isInt(w)` (R104). -/
def isInt (w : Word) : Bool := nodeTag w == 2

/-- `sym(w)`: the symbol of a LEAF word (R104). -/
def nodeSym (w : Word) : Byte := w.extractLsb' 0 8

/-- `left(w)`: the left index of an INTERNAL word (R104). -/
def nodeLeft (w : Word) : NodeIdx := w.extractLsb' 0 9

/-- `right(w)`: the right index of an INTERNAL word (R104). -/
def nodeRight (w : Word) : NodeIdx := w.extractLsb' 16 9

/-- The canonical word `LEAF(s) = 0x40000000 | s` (R103). -/
def leafWord (s : Byte) : Word := 0x40000000#32 ||| s.setWidth 32

/-- The canonical word `INTERNAL(l, r) = 0x80000000 | (r << 16) | l` (R103). -/
def internalWord (l r : NodeIdx) : Word := 0x80000000#32 ||| (r.setWidth 32 <<< 16) ||| l.setWidth 32

end Sys2Proof
end

