-- ==== Sys2Proof/Config.lean ====
section
/-! DEFINITION. What an implementation of HUFFCORE fixes (00_scope.md R5) and the free values
(93_implementation_defined.md U2, U3, U4). -/

namespace Sys2Proof

/-- The open parameters of R5. Each capacity is stored as its value less one, so that it lies in 1..65536
whatever is stored; BASE is stored as a multiple of 0x40000, so that it is aligned. -/
structure Params where
  /-- BASE div 0x40000. -/
  baseIndex : Nat
  /-- IN_CAP - 1. -/
  inCapM1 : Fin 65536
  /-- OUT_CAP - 1. -/
  outCapM1 : Fin 65536
  deriving DecidableEq, Repr

/-- BASE: the bus address of offset 0 of the block (R5). -/
def Params.base (p : Params) : Nat := p.baseIndex * 0x40000

/-- IN_CAP: the bytes IN_BUF holds (R5, R45). -/
def Params.inCap (p : Params) : Nat := p.inCapM1.val + 1

/-- OUT_CAP: the bytes OUT_BUF holds (R5, R46). -/
def Params.outCap (p : Params) : Nat := p.outCapM1.val + 1

/-- The default parameters of R5: both buffers hold 65536 bytes.
DESIGN CHOICE (log entry 2): BASE has no default in the spec; the model's reset state puts it at 0. -/
def Params.default : Params := ⟨0, 65535, 65535⟩

/-- A free byte: what draw number `n` leaves in the RAM byte at window offset `a` when the spec makes that
byte unspecified (U3: OUT_BUF after a failed ENCODE or DECODE; U4: the write set of an abandoned command). -/
opaque Config.freeByte (n a : Nat) : Byte

/-- A free word: what a host read of a word in the running command's write set returns (U2), one for each
draw number `n`. -/
opaque Config.freeWord (n : Nat) : Word

end Sys2Proof
end

