-- ==== Sys2Proof/Machine/State.lean ====
section
/-! DEFINITION. The state of HUFFCORE (10_state.md R20), its fault and refusal types, and reset
(70_reset_and_hazards.md R270, R274). -/

namespace Sys2Proof.Machine

/-- SEQ, the sequencer state (R32). -/
inductive Seq where
  | idle
  | busy
  deriving DecidableEq, Repr

/-- ERR_CODE's legal values (R28, R241). Codes 7..255 are never written, so they have no constructor. -/
inductive ErrCode where
  /-- 0: no error since the last acceptance. -/
  | none
  /-- 1: FREQ[s] = 0 for every s. -/
  | emptyInput
  /-- 2: an input byte has no code. -/
  | unknownSymbol
  /-- 3: a structurally broken tree. -/
  | invalidTree
  /-- 4: output would pass OUT_CAP bytes. -/
  | outOverflow
  /-- 5: an illegal command word. -/
  | illegalCmd
  /-- 6: IN_LEN or DEC_NBITS is out of range. -/
  | paramRange
  deriving DecidableEq, Repr

/-- The six internal RAMs (R47 to R52). -/
inductive Ram where
  | freq
  | node
  | codeLen
  | codeVal
  | inBuf
  | outBuf
  deriving DecidableEq, Repr

/-- The contents of the six RAMs (R47 to R52), by byte offset in the block's window (R21, R70): each byte of a RAM
stands at the offset the address map gives it, a word with its least significant byte first. An address that is
not listed holds 0. -/
abbrev Memory := List Host.Cell

/-- The state of HUFFCORE (R20) and, after it, the host that drives it and the model's counter of draws. The four
constants ID, VERSION, IN_CAP and OUT_CAP are read from `params` and from R23, R24. The hidden datapath state of
R54 to R57 is not kept between commands (R58), so it is local to each command's meaning. -/
structure State where
  /-- BASE, IN_CAP and OUT_CAP (R5, R45, R46). No event changes them. -/
  params : Params
  /-- SEQ (R32); STATUS.BUSY is read from it (R27). -/
  seq : Seq
  /-- CTRL.IRQ_EN (R25); CTRL's other bits read 0. -/
  irqEn : Bool
  /-- CMD: the last accepted command word (R26). -/
  cmd : Word
  /-- STATUS.DONE (R27). -/
  done : Bool
  /-- STATUS.WR_WHILE_BUSY (R27). -/
  wrWhileBusy : Bool
  /-- STATUS.CMD_OVERRUN (R27). -/
  cmdOverrun : Bool
  /-- ERR_CODE (R28); STATUS.ERR is read from it (R27). -/
  errCode : ErrCode
  /-- ERR_INFO (R29). -/
  errInfo : Word
  /-- ERR_POS (R30). -/
  errPos : Word
  /-- IN_LEN.LEN (R35). -/
  inLen : BitVec 17
  /-- DEC_NBITS (R36). -/
  decNbits : Word
  /-- OUT_LEN (R37). -/
  outLen : BitVec 17
  /-- OUT_BITS (R38). -/
  outBits : Word
  /-- DEC_TAIL (R39). -/
  decTail : Word
  /-- ROOT.VALID (R40). -/
  rootValid : Bool
  /-- ROOT.IDX (R40). -/
  rootIdx : NodeIdx
  /-- NLEAF (R41). -/
  nleaf : BitVec 9
  /-- NNODE (R42). -/
  nnode : BitVec 10
  /-- NCODES (R43). -/
  ncodes : BitVec 9
  /-- MAXLEN (R44). -/
  maxlen : BitVec 8
  /-- FREQ, NODE, CODE_LEN, CODE_VAL, IN_BUF and OUT_BUF (R47 to R52). -/
  mem : Memory
  /-- The host's remaining statements, first one first (R2, R120): the only input of the block. -/
  host : List HostStmt
  /-- The host's log: the values its reads returned, newest first (R120). -/
  hostLog : List Word
  /-- How many more host statements fall before the running command completes (R34, R288). -/
  delay : Nat
  /-- The environment's choice of that number for each of the next accepted commands, next one first (U5;
  log entry 5). -/
  schedule : List Nat
  /-- The model's own field: how many draws of free values have been made (93_implementation_defined.md U2 to U4;
  log entry 3). -/
  draws : Nat
  deriving DecidableEq, Repr

/-- Why the machine stops with a fault. HUFFCORE has no such reason: every host access is total (R71, R72, R240),
and a failing command takes the error entry of R244 and completes. So the type has no constructor. -/
inductive Fault where
  deriving DecidableEq, Repr

/-- Why the model gives a step no meaning. -/
inductive Refusal where
  /-- Raised by an arm of `exec` whose command has no meaning yet; no arm does. Safe: nothing is proved of it. -/
  | notModelled (mnemonic : String)
  deriving DecidableEq, Repr

/-- The state after power-on reset (R270) as a function of what R274 leaves open: the parameters and the contents
of the six RAMs, which are unspecified (U1). No host program is loaded (log entries 4 and 12). -/
def State.powerOn (p : Params) (ram : Memory) : State where
  params := p
  seq := .idle
  irqEn := false
  cmd := 0
  done := false
  wrWhileBusy := false
  cmdOverrun := false
  errCode := .none
  errInfo := 0
  errPos := 0
  inLen := 0
  decNbits := 0
  outLen := 0
  outBits := 0
  decTail := 0
  rootValid := false
  rootIdx := 0
  nleaf := 0
  nnode := 0
  ncodes := 0
  maxlen := 0
  mem := ram
  host := []
  hostLog := []
  delay := 0
  schedule := []
  draws := 0

/-- The one reset state the interface asks for: the default parameters of R5, and every RAM byte 0.
DESIGN CHOICE (log entry 1): the spec leaves the RAM contents unspecified (R270, U1). Unsafe; the statements about
reset are made of `State.powerOn` for every parameter and every contents. -/
def State.reset : State := State.powerOn Params.default []

end Sys2Proof.Machine
end

