-- ==== Sys2Proof/Machine/Ops.lean ====
section
/-! DEFINITION. The shared operations: bytes and words of memory, the RAMs as the address map lays them out
(10_state.md R21, R47 to R52), unspecified RAM contents (R244, R271), and the two ends of a command: `complete`
(R34) and `raise` with its failure actions (00_scope.md R10, 60_exceptions.md R242, R244). -/

namespace Sys2Proof.Machine

/-! ## One byte of memory -/

/-- The byte at address `a`; an address that is not listed holds 0 (log entry 1). -/
def readByte : Memory → Nat → Byte
  | [], _ => 0
  | c :: m, a => if c.1 = a then c.2 else readByte m a

/-- Take the entry at `a` off the list. -/
def eraseByte (m : Memory) (a : Nat) : Memory := m.filter (fun c => c.1 != a)

/-- List the entry `(a, v)` at its place by address. -/
def insertByte (a : Nat) (v : Byte) : Memory → Memory
  | [] => [(a, v)]
  | c :: m => if a < c.1 then (a, v) :: c :: m else c :: insertByte a v m

/-- Store `v` at `a`, keeping the canonical form: a zero byte is not listed. -/
def writeByte (m : Memory) (a : Nat) (v : Byte) : Memory :=
  if v = 0 then eraseByte m a else insertByte a v (eraseByte m a)

/-- The canonical form of memory: addresses strictly rising, and no entry equal to what an unlisted address
reads as. -/
def Memory.wf : Memory → Bool
  | [] => true
  | [c] => c.2 != 0
  | c :: d :: m => c.2 != 0 && decide (c.1 < d.1) && Memory.wf (d :: m)

/-! ## Values of several bytes, least significant byte first -/

/-- The `n`-byte value at `a`. -/
def readLE (m : Memory) (a : Nat) : Nat → Nat
  | 0 => 0
  | n + 1 => (readByte m a).toNat + 256 * readLE m (a + 1) n

/-- Store the low `n` bytes of `v` at `a`. -/
def writeLE (m : Memory) (a : Nat) : Nat → Nat → Memory
  | 0, _ => m
  | n + 1, v => writeByte (writeLE m (a + 1) n (v / 256)) a (BitVec.ofNat 8 v)

/-! ## The RAMs in the address map (R21) -/

/-- FREQ[s] is at 0x00400 + 4s. -/
def freqAddr (s : Byte) : Nat := 0x400 + 4 * s.toNat

/-- NODE[i] is at 0x00800 + 4i. -/
def nodeAddr (i : NodeIdx) : Nat := 0x800 + 4 * i.toNat

/-- CODE_LEN[s] is the byte at 0x01000 + 4s; the three bytes above it are RAZ/WI (R49). -/
def codeLenAddr (s : Byte) : Nat := 0x1000 + 4 * s.toNat

/-- CODE_VAL[s] is the 32 bytes at 0x02000 + 32s. -/
def codeValAddr (s : Byte) : Nat := 0x2000 + 32 * s.toNat

/-- IN_BUF[j] is at 0x10000 + j. -/
def inBufAddr (j : Nat) : Nat := 0x10000 + j

/-- OUT_BUF[j] is at 0x20000 + j. -/
def outBufAddr (j : Nat) : Nat := 0x20000 + j

/-- Whether the RAM holds a byte at window offset `a`: its part of the address map (R21), less the three RAZ/WI
bytes of each CODE_LEN word (R49) and the buffer bytes at or above the capacity (R51, R52). -/
def Ram.owns (p : Params) : Ram → Nat → Bool
  | .freq,    a => 0x400 ≤ a && a < 0x800
  | .node,    a => 0x800 ≤ a && a < 0x1000
  | .codeLen, a => 0x1000 ≤ a && a < 0x1400 && a % 4 == 0
  | .codeVal, a => 0x2000 ≤ a && a < 0x4000
  | .inBuf,   a => 0x10000 ≤ a && a < 0x10000 + p.inCap
  | .outBuf,  a => 0x20000 ≤ a && a < 0x20000 + p.outCap

/-- The window offsets of a RAM's bytes. -/
def Ram.addrs (p : Params) : Ram → List Nat
  | .freq    => List.range' 0x400 0x400
  | .node    => List.range' 0x800 0x800
  | .codeLen => List.range' 0x1000 256 4
  | .codeVal => List.range' 0x2000 0x2000
  | .inBuf   => List.range' 0x10000 p.inCap
  | .outBuf  => List.range' 0x20000 p.outCap

/-- Every RAM. -/
def Ram.all : List Ram := [.freq, .node, .codeLen, .codeVal, .inBuf, .outBuf]

/-- Every listed byte is a byte some RAM holds. -/
def Memory.resides (p : Params) (m : Memory) : Bool :=
  m.all (fun c => Ram.all.any (fun r => r.owns p c.1))

/-- FREQ[s] (R47). -/
def freq (m : Memory) (s : Byte) : Word := BitVec.ofNat 32 (readLE m (freqAddr s) 4)

/-- FREQ[s] <- v. -/
def setFreq (m : Memory) (s : Byte) (v : Word) : Memory := writeLE m (freqAddr s) 4 v.toNat

/-- NODE[i] (R48). -/
def node (m : Memory) (i : NodeIdx) : Word := BitVec.ofNat 32 (readLE m (nodeAddr i) 4)

/-- NODE[i] <- v. -/
def setNode (m : Memory) (i : NodeIdx) (v : Word) : Memory := writeLE m (nodeAddr i) 4 v.toNat

/-- CODE_LEN[s] (R49). -/
def codeLen (m : Memory) (s : Byte) : Byte := readByte m (codeLenAddr s)

/-- CODE_LEN[s] <- v. -/
def setCodeLen (m : Memory) (s : Byte) (v : Byte) : Memory := writeByte m (codeLenAddr s) v

/-- CODE_VAL[s], all 256 bits (R50). -/
def codeVal (m : Memory) (s : Byte) : CodeVal := BitVec.ofNat 256 (readLE m (codeValAddr s) 32)

/-- CODE_VAL[s] <- v, all 256 bits. -/
def setCodeVal (m : Memory) (s : Byte) (v : CodeVal) : Memory := writeLE m (codeValAddr s) 32 v.toNat

/-- Word k of CODE_VAL[s]: bits [32k+31:32k] (R50). -/
def codeValWord (m : Memory) (s : Byte) (k : Nat) : Word := BitVec.ofNat 32 (readLE m (codeValAddr s + 4 * k) 4)

/-- Word k of CODE_VAL[s] <- v. -/
def setCodeValWord (m : Memory) (s : Byte) (k : Nat) (v : Word) : Memory :=
  writeLE m (codeValAddr s + 4 * k) 4 v.toNat

/-- IN_BUF[j]; a byte at or above IN_CAP does not exist and reads 0 (R51). -/
def inByte (p : Params) (m : Memory) (j : Nat) : Byte := if j < p.inCap then readByte m (inBufAddr j) else 0

/-- IN_BUF[j] <- v; ignored at or above IN_CAP (R51). -/
def setInByte (p : Params) (m : Memory) (j : Nat) (v : Byte) : Memory :=
  if j < p.inCap then writeByte m (inBufAddr j) v else m

/-- OUT_BUF[j]; a byte at or above OUT_CAP reads 0 (R52). -/
def outByte (p : Params) (m : Memory) (j : Nat) : Byte := if j < p.outCap then readByte m (outBufAddr j) else 0

/-- `MemWrite(OUT, j, b)` of R10, for j < OUT_CAP. -/
def setOutByte (p : Params) (m : Memory) (j : Nat) (v : Byte) : Memory :=
  if j < p.outCap then writeByte m (outBufAddr j) v else m

/-- Every byte of a RAM <- 0: the loops `for s in 0 .. 255: FREQ[s] <- 0` of the command rules. A byte that holds
0 is not listed, so clearing a RAM takes its bytes off the list. -/
def clearRam (p : Params) (r : Ram) (m : Memory) : Memory := m.filter (fun c => !r.owns p c.1)

/-- Every byte of the RAM becomes unspecified: it takes the free value of draw number `n` (U3, U4). -/
def scrambleRam (p : Params) (n : Nat) (r : Ram) (m : Memory) : Memory :=
  (r.addrs p).foldr (fun a m' => writeByte m' a (Config.freeByte n a)) m

/-- Every byte of each of the RAMs becomes unspecified. -/
def scrambleRams (p : Params) (n : Nat) (rs : List Ram) (m : Memory) : Memory :=
  rs.foldr (fun r m' => scrambleRam p n r m') m

/-! ## The end of a command (R34, R244) -/

/-- The numeric code of ERR_CODE (R241). -/
def ErrCode.toByte : ErrCode → Byte
  | .none          => 0
  | .emptyInput    => 1
  | .unknownSymbol => 2
  | .invalidTree   => 3
  | .outOverflow   => 4
  | .illegalCmd    => 5
  | .paramRange    => 6

/-- The subcauses of INVALID_TREE (R242). -/
inductive Subcause where
  /-- 1: ROOT.VALID = 0. -/
  | noRoot
  /-- 2: a word that must be a node is EMPTY or reserved. -/
  | badTag
  /-- 3: bit 1 read at a lone-leaf root. -/
  | missingChild
  /-- 4: a node met at depth above 255. -/
  | depth
  /-- 5: a leaf whose symbol already has a code. -/
  | dupSymbol
  /-- 6: the 512th node visit. -/
  | visits
  deriving DecidableEq, Repr

/-- The subcause's number, ERR_INFO[31:24] (R242). -/
def Subcause.toByte : Subcause → Byte
  | .noRoot       => 1
  | .badTag       => 2
  | .missingChild => 3
  | .depth        => 4
  | .dupSymbol    => 5
  | .visits       => 6

/-- ERR_INFO of INVALID_TREE: the subcause in bits 31:24, the node index in bits 8:0, the other bits 0 (R242). -/
def treeInfo (c : Subcause) (i : NodeIdx) : Word := c.toByte ++ (0#15 ++ i)

/-- What `raise E(info, pos)` records (R10, R242). -/
structure Raise where
  code : ErrCode
  info : Word
  pos  : Word
  deriving DecidableEq, Repr

/-- `raise EMPTY_INPUT(0, 0)`. -/
def Raise.emptyInput : Raise := ⟨.emptyInput, 0, 0⟩

/-- `raise UNKNOWN_SYMBOL(zext_32(s), j)`. -/
def Raise.unknownSymbol (s : Byte) (j : Nat) : Raise := ⟨.unknownSymbol, s.setWidth 32, BitVec.ofNat 32 j⟩

/-- `raise INVALID_TREE(subcause << 24 | i, pos)`. -/
def Raise.invalidTree (c : Subcause) (i : NodeIdx) (pos : Nat) : Raise :=
  ⟨.invalidTree, treeInfo c i, BitVec.ofNat 32 pos⟩

/-- `raise OUT_OVERFLOW(zext_32(OUT_CAP), pos)`. -/
def Raise.outOverflow (p : Params) (pos : Nat) : Raise :=
  ⟨.outOverflow, BitVec.ofNat 32 p.outCap, BitVec.ofNat 32 pos⟩

/-- `raise ILLEGAL_CMD(c, 0)`. -/
def Raise.illegalCmd (c : Word) : Raise := ⟨.illegalCmd, c, 0⟩

/-- `raise PARAM_RANGE(which, 0)`: 1 for IN_LEN, 2 for DEC_NBITS. -/
def Raise.paramRange (which : Word) : Raise := ⟨.paramRange, which, 0⟩

/-- The completion actions of R34: SEQ <- IDLE, STATUS.DONE <- 1. -/
def complete (s : State) : State := { s with seq := .idle, done := true }

/-- OUT_LEN, OUT_BITS and DEC_TAIL <- 0 and every byte of OUT_BUF unspecified: a failed ENCODE, DECODE or
DECODE.ALL (R244). -/
def failOutput (s : State) : State :=
  { s with
    outLen := 0
    outBits := 0
    decTail := 0
    mem := scrambleRam s.params s.draws .outBuf s.mem
    draws := s.draws + 1 }

/-- The whole code table cleared, NCODES = MAXLEN = 0: a failed GEN_CODES (R244); CLR_CODES does the same
(R219). -/
def clearCodes (s : State) : State :=
  { s with
    mem := clearRam s.params .codeVal (clearRam s.params .codeLen s.mem)
    ncodes := 0
    maxlen := 0 }

/-- The failure actions by command (R244); `none` stands for ILLEGAL. A command that raises nothing has none. -/
def failureActions (c : Option Instr) (s : State) : State :=
  match c with
  | some .encode | some .decode | some .decodeAll => failOutput s
  | some .genCodes => clearCodes s
  | some .buildTree | none => s
  | some .nop | some .clrFreq | some .clrTree | some .clrCodes => s

/-- `raise E(info, pos)` in command `c` (R10, R244): the error registers record E, the command's failure actions
run, and the command completes, all in one step. -/
def raise (c : Option Instr) (e : Raise) (s : State) : State :=
  complete (failureActions c { s with errCode := e.code, errInfo := e.info, errPos := e.pos })

end Sys2Proof.Machine
end

