-- ==== Sys2Proof/Machine/Flags.lean ====
section
/-! DEFINITION. The status flags (10_state.md R27, R53): STATUS as a word, its write-1-to-clear, and the IRQ output
(60_exceptions.md R250). HUFFCORE has no arithmetic flags (R53). -/

namespace Sys2Proof.Machine

/-- STATUS.BUSY equals (SEQ = BUSY) at every moment (R27). -/
def State.busy (s : State) : Bool := s.seq == .busy

/-- STATUS.ERR equals (ERR_CODE != 0) at every moment (R27). -/
def State.err (s : State) : Bool := s.errCode != .none

/-- STATUS as it reads (R27): CMD_OVERRUN, WR_WHILE_BUSY, ERR, DONE and BUSY in bits 4 to 0; bits 31:5 read 0. -/
def statusWord (s : State) : Word :=
  0#27 ++ (BitVec.ofBool s.cmdOverrun ++ (BitVec.ofBool s.wrWhileBusy ++
    (BitVec.ofBool s.err ++ (BitVec.ofBool s.done ++ BitVec.ofBool s.busy))))

/-- A write of `v` to STATUS (R27): bits 1, 3 and 4 clear DONE, WR_WHILE_BUSY and CMD_OVERRUN; the other bits are
ignored. -/
def writeStatus (v : Word) (s : State) : State :=
  { s with
    done := s.done && !v.getLsbD 1
    wrWhileBusy := s.wrWhileBusy && !v.getLsbD 3
    cmdOverrun := s.cmdOverrun && !v.getLsbD 4 }

/-- The IRQ output: CTRL.IRQ_EN and STATUS.DONE at every moment (R250). -/
def State.irq (s : State) : Bool := s.irqEn && s.done

end Sys2Proof.Machine
end

