-- ==== Sys2Proof/Machine/Operands.lean ====
section
/-! DEFINITION. Where operands stand: the address map (10_state.md R21), the write sets (20_memory.md R78), and the
operands of commands (30_encoding.md R105, R107, R108; 43_decoder_unpacker.md R190). -/

namespace Sys2Proof.Machine

/-! ## The address map -/

/-- The registers of R21, in the order of their offsets 0x00000, 0x00004, ... 0x0004C. -/
inductive Reg where
  | id | version | ctrl | cmd | status | errCode | errInfo | errPos | inLen | decNbits
  | outLen | outBits | decTail | root | nleaf | nnode | ncodes | maxlen | inCap | outCap
  deriving DecidableEq, Repr

/-- What a word of the window is (R21). -/
inductive Target where
  /-- A register. -/
  | reg (r : Reg)
  /-- FREQ[s]. -/
  | freq (s : Byte)
  /-- NODE[i]. -/
  | node (i : NodeIdx)
  /-- CODE_LEN[s]. -/
  | codeLen (s : Byte)
  /-- Word k of CODE_VAL[s]. -/
  | codeVal (s : Byte) (k : Nat)
  /-- Word k of the IN_BUF window. -/
  | inBuf (k : Nat)
  /-- Word k of the OUT_BUF window. -/
  | outBuf (k : Nat)
  /-- A reserved offset (R79). -/
  | reserved
  deriving DecidableEq, Repr

/-- The register at word `n` of the window, and reserved from 0x00050 on (R21). -/
def regTarget (n : Nat) : Target :=
  match n with
  | 0 => .reg .id | 1 => .reg .version | 2 => .reg .ctrl | 3 => .reg .cmd | 4 => .reg .status
  | 5 => .reg .errCode | 6 => .reg .errInfo | 7 => .reg .errPos | 8 => .reg .inLen | 9 => .reg .decNbits
  | 10 => .reg .outLen | 11 => .reg .outBits | 12 => .reg .decTail | 13 => .reg .root | 14 => .reg .nleaf
  | 15 => .reg .nnode | 16 => .reg .ncodes | 17 => .reg .maxlen | 18 => .reg .inCap | 19 => .reg .outCap
  | _ => .reserved

/-- The address map (R21), by word number `n` (offset 4n). -/
def targetAt (n : Nat) : Target :=
  if n < 0x100 then regTarget n
  else if n < 0x200 then .freq (BitVec.ofNat 8 (n - 0x100))
  else if n < 0x400 then .node (BitVec.ofNat 9 (n - 0x200))
  else if n < 0x500 then .codeLen (BitVec.ofNat 8 (n - 0x400))
  else if n < 0x800 then .reserved
  else if n < 0x1000 then .codeVal (BitVec.ofNat 8 ((n - 0x800) / 8)) ((n - 0x800) % 8)
  else if n < 0x4000 then .reserved
  else if n < 0x8000 then .inBuf (n - 0x4000)
  else if n < 0xC000 then .outBuf (n - 0x8000)
  else .reserved

/-- What the word that holds the byte at `off` is. Offset bits [1:0] are ignored (R75). -/
def target (off : Offset) : Target := targetAt (off.toNat / 4)

/-- The offset in the block's window of a bus address, or none when the address lies outside the window
(R5, R70). -/
def offsetOf? (p : Params) (addr : Nat) : Option Offset :=
  if p.base ≤ addr ∧ addr < p.base + 0x40000 then some (BitVec.ofNat 18 (addr - p.base)) else none

/-- The offset of STATUS (R21). -/
def statusOffset : Offset := 0x00010

/-- The offset of CMD (R21). -/
def cmdOffset : Offset := 0x0000C

/-! ## Reading a word (R71) -/

/-- Bytes 4k..4k+3 of a byte buffer in the lanes of R51 and R74: the lowest-numbered byte in bits [7:0]. -/
def lanes (get : Nat → Byte) (k : Nat) : Word :=
  get (4 * k + 3) ++ (get (4 * k + 2) ++ (get (4 * k + 1) ++ get (4 * k)))

/-- Byte j (0..3) of a word, bits [8j+7:8j] (R72, R74). -/
def lane (v : Word) (j : Nat) : Byte := v.extractLsb' (8 * j) 8

/-- A register's value, reserved bits 0 (R23 to R30, R35 to R46). -/
def readReg (s : State) : Reg → Word
  | .id       => 0x48554631
  | .version  => 0x00010000
  | .ctrl     => 0#31 ++ BitVec.ofBool s.irqEn
  | .cmd      => s.cmd
  | .status   => statusWord s
  | .errCode  => s.errCode.toByte.setWidth 32
  | .errInfo  => s.errInfo
  | .errPos   => s.errPos
  | .inLen    => s.inLen.setWidth 32
  | .decNbits => s.decNbits
  | .outLen   => s.outLen.setWidth 32
  | .outBits  => s.outBits
  | .decTail  => s.decTail
  | .root     => BitVec.ofBool s.rootValid ++ (0#22 ++ s.rootIdx)
  | .nleaf    => s.nleaf.setWidth 32
  | .nnode    => s.nnode.setWidth 32
  | .ncodes   => s.ncodes.setWidth 32
  | .maxlen   => s.maxlen.setWidth 32
  | .inCap    => BitVec.ofNat 32 s.params.inCap
  | .outCap   => BitVec.ofNat 32 s.params.outCap

/-- The stored value of a word of the window (R71, less its first line). -/
def readTarget (s : State) : Target → Word
  | .reg r       => readReg s r
  | .freq y      => freq s.mem y
  | .node i      => node s.mem i
  | .codeLen y   => (codeLen s.mem y).setWidth 32
  | .codeVal y k => codeValWord s.mem y k
  | .inBuf k     => lanes (inByte s.params s.mem) k
  | .outBuf k    => lanes (outByte s.params s.mem) k
  | .reserved    => 0

/-! ## Write sets (R78) -/

/-- The RAMs of a command's write set (R78, R107); an illegal word, `none`, has none. -/
def writeRams : Option Instr → List Ram
  | some .nop => []
  | some .clrFreq => [.freq]
  | some .buildTree => [.node]
  | some .genCodes => [.codeLen, .codeVal]
  | some .encode => [.outBuf]
  | some .decode => [.outBuf]
  | some .decodeAll => [.outBuf]
  | some .clrTree => [.node]
  | some .clrCodes => [.codeLen, .codeVal]
  | none => []

/-- The registers of a command's write set (R78, R107). -/
def writeRegs : Option Instr → List Reg
  | some .nop => []
  | some .clrFreq => []
  | some .buildTree => [.root, .nleaf, .nnode]
  | some .genCodes => [.ncodes, .maxlen]
  | some .encode => [.outLen, .outBits, .decTail]
  | some .decode => [.outLen, .outBits, .decTail]
  | some .decodeAll => [.outLen, .outBits, .decTail]
  | some .clrTree => [.root, .nleaf, .nnode]
  | some .clrCodes => [.ncodes, .maxlen]
  | none => []

/-- Whether a word of the window lies in a command's write set (R78). OUT_BUF is OUT_BUF[0..OUT_CAP-1] (R20, R52): a word
of its window with no byte below OUT_CAP lies in none; a word with some byte below it does (DEDUCED, log entry 15). -/
def inWriteSet (p : Params) (c : Option Instr) : Target → Bool
  | .reg r       => (writeRegs c).contains r
  | .freq _      => (writeRams c).contains .freq
  | .node _      => (writeRams c).contains .node
  | .codeLen _   => (writeRams c).contains .codeLen
  | .codeVal _ _ => (writeRams c).contains .codeVal
  | .inBuf _     => (writeRams c).contains .inBuf
  | .outBuf k    => (writeRams c).contains .outBuf && decide (4 * k < p.outCap)
  | .reserved    => false

/-- The command the latched word names, or none when it is illegal (R110). -/
def latched (s : State) : Option Instr :=
  match decode s.cmd with
  | .ok i => some i
  | .error _ => none

/-! ## Operands of commands (R105, R107, R108) -/

/-- Symbol number k, for k = 0..255. -/
def symbol (k : Nat) : Byte := BitVec.ofNat 8 k

/-- The 256 symbols in ascending order (R6). -/
def symbols : List Byte := (List.range 256).map symbol

/-- `code(s)` of R105 as a bit string, first bit first: CODE_VAL[s][CODE_LEN[s]-1] down to CODE_VAL[s][0]. -/
def codeBits (v : CodeVal) : Nat → List Bool
  | 0 => []
  | n + 1 => v.getLsbD n :: codeBits v n

/-- `code(s)` of R105: empty when s has no code. -/
def codeOf (m : Memory) (s : Byte) : List Bool := codeBits (codeVal m s) (codeLen m s).toNat

/-- `bit(p)` of R190: BitStream bit p of IN_BUF, which is bit 7 - (p mod 8) of byte p div 8 (R9, R73). -/
def inBit (p : Params) (m : Memory) (k : Nat) : Bool := (inByte p m (k / 8)).getLsbD (7 - k % 8)

/-- The bit count DECODE.ALL reads: 8 x IN_LEN (R102, R192). -/
def allBits (s : State) : Nat := 8 * s.inLen.toNat

/-- The PISO shift register of R57 and R190: SH and how many of its bits remain. -/
structure Piso where
  sh   : Byte
  left : Nat
  deriving DecidableEq, Repr

/-- One bit out of the PISO unpacker at bit position k: load byte k div 8 when k mod 8 = 0, then shift out bit 7
(R190). -/
def Piso.shift (p : Params) (m : Memory) (k : Nat) (r : Piso) : Bool × Piso :=
  let r := if k % 8 = 0 then ⟨inByte p m (k / 8), 8⟩ else r
  (r.sh.getLsbD 7, ⟨r.sh <<< 1, r.left - 1⟩)

/-- The n bits the PISO unpacker shifts out from bit position k on. -/
def Piso.stream (p : Params) (m : Memory) : Nat → Nat → Piso → List Bool
  | 0, _, _ => []
  | n + 1, k, r => (r.shift p m k).1 :: Piso.stream p m n (k + 1) (r.shift p m k).2

end Sys2Proof.Machine
end

