-- ==== Sys2Proof/Machine/Control.lean ====
section
/-! DEFINITION. NOP, CLR_FREQ, CLR_TREE and CLR_CODES, and what an illegal word does (44_control_commands.md R215 to
R220). -/

namespace Sys2Proof.Machine

/-- What a command's meaning answers. -/
abbrev Result := Host.Outcome State Fault Refusal

/-- NOP: complete without effect (R215). -/
def execNop (s : State) : Result := .next (complete s)

/-- CLR_FREQ: FREQ[s] <- 0 for every s (R216). -/
def execClrFreq (s : State) : Result := .next (complete { s with mem := clearRam s.params .freq s.mem })

/-- CLR_TREE: NODE[i] <- 0 for every i; ROOT, NLEAF, NNODE <- 0 (R218). -/
def execClrTree (s : State) : Result :=
  .next (complete
    { s with
      mem := clearRam s.params .node s.mem
      rootValid := false
      rootIdx := 0
      nleaf := 0
      nnode := 0 })

/-- CLR_CODES: CODE_LEN[s] <- 0 and CODE_VAL[s] <- 0 for every s; NCODES, MAXLEN <- 0 (R219). -/
def execClrCodes (s : State) : Result := .next (complete (clearCodes s))

/-- An illegal command word (R220): `raise ILLEGAL_CMD(c, 0)`, c the whole latched word. -/
def execIllegal (s : State) : Result := .next (raise none (.illegalCmd s.cmd) s)

end Sys2Proof.Machine
end

