-- ==== Sys2Proof/Machine/CodeTable.lean ====
section
/-! DEFINITION. GEN_CODES: the depth-first traversal (41_code_table.md R150 to R152; 10_state.md R55). -/

namespace Sys2Proof.Machine

/-- A stack entry: node index, depth, path value (R55, R152). -/
structure Visit where
  idx   : NodeIdx
  depth : Nat
  path  : Nat
  deriving DecidableEq, Repr

/-- The code table as written so far, the count of codes and the longest (R152). -/
structure Table where
  mem   : Memory
  count : Nat
  maxl  : Nat
  deriving DecidableEq, Repr

/-- CODE_LEN[y] <- d and CODE_VAL[y] <- zext_256(v) (R152). -/
def Table.record (t : Table) (y : Byte) (d v : Nat) : Table :=
  { mem := setCodeVal (setCodeLen t.mem y (BitVec.ofNat 8 d)) y (BitVec.ofNat 256 v)
    count := t.count + 1
    maxl := max t.maxl d }

/-- The traversal loop of R152. The first argument is how many more visits are allowed before the one that raises
VISITS, which is the 512th: 511 at the start. `m` is the memory at acceptance, from which NODE is read. -/
def genWalk (m : Memory) : Nat → List Visit → Table → Except Raise Table
  | _, [], t => .ok t
  | 0, v :: _, _ => .error (.invalidTree .visits v.idx v.depth)
  | k + 1, v :: st, t =>
    let w := node m v.idx
    if v.depth > 255 then .error (.invalidTree .depth v.idx v.depth)
    else if isLeaf w then
      if codeLen t.mem (nodeSym w) != 0 then .error (.invalidTree .dupSymbol v.idx v.depth)
      else genWalk m k st (t.record (nodeSym w) v.depth v.path)
    else if isInt w then
      genWalk m k
        (⟨nodeLeft w, v.depth + 1, 2 * v.path⟩ :: ⟨nodeRight w, v.depth + 1, 2 * v.path + 1⟩ :: st) t
    else .error (.invalidTree .badTag v.idx v.depth)

/-- The pseudocode of R152 on a memory whose code table was cleared: the table it ends with, or what it raises. -/
def genTable (m : Memory) (rootValid : Bool) (r : NodeIdx) : Except Raise Table :=
  let w := node m r
  if !rootValid then .error (.invalidTree .noRoot 0 0)
  else if isLeaf w then .ok ((⟨m, 0, 0⟩ : Table).record (nodeSym w) 1 0)
  else genWalk m 511 [⟨r, 0, 0⟩] ⟨m, 0, 0⟩

/-- GEN_CODES (R152): the table is cleared first, then filled. -/
def execGenCodes (s : State) : Result :=
  match genTable (clearCodes s).mem s.rootValid s.rootIdx with
  | .ok t =>
    .next (complete { s with mem := t.mem, ncodes := BitVec.ofNat 9 t.count, maxlen := BitVec.ofNat 8 t.maxl })
  | .error e => .next (raise (some .genCodes) e s)

end Sys2Proof.Machine
end

