-- ==== Sys2Proof/Machine/Decoder.lean ====
section
/-! DEFINITION. DECODE and DECODE.ALL: the tree-walking decoder over the unpacked bits of IN_BUF
(43_decoder_unpacker.md R190 to R192; 10_state.md R57). -/

namespace Sys2Proof.Machine

/-- The decoder: cursor, tail count, output index, and memory with OUT_BUF as written so far (R57, R190). -/
structure Decoder where
  cur  : NodeIdx
  tail : Nat
  optr : Nat
  mem  : Memory
  deriving DecidableEq, Repr

/-- `emit(s, p)`, after which the cursor is at the root and TAIL is 0 (R190). -/
def emitSymbol (p : Params) (root : NodeIdx) (y : Byte) (pos : Nat) (d : Decoder) : Except Raise Decoder :=
  if d.optr ≥ p.outCap then .error (.outOverflow p pos)
  else .ok ⟨root, 0, d.optr + 1, setOutByte p d.mem d.optr y⟩

/-- `step(p, b)` of R190. `m` is the memory at acceptance, from which NODE is read. A leaf at the cursor is a
lone-leaf root, so the cursor stays at the root. -/
def decodeStep (p : Params) (m : Memory) (root : NodeIdx) (pos : Nat) (b : Bool) (d : Decoder) :
    Except Raise Decoder :=
  let w := node m d.cur
  let c := if b then nodeRight w else nodeLeft w
  let wc := node m c
  if isLeaf w then
    if b then .error (.invalidTree .missingChild d.cur pos) else emitSymbol p d.cur (nodeSym w) pos d
  else if isInt w then
    if isLeaf wc then emitSymbol p root (nodeSym wc) pos d
    else if isInt wc then .ok { d with cur := c, tail := d.tail + 1 }
    else .error (.invalidTree .badTag c pos)
  else .error (.invalidTree .badTag d.cur pos)

/-- `step` for n more bits from position pos on (R191). -/
def decodeBits (p : Params) (m : Memory) (root : NodeIdx) : Nat → Nat → Decoder → Except Raise Decoder
  | 0, _, d => .ok d
  | n + 1, pos, d =>
    match decodeStep p m root pos (inBit p m pos) d with
    | .error e => .error e
    | .ok d' => decodeBits p m root n (pos + 1) d'

/-- The pseudocode of R191 with N = `n`: the decoder it ends with, or what it raises. -/
def decodeRun (s : State) (n : Nat) : Except Raise Decoder :=
  if s.inLen.toNat > s.params.inCap then .error (.paramRange 1)
  else if n > 8 * s.inLen.toNat then .error (.paramRange 2)
  else if !s.rootValid then .error (.invalidTree .noRoot 0 0)
  else decodeBits s.params s.mem s.rootIdx n 0 ⟨s.rootIdx, 0, 0, s.mem⟩

/-- The results of a decode of `n` bits: OUT_LEN <- OPTR, OUT_BITS <- N - TAIL, DEC_TAIL <- TAIL (R191). -/
def decodeDone (n : Nat) (d : Decoder) (s : State) : State :=
  complete
    { s with
      mem := d.mem
      outLen := BitVec.ofNat 17 d.optr
      outBits := BitVec.ofNat 32 (n - d.tail)
      decTail := BitVec.ofNat 32 d.tail }

/-- DECODE (R191): N is DEC_NBITS. -/
def execDecode (s : State) : Result :=
  match decodeRun s s.decNbits.toNat with
  | .ok d => .next (decodeDone s.decNbits.toNat d s)
  | .error e => .next (raise (some .decode) e s)

/-- DECODE.ALL (R192): N is 8 x IN_LEN. -/
def execDecodeAll (s : State) : Result :=
  match decodeRun s (allBits s) with
  | .ok d => .next (decodeDone (allBits s) d s)
  | .error e => .next (raise (some .decodeAll) e s)

end Sys2Proof.Machine
end

