-- ==== Sys2Proof/Machine/Encoder.lean ====
section
/-! DEFINITION. ENCODE: the encoder and the SIPO packer (42_encoder_packer.md R170, R171; 10_state.md R56). -/

namespace Sys2Proof.Machine

/-- The packer: the count of bits packed, the accumulator with its fill count, and memory with OUT_BUF as written so
far (R56, R170). -/
structure Packer where
  len  : Nat
  acc  : Byte
  acnt : Nat
  mem  : Memory
  deriving DecidableEq, Repr

/-- `pack_init()` (R170). -/
def Packer.init (m : Memory) : Packer := ⟨0, 0, 0, m⟩

/-- `pack_bit(b, j)` (R170). -/
def packBit (p : Params) (b : Bool) (j : Nat) (k : Packer) : Except Raise Packer :=
  let acc := (k.acc <<< 1) ||| (BitVec.ofBool b).setWidth 8
  if k.len / 8 ≥ p.outCap then .error (.outOverflow p j)
  else if k.acnt + 1 = 8 then .ok ⟨k.len + 1, 0, 0, setOutByte p k.mem ((k.len + 1) / 8 - 1) acc⟩
  else .ok ⟨k.len + 1, acc, k.acnt + 1, k.mem⟩

/-- `pack_flush()` (R170). -/
def packFlush (p : Params) (k : Packer) : Packer :=
  if k.acnt = 0 then k
  else ⟨k.len, 0, 0, setOutByte p k.mem (k.len / 8) (k.acc <<< (8 - k.acnt))⟩

/-- Pack the bits of a code value from bit t-1 down to bit 0: `for t in len-1 downto 0` (R171). -/
def packCode (p : Params) (v : CodeVal) (j : Nat) : Nat → Packer → Except Raise Packer
  | 0, k => .ok k
  | t + 1, k =>
    match packBit p (v.getLsbD t) j k with
    | .error e => .error e
    | .ok k' => packCode p v j t k'

/-- Encode n more input bytes from index j on (R171). `m` is the memory at acceptance, from which IN_BUF and the code
table are read. -/
def encodeBytes (p : Params) (m : Memory) : Nat → Nat → Packer → Except Raise Packer
  | 0, _, k => .ok k
  | n + 1, j, k =>
    let y := inByte p m j
    if codeLen m y = 0 then .error (.unknownSymbol y j)
    else
      match packCode p (codeVal m y) j (codeLen m y).toNat k with
      | .error e => .error e
      | .ok k' => encodeBytes p m n (j + 1) k'

/-- The pseudocode of R171 up to `pack_flush`: the packer it ends with, or what it raises. -/
def encodeRun (p : Params) (m : Memory) (inLen : Nat) : Except Raise Packer :=
  if inLen > p.inCap then .error (.paramRange 1)
  else
    match encodeBytes p m inLen 0 (Packer.init m) with
    | .error e => .error e
    | .ok k => .ok (packFlush p k)

/-- ENCODE (R171). -/
def execEncode (s : State) : Result :=
  match encodeRun s.params s.mem s.inLen.toNat with
  | .ok k =>
    .next (complete
      { s with
        mem := k.mem
        outLen := BitVec.ofNat 17 ((k.len + 7) / 8)
        outBits := BitVec.ofNat 32 k.len
        decTail := 0 })
  | .error e => .next (raise (some .encode) e s)

end Sys2Proof.Machine
end

