-- ==== Sys2Proof/Machine/TreeBuilder.lean ====
section
/-! DEFINITION. BUILD_TREE: the priority queue and the merge (40_tree_builder.md R130, R131; 10_state.md R54). -/

namespace Sys2Proof.Machine

/-- An element of the queue: a node index with its weight WGT, 40 bits (R54). -/
structure QEntry where
  wgt : Weight
  idx : Nat
  deriving DecidableEq, Repr

/-- The priority order: weight first, then index (R130). -/
def QEntry.before (a b : QEntry) : Bool :=
  decide (a.wgt.toNat < b.wgt.toNat) || (a.wgt == b.wgt && decide (a.idx < b.idx))

/-- The least of `e` and the entries of a list. -/
def leastEntry : QEntry → List QEntry → QEntry
  | e, [] => e
  | e, x :: xs => leastEntry (if x.before e then x else e) xs

/-- `popmin(Q)`: the entry with the least (WGT, index) and the rest of Q (R130). -/
def popMin : List QEntry → Option (QEntry × List QEntry)
  | [] => none
  | e :: es => some (leastEntry e es, (e :: es).erase (leastEntry e es))

/-- What BUILD_TREE holds while it runs: the arena as written so far, Q, and `next` (R54, R131). -/
structure Builder where
  mem   : Memory
  queue : List QEntry
  next  : Nat
  deriving DecidableEq, Repr

/-- P: the present symbols in ascending order (R131). -/
def present (m : Memory) : List Byte := symbols.filter (fun s => freq m s != 0)

/-- Seed: NODE[next] <- LEAF(s), WGT[next] := zext_40(FREQ[s]), for each present symbol (R131). `m` is the memory
at acceptance, from which FREQ is read. -/
def seedLeaves (m : Memory) : List Byte → Builder → Builder
  | [], b => b
  | s :: ps, b =>
    seedLeaves m ps
      { mem := setNode b.mem (BitVec.ofNat 9 b.next) (leafWord s)
        queue := b.queue ++ [⟨(freq m s).setWidth 40, b.next⟩]
        next := b.next + 1 }

/-- Merge while |Q| > 1: pop a, pop b, NODE[next] <- INTERNAL(a, b), WGT[next] := WGT[a] + WGT[b] (R131). The first
argument bounds the rounds; each round takes one element off Q, so |Q| rounds are enough. -/
def mergeNodes : Nat → Builder → Builder
  | 0, b => b
  | k + 1, b =>
    match popMin b.queue with
    | none => b
    | some (x, q) =>
      match popMin q with
      | none => b
      | some (y, q') =>
        mergeNodes k
          { mem := setNode b.mem (BitVec.ofNat 9 b.next) (internalWord (BitVec.ofNat 9 x.idx) (BitVec.ofNat 9 y.idx))
            queue := q' ++ [⟨x.wgt + y.wgt, b.next⟩]
            next := b.next + 1 }

/-- The single element of Q when the merge is done (R131). -/
def Builder.root (b : Builder) : Nat :=
  match b.queue with
  | [] => 0
  | e :: _ => e.idx

/-- The seeded arena and queue, after every NODE word was set to EMPTY (R131). -/
def seeded (p : Params) (m : Memory) : Builder := seedLeaves m (present m) ⟨clearRam p .node m, [], 0⟩

/-- The finished arena and queue. -/
def built (p : Params) (m : Memory) : Builder := mergeNodes (present m).length (seeded p m)

/-- BUILD_TREE (R131). -/
def execBuildTree (s : State) : Result :=
  let n := (present s.mem).length
  let b := built s.params s.mem
  if n = 0 then .next (raise (some .buildTree) .emptyInput s)
  else
    .next (complete
      { s with
        mem := b.mem
        rootValid := true
        rootIdx := BitVec.ofNat 9 b.root
        nleaf := BitVec.ofNat 9 n
        nnode := BitVec.ofNat 10 (2 * n - 1) })

end Sys2Proof.Machine
end

