-- ==== Sys2Proof/Machine/Dispatch.lean ====
section
/-! DEFINITION. `execute(CMD)` of 10_state.md R34: one arm per command. -/

namespace Sys2Proof.Machine

def exec (i : Instr) (s : State) : Host.Outcome State Fault Refusal :=
  match i with
  | .nop => Sys2Proof.Machine.execNop s
  | .clrFreq => Sys2Proof.Machine.execClrFreq s
  | .buildTree => Sys2Proof.Machine.execBuildTree s
  | .genCodes => Sys2Proof.Machine.execGenCodes s
  | .encode => Sys2Proof.Machine.execEncode s
  | .decode => Sys2Proof.Machine.execDecode s
  | .decodeAll => Sys2Proof.Machine.execDecodeAll s
  | .clrTree => Sys2Proof.Machine.execClrTree s
  | .clrCodes => Sys2Proof.Machine.execClrCodes s

end Sys2Proof.Machine
end

