-- ==== Sys2Proof/Machine/HostBus.lean ====
section
/-! DEFINITION. The host's side: bus reads and writes (20_memory.md R71, R72, R75 to R79), acceptance (10_state.md
R33), soft reset (70_reset_and_hazards.md R271), and host programs (30_encoding.md R120, R121). -/

namespace Sys2Proof.Machine

/-- Acceptance (R33): a CMD write while BUSY is dropped and sets CMD_OVERRUN; while IDLE it latches the word, clears
DONE and the error registers and makes SEQ BUSY. The command's duration, in host statements, is the next entry of the
environment's schedule (R34, R288, U5); with none left it is 0. -/
def accept (v : Word) (s : State) : State :=
  match s.seq with
  | .busy => { s with cmdOverrun := true }
  | .idle =>
    { s with
      cmd := v
      done := false
      errCode := .none
      errInfo := 0
      errPos := 0
      seq := .busy
      delay := s.schedule.headD 0
      schedule := s.schedule.tail }

/-- The registers as R270 leaves them; the RAMs, the parameters, the host and the draws are kept. -/
def resetRegisters (s : State) : State :=
  { State.powerOn s.params s.mem with host := s.host, hostLog := s.hostLog, schedule := s.schedule, draws := s.draws }

/-- Soft reset (R271): a running command is abandoned and the RAMs of its write set become unspecified; then every
register takes its value of R270. -/
def softReset (s : State) : State :=
  match s.seq with
  | .idle => resetRegisters s
  | .busy =>
    resetRegisters
      { s with mem := scrambleRams s.params s.draws (writeRams (latched s)) s.mem, draws := s.draws + 1 }

/-- A write of `v` to CTRL (R25): bit 31 = 1 is a soft reset; otherwise IRQ_EN takes bit 0. -/
def writeCtrl (v : Word) (s : State) : State :=
  if v.getLsbD 31 then softReset s else { s with irqEn := v.getLsbD 0 }

/-- A write of `v` to word k of the IN_BUF window (R51, R72): each byte lane below IN_CAP is stored. -/
def writeInBuf (p : Params) (k : Nat) (v : Word) (m : Memory) : Memory :=
  setInByte p (setInByte p (setInByte p (setInByte p m (4 * k) (lane v 0)) (4 * k + 1) (lane v 1)) (4 * k + 2) (lane v 2))
    (4 * k + 3) (lane v 3)

/-- A host write of `v` to a word of the window while SEQ = IDLE, or to CMD, CTRL or STATUS at any time (R72). -/
def writeTarget (v : Word) (s : State) : Target → State
  | .reg .cmd => accept v s
  | .reg .ctrl => writeCtrl v s
  | .reg .status => writeStatus v s
  | .reg .inLen => { s with inLen := v.extractLsb' 0 17 }
  | .reg .decNbits => { s with decNbits := v }
  | .reg .root => { s with rootValid := v.getLsbD 31, rootIdx := v.extractLsb' 0 9 }
  | .reg .id | .reg .version | .reg .errCode | .reg .errInfo | .reg .errPos | .reg .outLen | .reg .outBits
  | .reg .decTail | .reg .nleaf | .reg .nnode | .reg .ncodes | .reg .maxlen | .reg .inCap | .reg .outCap => s
  | .freq y => { s with mem := setFreq s.mem y v }
  | .node i => { s with mem := setNode s.mem i v }
  | .codeLen y => { s with mem := setCodeLen s.mem y (v.extractLsb' 0 8) }
  | .codeVal y k => { s with mem := setCodeValWord s.mem y k v }
  | .inBuf k => { s with mem := writeInBuf s.params k v s.mem }
  | .outBuf _ => s
  | .reserved => s

/-- Whether a write to the word takes effect while SEQ = BUSY (R76). -/
def busyWritable : Target → Bool
  | .reg .cmd | .reg .ctrl | .reg .status => true
  | _ => false

/-- `MemWrite(off, 4, v)` (R72): a write while BUSY to a word other than CMD, CTRL or STATUS is dropped and sets
WR_WHILE_BUSY (R76). -/
def memWrite (off : Offset) (v : Word) (s : State) : State :=
  if s.busy && !busyWritable (target off) then { s with wrWhileBusy := true }
  else writeTarget v s (target off)

/-- Whether a read of the word returns an unspecified value: SEQ = BUSY and the word lies in the write set of CMD
(R71, R78). -/
def unspecifiedRead (s : State) (off : Offset) : Bool := s.busy && inWriteSet s.params (latched s) (target off)

/-- The value of `MemRead(off, 4)` (R71): an unspecified one is a free value, a fresh one for each read (U2). -/
def memRead (s : State) (off : Offset) : Word :=
  if unspecifiedRead s off then Config.freeWord s.draws else readTarget s (target off)

/-- A host read (R71, R120): the value goes to the host's log and no state of the block changes. -/
def hostRead (off : Offset) (s : State) : State :=
  { s with
    hostLog := memRead s off :: s.hostLog
    draws := if unspecifiedRead s off then s.draws + 1 else s.draws }

/-- One bus access. An address outside the window [BASE, BASE + 0x40000) does not select the block, which then does
nothing (log entry 6). -/
def busAccess (a : BusAccess) (s : State) : State :=
  match a with
  | .read addr =>
    match offsetOf? s.params addr with
    | some off => hostRead off s
    | none => s
  | .write addr v =>
    match offsetOf? s.params addr with
    | some off => memWrite off v s
    | none => s

/-- Whether the core's completion step comes next: SEQ = BUSY, and either the chosen number of host statements has
passed or the host has none left (R34, R288). -/
def State.coreTurn (s : State) : Bool := s.busy && (s.delay == 0 || s.host.isEmpty)

/-- One host statement passes: it leaves the program, and the time to the completion of a running command falls. -/
def State.tick (s : State) (rest : List HostStmt) : State := { s with host := rest, delay := s.delay - 1 }

/-- The host's next statement (R120, R121). WAIT reads STATUS and stays while bit 0 of the value read is 1. With no
statement left nothing happens (R257). -/
def hostTurn (s : State) : State :=
  match s.host with
  | [] => s
  | .access a :: rest => busAccess a (s.tick rest)
  | .wait :: rest =>
    if (memRead s statusOffset).getLsbD 0 then hostRead statusOffset (s.tick (.wait :: rest))
    else hostRead statusOffset (s.tick rest)

/-- The command word the core runs next: it is latched in CMD, and no word is fetched from memory (R31). -/
def fetchWord (s : State) : Word := s.cmd

/-- Put a command word where the core's next step finds it: what acceptance does to an idle block (R33), with the
completion step next. -/
def latchWord (v : Word) (s : State) : State :=
  { s with
    cmd := v
    done := false
    errCode := .none
    errInfo := 0
    errPos := 0
    seq := .busy
    delay := 0 }

/-! ## Host programs (R120, R121) -/

/-- `WR off, v`. -/
def stmtWR (p : Params) (off : Offset) (v : Word) : HostStmt := .access (.write (p.base + off.toNat) v)

/-- `RD off`. -/
def stmtRD (p : Params) (off : Offset) : HostStmt := .access (.read (p.base + off.toNat))

/-- `CMD m`. -/
def stmtCMD (p : Params) (i : Instr) : HostStmt := stmtWR p cmdOffset (encode i)

/-- `ACK`: clears DONE, WR_WHILE_BUSY and CMD_OVERRUN. -/
def stmtACK (p : Params) : HostStmt := stmtWR p statusOffset 0x0000001A

/-- `RUN m`. -/
def progRUN (p : Params) (i : Instr) : List HostStmt := [stmtCMD p i, .wait]

/-- `WRB off, b0 b1 ...`: word writes with missing bytes 0.
DESIGN CHOICE (log entry 14): R121 does not say what `off+4k` is at or above 0x40000; the sum is taken in the 18 bits of
an offset, so it goes on at offset 0 of the window. -/
def progWRB (p : Params) (off : Offset) (bs : List Byte) : List HostStmt :=
  (List.range ((bs.length + 3) / 4)).map (fun k =>
    stmtWR p (off + BitVec.ofNat 18 (4 * k)) (lanes (fun j => bs.getD j 0) k))

/-- `RDB off, n`: the word reads that cover n bytes. Offsets are added as in `progWRB` (log entry 14). -/
def progRDB (p : Params) (off : Offset) (n : Nat) : List HostStmt :=
  (List.range ((n + 3) / 4)).map (fun k => stmtRD p (off + BitVec.ofNat 18 (4 * k)))

/-- `Freq(S)[y]`: the host's reference count of symbol y in S (R12), as the 32-bit word the host writes to FREQ[y].
DESIGN CHOICE (log entry 13): R12 gives the count no width and the spec leaves its overflow open
(91_not_in_source.md N7); a count of 2^32 or more is taken modulo 2^32. -/
def hostFreq (bs : List Byte) (y : Byte) : Word := BitVec.ofNat 32 (bs.count y)

/-- The host statements that load a FREQ table into the block: `WR 0x00400 + 4s, Freq(S)[s]` for every s (R12, R273). -/
def progLoadFreq (p : Params) (bs : List Byte) : List HostStmt :=
  symbols.map (fun y => stmtWR p (BitVec.ofNat 18 (freqAddr y)) (hostFreq bs y))

end Sys2Proof.Machine
end

