-- ==== Sys2Proof/Machine/Step.lean ====
section
/-! DEFINITION. One step of HUFFCORE: a host access or the core's completion step (10_state.md R34; 20_memory.md
R77, R81). -/

namespace Sys2Proof.Machine

/-- One event of the total order of R81. When the core's turn has come, the latched word is decoded (R110) and its
rule runs to completion (R34), an illegal word by R220; otherwise the host's next statement runs. -/
def step (s : State) : Host.Outcome State Fault Refusal :=
  if s.coreTurn then
    match decode (fetchWord s) with
    | .ok i => exec i s
    | .error _ => execIllegal s
  else .next (hostTurn s)

/-- `s` with the command word whose low `nbits` bits are those of `w` latched in CMD and the core's step next
(log entry 4). -/
def State.withFetchWord (s : State) (nbits w : Nat) : State := latchWord (BitVec.ofNat 32 (w % 2 ^ nbits)) s

end Sys2Proof.Machine
end

