-- ==== Sys2Proof/Safety.lean ====
section
/-! DEFINITION. The terms the claims use: the invariant of every run, the tree an arena holds and the codes and
symbols it gives (00_scope.md R11; 41_code_table.md R150, R151; 43_decoder_unpacker.md R190), the weights of the
merge (40_tree_builder.md R130, R131), and the write sets word by word (20_memory.md R78). -/

namespace Sys2Proof.Machine

/-! ## The invariant -/

/-- What holds of every state a run from power-on reset can reach. -/
structure Inv (s : State) : Prop where
  /-- Memory is in its canonical form. -/
  memWf : Memory.wf s.mem = true
  /-- No byte is listed where no RAM holds one (R49, R51, R52, R79). -/
  memResides : Memory.resides s.params s.mem = true
  /-- While BUSY, DONE and the error code are clear (R33, R78). -/
  busyClean : s.seq = .busy → s.done = false ∧ s.errCode = .none
  /-- With no error recorded, its information and position are 0 (R33). -/
  noError : s.errCode = .none → s.errInfo = 0 ∧ s.errPos = 0
  /-- NLEAF is 0, or 1..256; NNODE is 0 or 2 x NLEAF - 1 (R41, R42). -/
  treeCounts : (s.nleaf = 0 ∧ s.nnode = 0) ∨
    (1 ≤ s.nleaf.toNat ∧ s.nleaf.toNat ≤ 256 ∧ s.nnode.toNat = 2 * s.nleaf.toNat - 1)
  /-- NCODES is 0, or 1..256; MAXLEN is 0, or 1..255 (R43, R44). -/
  codeCounts : (s.ncodes = 0 ∧ s.maxlen = 0) ∨
    (1 ≤ s.ncodes.toNat ∧ s.ncodes.toNat ≤ 256 ∧ 1 ≤ s.maxlen.toNat)
  /-- OUT_LEN is at most OUT_CAP (R37). -/
  outLenCap : s.outLen.toNat ≤ s.params.outCap
  /-- The bit counts never pass 8 x 65536 (R10). -/
  bitCounts : s.outBits.toNat + s.decTail.toNat ≤ 8 * 65536

/-! ## The tree an arena holds -/

/-- A Huffman tree: "a tagged variant Leaf(Symbol) | Internal(left, right)" (R11, R103). -/
inductive HuffmanTree where
  | leaf (y : Byte)
  | node (l r : HuffmanTree)
  deriving DecidableEq, Repr

/-- The arena of `m` holds the tree `t` at index `i` (R103, R104). -/
def HuffmanTree.Represents (m : Memory) : HuffmanTree → NodeIdx → Prop
  | .leaf y, i => isLeaf (Machine.node m i) = true ∧ nodeSym (Machine.node m i) = y
  | .node l r, i =>
    isInt (Machine.node m i) = true ∧ l.Represents m (nodeLeft (Machine.node m i)) ∧
      r.Represents m (nodeRight (Machine.node m i))

/-- Each leaf's symbol with its path from the root, 0 for a left child and 1 for a right one, root end first
(R150), in preorder. -/
def HuffmanTree.leaves : HuffmanTree → List (Byte × List Bool)
  | .leaf y => [(y, [])]
  | .node l r => l.leaves.map (fun x => (x.1, false :: x.2)) ++ r.leaves.map (fun x => (x.1, true :: x.2))

/-- The symbols of the leaves, in preorder. -/
def HuffmanTree.symbols (t : HuffmanTree) : List Byte := t.leaves.map Prod.fst

/-- The depth of the deepest leaf; the root has depth 0 (R150). -/
def HuffmanTree.depth : HuffmanTree → Nat
  | .leaf _ => 0
  | .node l r => max l.depth r.depth + 1

/-- The code table of a tree: each leaf's path (R150), and the one-bit code "0" for a lone leaf (R151). -/
def HuffmanTree.codes : HuffmanTree → List (Byte × List Bool)
  | .leaf y => [(y, [false])]
  | .node l r => (HuffmanTree.node l r).leaves

/-- What a tree makes of a bit string (R190): the symbols emitted in order and the count of bits after the last one,
or none when a lone leaf meets a 1 bit. `cur` is the subtree at the cursor, `tail` the count of bits since the
cursor was last at the root. -/
def HuffmanTree.decodeFrom (root : HuffmanTree) : HuffmanTree → Nat → List Bool → Option (List Byte × Nat)
  | _, tail, [] => some ([], tail)
  | .leaf y, _, b :: bs =>
    if b then none else (HuffmanTree.decodeFrom root (.leaf y) 0 bs).map (fun r => (y :: r.1, r.2))
  | .node l r, tail, b :: bs =>
    match (if b then r else l) with
    | .leaf y => (HuffmanTree.decodeFrom root root 0 bs).map (fun r => (y :: r.1, r.2))
    | .node l' r' => HuffmanTree.decodeFrom root (.node l' r') (tail + 1) bs

/-- What a tree makes of a bit string from the root on (R191). -/
def HuffmanTree.decode (t : HuffmanTree) (bs : List Bool) : Option (List Byte × Nat) := t.decodeFrom t 0 bs

/-! ## Arenas that hold no tree

`nd` is the arena as a function of the index. -/

/-- The first `k` visits of a preorder traversal, left before right, of the arena from a stack of indices with their
depths (R152). A word that is not INTERNAL has no children here. -/
def visits (nd : NodeIdx → Word) : Nat → List (NodeIdx × Nat) → List (NodeIdx × Nat)
  | 0, _ => []
  | _ + 1, [] => []
  | k + 1, v :: st =>
    v :: visits nd k
      (if isInt (nd v.1) then (nodeLeft (nd v.1), v.2 + 1) :: (nodeRight (nd v.1), v.2 + 1) :: st else st)

/-- The symbols of the leaves among some visits, in order. -/
def leafSymbols (nd : NodeIdx → Word) (vs : List (NodeIdx × Nat)) : List Byte :=
  (vs.filter (fun v => isLeaf (nd v.1))).map (fun v => nodeSym (nd v.1))

/-- No visit meets an error of R152: none is deeper than 255, each finds a node, and no symbol comes twice. -/
def CleanVisits (nd : NodeIdx → Word) (vs : List (NodeIdx × Nat)) : Prop :=
  (∀ v ∈ vs, v.2 ≤ 255 ∧ (isLeaf (nd v.1) = true ∨ isInt (nd v.1) = true)) ∧ (leafSymbols nd vs).Nodup

/-- What any arena makes of a bit string from a cursor on (R190): the symbols emitted in order, the cursor and the tail
after the last bit; none when a bit meets a word that is no node, or a 1 bit a lone leaf. -/
def arenaDecode (nd : NodeIdx → Word) (root : NodeIdx) : NodeIdx → Nat → List Bool → Option (List Byte × NodeIdx × Nat)
  | cur, tail, [] => some ([], cur, tail)
  | cur, tail, b :: bs =>
    let c := if b then nodeRight (nd cur) else nodeLeft (nd cur)
    if isLeaf (nd cur) then
      if b then none else (arenaDecode nd root root 0 bs).map (fun r => (nodeSym (nd cur) :: r.1, r.2))
    else if isInt (nd cur) then
      if isLeaf (nd c) then (arenaDecode nd root root 0 bs).map (fun r => (nodeSym (nd c) :: r.1, r.2))
      else if isInt (nd c) then arenaDecode nd root c (tail + 1) bs
      else none
    else none

/-! ## Inputs and outputs of ENCODE and DECODE -/

/-- The first n bytes of IN_BUF. -/
def inBytes (p : Params) (m : Memory) (n : Nat) : List Byte := (List.range n).map (inByte p m)

/-- The first n bits of the BitStream in IN_BUF (R9). -/
def inBits (p : Params) (m : Memory) (n : Nat) : List Bool := (List.range n).map (inBit p m)

/-- The first n bytes of OUT_BUF. -/
def outBytes (p : Params) (m : Memory) (n : Nat) : List Byte := (List.range n).map (outByte p m)

/-- `t` is `s` after a DECODE or DECODE.ALL of `n` bits that emitted `out` and dropped `tail` bits (R191): the symbols in
OUT_BUF, OUT_LEN their number, OUT_BITS and DEC_TAIL, and nothing else changed but SEQ and DONE. -/
structure Decoded (s t : State) (n : Nat) (out : List Byte) (tail : Nat) : Prop where
  frame : t = { s with
    seq := .idle, done := true, mem := t.mem
    outLen := t.outLen, outBits := t.outBits, decTail := t.decTail }
  outLen : t.outLen.toNat = out.length
  outBits : t.outBits.toNat = n - tail
  decTail : t.decTail.toNat = tail
  symbols : outBytes s.params t.mem out.length = out
  bytes : ∀ a, ¬ (0x20000 ≤ a ∧ a < 0x20000 + out.length) → readByte t.mem a = readByte s.mem a

/-- The BitStream a byte sequence encodes to: "concatenation of each byte's code, in input order" (R106, R172). -/
def bitStream (m : Memory) (bs : List Byte) : List Bool := bs.flatMap (codeOf m)

/-- Byte k of a BitStream packed MSB first, zero-padded on the right (R9). -/
def packedByte (bits : List Bool) (k : Nat) : Byte :=
  BitVec.ofBool (bits.getD (8 * k) false) ++ (BitVec.ofBool (bits.getD (8 * k + 1) false) ++
    (BitVec.ofBool (bits.getD (8 * k + 2) false) ++ (BitVec.ofBool (bits.getD (8 * k + 3) false) ++
      (BitVec.ofBool (bits.getD (8 * k + 4) false) ++ (BitVec.ofBool (bits.getD (8 * k + 5) false) ++
        (BitVec.ofBool (bits.getD (8 * k + 6) false) ++ BitVec.ofBool (bits.getD (8 * k + 7) false)))))))

/-! ## Weights of the merge -/

/-- The weight of the node at index `i` of an arena: FREQ of a leaf's symbol, the sum of an internal node's children
(R13). `fuel` bounds the depth; children of a built node have lower indices, so `i + 1` is enough. -/
def arenaWeight (m : Memory) : Nat → NodeIdx → Nat
  | 0, _ => 0
  | k + 1, i =>
    if isInt (node m i) then
      arenaWeight m k (nodeLeft (node m i)) + arenaWeight m k (nodeRight (node m i))
    else (freq m (nodeSym (node m i))).toNat

/-- The least-pair order of R130: weight first, then index. -/
def pairLt (w i w' i' : Nat) : Prop := w < w' ∨ (w = w' ∧ i < i')

/-- `j` is a child of the internal node at index `i`. -/
def childOf (m : Memory) (j i : NodeIdx) : Prop :=
  isInt (node m i) = true ∧ (nodeLeft (node m i) = j ∨ nodeRight (node m i) = j)

/-! ## The write sets of R78, word by word -/

/-- Word `n` of the window (offset 4n) lies in the write set of the command word `c`, as the table of R78 lists
them. OUT_BUF ends at OUT_CAP (R52); a word with some byte below OUT_CAP counts (log entry 15). -/
def tableWriteSet (p : Params) (c : Word) (n : Nat) : Prop :=
  (c = 0x001 ∧ 0x400 ≤ 4 * n ∧ 4 * n < 0x800) ∨
  ((c = 0x002 ∨ c = 0x006) ∧ ((0x800 ≤ 4 * n ∧ 4 * n < 0x1000) ∨ 4 * n = 0x34 ∨ 4 * n = 0x38 ∨ 4 * n = 0x3C)) ∨
  ((c = 0x003 ∨ c = 0x007) ∧
    ((0x1000 ≤ 4 * n ∧ 4 * n < 0x1400) ∨ (0x2000 ≤ 4 * n ∧ 4 * n < 0x4000) ∨ 4 * n = 0x40 ∨ 4 * n = 0x44)) ∨
  ((c = 0x004 ∨ c = 0x005 ∨ c = 0x105) ∧
    ((0x20000 ≤ 4 * n ∧ 4 * n < 0x20000 + p.outCap) ∨ 4 * n = 0x28 ∨ 4 * n = 0x2C ∨ 4 * n = 0x30))

/-- The window offsets of the RAM bytes a command may write (R78, R107). -/
def ramWriteSet (p : Params) (i : Instr) (a : Nat) : Prop :=
  match i with
  | .nop => False
  | .clrFreq => 0x400 ≤ a ∧ a < 0x800
  | .buildTree | .clrTree => 0x800 ≤ a ∧ a < 0x1000
  | .genCodes | .clrCodes => (0x1000 ≤ a ∧ a < 0x1400) ∨ (0x2000 ≤ a ∧ a < 0x4000)
  | .encode | .decode | .decodeAll => 0x20000 ≤ a ∧ a < 0x20000 + p.outCap

end Sys2Proof.Machine
end

