-- ==== Sys2Proof/Certificates/Slice0/Obligations.lean ====
section
/-! DEFINITION. The statements for the provers, each from numbered rules of the spec. -/

open Sys2Proof Sys2Proof.Machine

/-! ## Encodings -/

/-- R109: the nine command words of the opcode map, written out, decode to their commands. -/
def Obligations.TableWordsDecode : Prop :=
  decode 0x00000000 = .ok .nop ∧ decode 0x00000001 = .ok .clrFreq ∧ decode 0x00000002 = .ok .buildTree ∧
  decode 0x00000003 = .ok .genCodes ∧ decode 0x00000004 = .ok .encode ∧ decode 0x00000005 = .ok .decode ∧
  decode 0x00000105 = .ok .decodeAll ∧ decode 0x00000006 = .ok .clrTree ∧ decode 0x00000007 = .ok .clrCodes

/-- R110: of all 2^32 words exactly the nine of R109 decode to a command, each to its own; every other word is
refused. -/
def Obligations.ExactlyNineWordsDecode : Prop :=
  ∀ c : Word,
    (decode c = .ok .nop ↔ c = 0x00000000) ∧ (decode c = .ok .clrFreq ↔ c = 0x00000001) ∧
    (decode c = .ok .buildTree ↔ c = 0x00000002) ∧ (decode c = .ok .genCodes ↔ c = 0x00000003) ∧
    (decode c = .ok .encode ↔ c = 0x00000004) ∧ (decode c = .ok .decode ↔ c = 0x00000005) ∧
    (decode c = .ok .decodeAll ↔ c = 0x00000105) ∧ (decode c = .ok .clrTree ↔ c = 0x00000006) ∧
    (decode c = .ok .clrCodes ↔ c = 0x00000007) ∧
    ((∃ e, decode c = .error e) ↔ c ∉ ([0, 1, 2, 3, 4, 5, 0x105, 6, 7] : List Word))

/-- Decode and encode agree, both ways: decoding the word of a command gives the command, and a word that decodes to
a command is that command's word. -/
def Obligations.DecodeEncodeAgree : Prop :=
  (∀ i : Instr, decode (encode i) = .ok i) ∧ ∀ (c : Word) (i : Instr), decode c = .ok i → encode i = c

/-- R103, R104: the canonical node words read back as what they were made from; the tag alone decides the kind,
by bits 31 and 30; only the fields the format names are read. -/
def Obligations.NodeWordFormat : Prop :=
  (∀ y, isLeaf (leafWord y) = true ∧ isInt (leafWord y) = false ∧ nodeSym (leafWord y) = y) ∧
  (∀ l r, isInt (internalWord l r) = true ∧ isLeaf (internalWord l r) = false ∧
    nodeLeft (internalWord l r) = l ∧ nodeRight (internalWord l r) = r) ∧
  (∀ w : Word, (isLeaf w = true ↔ w.toNat / 2 ^ 30 = 1) ∧ (isInt w = true ↔ w.toNat / 2 ^ 30 = 2) ∧
    (nodeSym w).toNat = w.toNat % 2 ^ 8 ∧ (nodeLeft w).toNat = w.toNat % 2 ^ 9 ∧
    (nodeRight w).toNat = w.toNat / 2 ^ 16 % 2 ^ 9)

/-! ## The step -/

/-- R34, R110: when the core's turn has come (BUSY, and the chosen number of host statements has passed or none is
left) and the latched word decodes to a command, the step is that command's meaning; at any other time the step is
the host's, and a step whose latched word was just placed by `withFetchWord` runs it. -/
def Obligations.StepRunsLatchedCommand : Prop :=
  (∀ (s : State) (i : Instr), s.seq = .busy → (s.delay = 0 ∨ s.host = []) → decode s.cmd = .ok i →
    step s = exec i s) ∧
  (∀ s : State, s.seq = .idle ∨ (s.delay ≠ 0 ∧ s.host ≠ []) → step s = .next (hostTurn s)) ∧
  (∀ (s : State) (w : Nat) (i : Instr), decode (BitVec.ofNat 32 w) = .ok i →
    step (s.withFetchWord 32 w) = exec i (s.withFetchWord 32 w))

/-- R220: an illegal word completes with ILLEGAL_CMD, ERR_INFO the whole word and ERR_POS 0, and nothing else
changes but SEQ and DONE. -/
def Obligations.IllegalWordCompletes : Prop :=
  ∀ s : State, s.seq = .busy → (s.delay = 0 ∨ s.host = []) →
    s.cmd ∉ ([0, 1, 2, 3, 4, 5, 0x105, 6, 7] : List Word) →
    step s = .next
      { s with seq := .idle, done := true, errCode := .illegalCmd, errInfo := s.cmd, errPos := 0 }

/-- R257: with SEQ = IDLE and no host access, nothing happens. -/
def Obligations.IdleKeepsState : Prop :=
  ∀ s : State, s.seq = .idle → s.host = [] → step s = .next s

/-- Every step answers a next state, and every accepted command ends after at most the chosen number of host
statements: SEQ is IDLE again after at most delay + 1 steps. The number is the environment's choice (log entry 5). -/
def Obligations.EveryCommandEnds : Prop :=
  (∀ s : State, ∃ t, step s = .next t) ∧
  ∀ s : State, s.seq = .busy →
    ∃ k t, k ≤ s.delay + 1 ∧ Host.Core.run Sys2Proof.core k s = .next t ∧ t.seq = .idle

/-- R32: SEQ goes from IDLE to BUSY only by an accepted CMD write, and from BUSY to IDLE only by completion or by
a soft reset; it is IDLE after reset; STATUS.BUSY reads 1 exactly when SEQ is BUSY. -/
def Obligations.SeqTransitions : Prop :=
  (∀ s t : State, step s = .next t → s.seq = .idle → t.seq = .busy →
    ∃ a v rest off, s.host = .access (.write a v) :: rest ∧ offsetOf? s.params a = some off ∧ off.toNat / 4 = 3 ∧
      t.cmd = v) ∧
  (∀ s t : State, step s = .next t → s.seq = .busy → t.seq = .idle →
    (s.delay = 0 ∨ s.host = []) ∨
    ∃ a v rest off, s.host = .access (.write a v) :: rest ∧ offsetOf? s.params a = some off ∧ off.toNat / 4 = 2 ∧
      v.getLsbD 31 = true) ∧
  (∀ p ram, (State.powerOn p ram).seq = .idle) ∧
  (∀ s : State, (memRead s 0x00010).getLsbD 0 = true ↔ s.seq = .busy)

/-- R240: every step answers a next state, and a host access never records an error: it leaves the three error
registers alone, or clears them (acceptance, soft reset). -/
def Obligations.HostAccessRaisesNoError : Prop :=
  ∀ s : State, ∃ t, step s = .next t ∧
    (s.seq = .idle ∨ (s.delay ≠ 0 ∧ s.host ≠ []) →
      (t.errCode = s.errCode ∧ t.errInfo = s.errInfo ∧ t.errPos = s.errPos) ∨
      (t.errCode = .none ∧ t.errInfo = 0 ∧ t.errPos = 0))

/-! ## The host's accesses -/

/-- R33: a write to CMD while IDLE latches the whole word, legal or not, clears DONE and the error registers and
makes SEQ BUSY, and touches no RAM; while BUSY it only sets CMD_OVERRUN. Which offset in the word is addressed
makes no difference. -/
def Obligations.CmdWriteIsAcceptance : Prop :=
  ∀ (s : State) (v : Word) (off : Offset), off.toNat / 4 = 3 →
    (s.seq = .busy → memWrite off v s = { s with cmdOverrun := true }) ∧
    (s.seq = .idle → ∃ d sch, memWrite off v s =
      { s with
        cmd := v, done := false, errCode := .none, errInfo := 0, errPos := 0, seq := .busy
        delay := d, schedule := sch })

/-- R27: how STATUS reads at every moment; what a write to it clears; that every completion, of a command and of an
illegal word, sets DONE and clears BUSY; that acceptance clears DONE; which dropped writes set the sticky bits; and that
it reads 0 after a soft reset and after power-on. -/
def Obligations.StatusRegister : Prop :=
  (∀ s : State,
    ((memRead s 0x00010).getLsbD 0 = true ↔ s.seq = .busy) ∧ (memRead s 0x00010).getLsbD 1 = s.done ∧
    ((memRead s 0x00010).getLsbD 2 = true ↔ s.errCode ≠ .none) ∧
    (memRead s 0x00010).getLsbD 3 = s.wrWhileBusy ∧ (memRead s 0x00010).getLsbD 4 = s.cmdOverrun ∧
    (memRead s 0x00010).toNat < 32) ∧
  (∀ (s : State) (v : Word) (off : Offset), off.toNat / 4 = 4 → memWrite off v s =
    { s with
      done := s.done && !v.getLsbD 1
      wrWhileBusy := s.wrWhileBusy && !v.getLsbD 3
      cmdOverrun := s.cmdOverrun && !v.getLsbD 4 }) ∧
  (∀ (i : Instr) (s : State), ∃ t, exec i s = .next t ∧ t.done = true ∧ t.seq = .idle) ∧
  (∀ (s : State) (v : Word), s.seq = .idle → (memWrite 0x0000C v s).done = false) ∧
  (∀ (s : State) (v : Word) (off : Offset), s.seq = .busy →
    (memWrite 0x0000C v s).cmdOverrun = true ∧
    (off.toNat / 4 ∉ [2, 3, 4] → (memWrite off v s).wrWhileBusy = true)) ∧
  (∀ s t : State, s.seq = .busy → (s.delay = 0 ∨ s.host = []) → step s = .next t → t.done = true ∧ t.seq = .idle) ∧
  (∀ (s : State) (v : Word), v.getLsbD 31 = true → memRead (memWrite 0x00008 v s) 0x00010 = 0) ∧
  (∀ (p : Params) (ram : Memory), memRead (State.powerOn p ram) 0x00010 = 0)

/-- R76: while BUSY, a write to CMD sets CMD_OVERRUN, a write to CTRL and a write to STATUS take effect (a CTRL write
with bit 31 = 1 resets the block), and every other write, to whatever word of the window, only sets WR_WHILE_BUSY. -/
def Obligations.WritesWhileBusy : Prop :=
  ∀ (s : State) (v : Word) (off : Offset), s.seq = .busy →
    (off.toNat / 4 = 3 → memWrite off v s = { s with cmdOverrun := true }) ∧
    (off.toNat / 4 = 2 → v.getLsbD 31 = false → memWrite off v s = { s with irqEn := v.getLsbD 0 }) ∧
    (off.toNat / 4 = 2 → v.getLsbD 31 = true → ∃ mem n, memWrite off v s =
      { State.powerOn s.params mem with
        host := s.host, hostLog := s.hostLog, schedule := s.schedule, draws := n }) ∧
    (off.toNat / 4 = 4 → memWrite off v s =
      { s with
        done := s.done && !v.getLsbD 1
        wrWhileBusy := s.wrWhileBusy && !v.getLsbD 3
        cmdOverrun := s.cmdOverrun && !v.getLsbD 4 }) ∧
    (off.toNat / 4 ∉ [2, 3, 4] → memWrite off v s = { s with wrWhileBusy := true })

/-- R79: the reserved ranges read 0 in every state and ignore writes, except that a write while BUSY sets
WR_WHILE_BUSY. -/
def Obligations.ReservedOffsets : Prop :=
  ∀ (s : State) (v : Word) (off : Offset),
    (0x00050 ≤ off.toNat ∧ off.toNat ≤ 0x003FF) ∨ (0x01400 ≤ off.toNat ∧ off.toNat ≤ 0x01FFF) ∨
      (0x04000 ≤ off.toNat ∧ off.toNat ≤ 0x0FFFF) ∨ (0x30000 ≤ off.toNat ∧ off.toNat ≤ 0x3FFFF) →
    memRead s off = 0 ∧ (s.seq = .idle → memWrite off v s = s) ∧
      (s.seq = .busy → memWrite off v s = { s with wrWhileBusy := true })

/-- R72, with R71: while IDLE, what was written to a RAM word, ROOT, IN_LEN, DEC_NBITS or IRQ_EN reads back, with the
bits that are not stored reading 0. In the IN_BUF window a byte at or above IN_CAP reads 0. -/
def Obligations.WrittenWordReadsBack : Prop :=
  ∀ (s : State) (v : Word) (off : Offset), s.seq = .idle →
    (0x00400 ≤ off.toNat ∧ off.toNat < 0x00800 → memRead (memWrite off v s) off = v) ∧
    (0x00800 ≤ off.toNat ∧ off.toNat < 0x01000 → memRead (memWrite off v s) off = v) ∧
    (0x01000 ≤ off.toNat ∧ off.toNat < 0x01400 → memRead (memWrite off v s) off = v &&& 0xFF) ∧
    (0x02000 ≤ off.toNat ∧ off.toNat < 0x04000 → memRead (memWrite off v s) off = v) ∧
    (0x10000 ≤ off.toNat ∧ off.toNat < 0x20000 → ∀ i, i < 32 →
      (memRead (memWrite off v s) off).getLsbD i =
        (v.getLsbD i && decide (4 * (off.toNat / 4) - 0x10000 + i / 8 < s.params.inCap))) ∧
    (off.toNat / 4 = 0x34 / 4 → memRead (memWrite off v s) off = v &&& 0x800001FF) ∧
    (off.toNat / 4 = 0x20 / 4 → memRead (memWrite off v s) off = v &&& 0x0001FFFF) ∧
    (off.toNat / 4 = 0x24 / 4 → memRead (memWrite off v s) off = v) ∧
    (off.toNat / 4 = 0x08 / 4 → v.getLsbD 31 = false → memRead (memWrite off v s) off = v &&& 1)

/-- R71, R21: what the host reads at every offset, bits [1:0] of the offset ignored, while IDLE, and while BUSY outside
the write set: each register's value with its reserved bits 0, the constants, the bits of STATUS and the error codes as
R241 numbers them; FREQ[s], NODE[i], CODE_LEN[s], word k of CODE_VAL[s], and the bytes of IN_BUF and OUT_BUF in their
lanes, at the offsets of the address map; and 0 in the reserved ranges. -/
def Obligations.WordsReadTheirState : Prop :=
  ∀ (s : State) (off : Offset), (s.seq = .busy → ¬ tableWriteSet s.params s.cmd (off.toNat / 4)) →
    (off.toNat / 4 = 0x00 / 4 → memRead s off = 0x48554631) ∧
    (off.toNat / 4 = 0x04 / 4 → memRead s off = 0x00010000) ∧
    (off.toNat / 4 = 0x08 / 4 → (memRead s off).toNat = s.irqEn.toNat) ∧
    (off.toNat / 4 = 0x0C / 4 → memRead s off = s.cmd) ∧
    (off.toNat / 4 = 0x10 / 4 →
      ((memRead s off).getLsbD 0 = true ↔ s.seq = .busy) ∧ (memRead s off).getLsbD 1 = s.done ∧
      ((memRead s off).getLsbD 2 = true ↔ s.errCode ≠ .none) ∧ (memRead s off).getLsbD 3 = s.wrWhileBusy ∧
      (memRead s off).getLsbD 4 = s.cmdOverrun ∧ (memRead s off).toNat < 32) ∧
    (off.toNat / 4 = 0x14 / 4 →
      (s.errCode = .none → memRead s off = 0) ∧ (s.errCode = .emptyInput → memRead s off = 1) ∧
      (s.errCode = .unknownSymbol → memRead s off = 2) ∧ (s.errCode = .invalidTree → memRead s off = 3) ∧
      (s.errCode = .outOverflow → memRead s off = 4) ∧ (s.errCode = .illegalCmd → memRead s off = 5) ∧
      (s.errCode = .paramRange → memRead s off = 6)) ∧
    (off.toNat / 4 = 0x18 / 4 → memRead s off = s.errInfo) ∧
    (off.toNat / 4 = 0x1C / 4 → memRead s off = s.errPos) ∧
    (off.toNat / 4 = 0x20 / 4 → (memRead s off).toNat = s.inLen.toNat) ∧
    (off.toNat / 4 = 0x24 / 4 → memRead s off = s.decNbits) ∧
    (off.toNat / 4 = 0x28 / 4 → (memRead s off).toNat = s.outLen.toNat) ∧
    (off.toNat / 4 = 0x2C / 4 → memRead s off = s.outBits) ∧
    (off.toNat / 4 = 0x30 / 4 → memRead s off = s.decTail) ∧
    (off.toNat / 4 = 0x34 / 4 → (memRead s off).toNat = s.rootValid.toNat * 2 ^ 31 + s.rootIdx.toNat) ∧
    (off.toNat / 4 = 0x38 / 4 → (memRead s off).toNat = s.nleaf.toNat) ∧
    (off.toNat / 4 = 0x3C / 4 → (memRead s off).toNat = s.nnode.toNat) ∧
    (off.toNat / 4 = 0x40 / 4 → (memRead s off).toNat = s.ncodes.toNat) ∧
    (off.toNat / 4 = 0x44 / 4 → (memRead s off).toNat = s.maxlen.toNat) ∧
    (off.toNat / 4 = 0x48 / 4 → (memRead s off).toNat = s.params.inCap) ∧
    (off.toNat / 4 = 0x4C / 4 → (memRead s off).toNat = s.params.outCap) ∧
    (∀ y : Byte, off.toNat / 4 = (0x00400 + 4 * y.toNat) / 4 → memRead s off = freq s.mem y) ∧
    (∀ i : NodeIdx, off.toNat / 4 = (0x00800 + 4 * i.toNat) / 4 → memRead s off = node s.mem i) ∧
    (∀ y : Byte, off.toNat / 4 = (0x01000 + 4 * y.toNat) / 4 → (memRead s off).toNat = (codeLen s.mem y).toNat) ∧
    (∀ (y : Byte) (k : Nat), k < 8 → off.toNat / 4 = (0x02000 + 32 * y.toNat + 4 * k) / 4 →
      memRead s off = (codeVal s.mem y).extractLsb' (32 * k) 32) ∧
    (∀ k j, k < 0x4000 → j < 4 → off.toNat / 4 = (0x10000 + 4 * k) / 4 →
      (memRead s off).extractLsb' (8 * j) 8 = inByte s.params s.mem (4 * k + j)) ∧
    (∀ k j, k < 0x4000 → j < 4 → off.toNat / 4 = (0x20000 + 4 * k) / 4 →
      (memRead s off).extractLsb' (8 * j) 8 = outByte s.params s.mem (4 * k + j)) ∧
    ((0x00050 ≤ off.toNat ∧ off.toNat ≤ 0x003FF) ∨ (0x01400 ≤ off.toNat ∧ off.toNat ≤ 0x01FFF) ∨
      (0x04000 ≤ off.toNat ∧ off.toNat ≤ 0x0FFFF) ∨ (0x30000 ≤ off.toNat ∧ off.toNat ≤ 0x3FFFF) → memRead s off = 0)

/-- R72: a host write changes no other word of the window, whatever word it goes to (CMD and a soft reset apart), and
a write to a read-only register, to the OUT_BUF window or to a reserved offset changes nothing at all. -/
def Obligations.WriteChangesOnlyItsWord : Prop :=
  ∀ (s : State) (v : Word) (off off' : Offset), s.seq = .idle →
    (off.toNat / 4 ≠ 3 → (off.toNat / 4 = 2 → v.getLsbD 31 = false) → off'.toNat / 4 ≠ off.toNat / 4 →
      memRead (memWrite off v s) off' = memRead s off') ∧
    ((off.toNat / 4 ∈ [0, 1, 5, 6, 7, 10, 11, 12, 14, 15, 16, 17, 18, 19] ∨
        (0x20000 ≤ off.toNat ∧ off.toNat < 0x30000) ∨
        (0x00050 ≤ off.toNat ∧ off.toNat < 0x00400) ∨ (0x01400 ≤ off.toNat ∧ off.toNat < 0x02000) ∨
        (0x04000 ≤ off.toNat ∧ off.toNat < 0x10000) ∨ 0x30000 ≤ off.toNat) → memWrite off v s = s)

/-- R77: a read changes no state of the block (only the host's log, and the model's count of draws), and a repeated
write of one value to one word other than CMD leaves the same state as one write. -/
def Obligations.ReadsAndRepeatedWritesAreIdempotent : Prop :=
  (∀ (s : State) (off : Offset), ∃ v n, hostRead off s = { s with hostLog := v :: s.hostLog, draws := n }) ∧
  (∀ (s : State) (v : Word) (off : Offset), Memory.wf s.mem = true → off.toNat / 4 ≠ 3 →
    (off.toNat / 4 = 2 → v.getLsbD 31 = false) →
    memWrite off v (memWrite off v s) = memWrite off v s)

/-- R78: while BUSY, a read of a word outside the write set of the running command returns its stored value, which is
what it reads while IDLE, and in a state that meets the invariant the error registers read 0; a word of the OUT_BUF
window with no byte below OUT_CAP is no part of OUT_BUF and reads 0 whatever runs; a read of a word inside the write set
returns a free value, a fresh one for each read (log entry 3; for a word that OUT_CAP cuts, log entry 15). -/
def Obligations.ReadsWhileBusy : Prop :=
  ∀ (s : State) (off : Offset), s.seq = .busy →
    (¬ tableWriteSet s.params s.cmd (off.toNat / 4) → off.toNat / 4 ≠ 4 →
      memRead s off = memRead { s with seq := .idle } off) ∧
    (tableWriteSet s.params s.cmd (off.toNat / 4) →
      memRead s off = Config.freeWord s.draws ∧ (hostRead off s).draws = s.draws + 1) ∧
    (0x20000 + s.params.outCap ≤ 4 * (off.toNat / 4) → off.toNat < 0x30000 → memRead s off = 0) ∧
    (Inv s → memRead s 0x00014 = 0 ∧ memRead s 0x00018 = 0 ∧ memRead s 0x0001C = 0)

/-- R23, R24, R45, R46: the constants read their values in every state, and no step changes them. -/
def Obligations.ConstantRegisters : Prop :=
  (∀ s : State, memRead s 0x00000 = 0x48554631 ∧ memRead s 0x00004 = 0x00010000 ∧
    (memRead s 0x00048).toNat = s.params.inCap ∧ (memRead s 0x0004C).toNat = s.params.outCap ∧
    1 ≤ s.params.inCap ∧ s.params.inCap ≤ 65536 ∧ 1 ≤ s.params.outCap ∧ s.params.outCap ≤ 65536) ∧
  (∀ s t : State, step s = .next t → t.params = s.params)

/-- R250, R251: IRQ is CTRL bit 0 and STATUS bit 1 as they read; every completion, of a success, a failure or an illegal
word, raises it when IRQ_EN is set, and nothing but a completion sets DONE; acceptance, a W1C of STATUS bit 1 and either
reset lower it; masking leaves DONE set, and enabling while DONE = 1 raises it at once. -/
def Obligations.InterruptOutput : Prop :=
  (∀ s : State, s.irq = ((memRead s 0x00008).getLsbD 0 && (memRead s 0x00010).getLsbD 1)) ∧
  (∀ (i : Instr) (s : State), ∃ t, exec i s = .next t ∧ t.irq = s.irqEn) ∧
  (∀ s t : State, s.seq = .busy → (s.delay = 0 ∨ s.host = []) → step s = .next t → t.irq = s.irqEn) ∧
  (∀ s t : State, step s = .next t → s.done = false → t.done = true → s.seq = .busy ∧ (s.delay = 0 ∨ s.host = [])) ∧
  (∀ (p : Params) (ram : Memory), (State.powerOn p ram).irq = false) ∧
  (∀ (s : State) (v : Word), s.seq = .idle → (memWrite 0x0000C v s).irq = false) ∧
  (∀ (s : State) (v : Word), v.getLsbD 1 = true → (memWrite 0x00010 v s).irq = false) ∧
  (∀ (s : State) (v : Word), v.getLsbD 31 = true → (memWrite 0x00008 v s).irq = false) ∧
  (∀ s : State, (memWrite 0x00008 0 s).irq = false ∧ (memWrite 0x00008 0 s).done = s.done ∧
    (memWrite 0x00008 1 s).irq = s.done)

/-- R121: WAIT reads STATUS once in a step of the host, the value going to the log; it stays while bit 0 of the value
is 1 and ends when it is 0. -/
def Obligations.WaitPollsStatus : Prop :=
  ∀ (s : State) (rest : List HostStmt), s.host = .wait :: rest →
    (s.seq = .idle → step s = .next { s with host := rest, hostLog := memRead s 0x00010 :: s.hostLog, delay := s.delay - 1 }) ∧
    (s.seq = .busy → s.delay ≠ 0 →
      step s = .next { s with hostLog := memRead s 0x00010 :: s.hostLog, delay := s.delay - 1 })

/-- R120, R70, R5: the host reaches offset `off` of the block at bus address BASE + off, BASE being aligned to 0x40000.
That an address outside the window does not select the block is the model's own reading (log entry 6). -/
def Obligations.BusAddressIsBasePlusOffset : Prop :=
  (∀ p : Params, p.base % 0x40000 = 0) ∧
  (∀ (s : State) (off : Offset) (v : Word),
    busAccess (.write (s.params.base + off.toNat) v) s = memWrite off v s ∧
    busAccess (.read (s.params.base + off.toNat)) s = hostRead off s) ∧
  (∀ (s : State) (a : Nat) (v : Word), a < s.params.base ∨ s.params.base + 0x40000 ≤ a →
    busAccess (.write a v) s = s ∧ busAccess (.read a) s = s)

/-- R121, R51, R74: the word writes that `WRB 0x10000, b0 b1 ... bn-1` stands for, run while IDLE, leave IN_BUF[j] = bj
for every j < n, in the byte lanes of R74, and change no byte outside the words they write. -/
def Obligations.WrbLoadsInBuf : Prop :=
  ∀ (s : State) (bs : List Byte), s.seq = .idle → bs.length ≤ s.params.inCap →
    ∃ t, Host.Core.run Sys2Proof.core (progWRB s.params 0x10000 bs).length
        { s with host := progWRB s.params 0x10000 bs } = .next t ∧
      t.host = [] ∧ t = { s with host := [], mem := t.mem, delay := t.delay } ∧
      inBytes s.params t.mem bs.length = bs ∧
      (∀ a, ¬ (0x10000 ≤ a ∧ a < 0x10000 + 4 * ((bs.length + 3) / 4)) → readByte t.mem a = readByte s.mem a)

/-! ## Reset -/

/-- R270: what every register reads after power-on reset, for every parameter and every contents of the RAMs; the
RAMs read as those contents; IRQ is low. -/
def Obligations.PowerOnReset : Prop :=
  ∀ (p : Params) (ram : Memory),
    (State.powerOn p ram).seq = .idle ∧ (State.powerOn p ram).irq = false ∧
    memRead (State.powerOn p ram) 0x00000 = 0x48554631 ∧ memRead (State.powerOn p ram) 0x00004 = 0x00010000 ∧
    (memRead (State.powerOn p ram) 0x00048).toNat = p.inCap ∧ (memRead (State.powerOn p ram) 0x0004C).toNat = p.outCap ∧
    (∀ off : Offset, 0x00008 ≤ off.toNat → off.toNat < 0x00048 → memRead (State.powerOn p ram) off = 0) ∧
    (State.powerOn p ram).mem = ram

/-- R271: a CTRL write with bit 31 = 1, in any state and whatever the other bits are: every register takes its reset
value; the RAMs keep every byte outside the write set of an abandoned command, and every byte when IDLE. -/
def Obligations.SoftReset : Prop :=
  ∀ (s : State) (v : Word) (off : Offset), off.toNat / 4 = 2 → v.getLsbD 31 = true →
    ∃ mem n, memWrite off v s =
        { State.powerOn s.params mem with
          host := s.host, hostLog := s.hostLog, schedule := s.schedule, draws := n } ∧
      (s.seq = .idle → mem = s.mem) ∧
      (s.seq = .busy → ∀ a, ¬ tableWriteSet s.params s.cmd (a / 4) → readByte mem a = readByte s.mem a)

/-- The invariant holds after power-on reset, for every parameter and every contents of the RAMs in canonical form,
and the model's reset state, the default capacities of R5 with BASE 0 and every RAM byte 0 (the model's choices, log
entries 1 and 2), is one of those states and meets it. -/
def Obligations.InvAtReset : Prop :=
  (∀ (p : Params) (ram : Memory), Memory.wf ram = true → Memory.resides p ram = true → Inv (State.powerOn p ram)) ∧
  State.reset = State.powerOn Params.default [] ∧ Inv State.reset

/-- Every step keeps the invariant: memory's canonical form, no byte where no RAM is, DONE and the error registers
clear while BUSY, and the ranges of the counts. -/
def Obligations.StepKeepsInv : Prop :=
  ∀ s t : State, Inv s → step s = .next t → Inv t

/-! ## Which command changes what -/

/-- R107: a command changes only the registers and RAM bytes of its write set, the error registers through `raise`,
and SEQ and DONE by its completion; every other register, every other byte of memory, the host and the parameters
are kept. -/
def Obligations.CommandFrame : Prop :=
  ∀ (i : Instr) (s t : State), exec i s = .next t →
    t = { s with
          seq := .idle, done := true
          errCode := t.errCode, errInfo := t.errInfo, errPos := t.errPos
          outLen := t.outLen, outBits := t.outBits, decTail := t.decTail
          rootValid := t.rootValid, rootIdx := t.rootIdx, nleaf := t.nleaf, nnode := t.nnode
          ncodes := t.ncodes, maxlen := t.maxlen
          mem := t.mem, draws := t.draws } ∧
    (i ∈ [.nop, .clrFreq, .clrTree, .clrCodes] →
      t.errCode = s.errCode ∧ t.errInfo = s.errInfo ∧ t.errPos = s.errPos) ∧
    (i ∉ [.encode, .decode, .decodeAll] →
      t.outLen = s.outLen ∧ t.outBits = s.outBits ∧ t.decTail = s.decTail ∧ t.draws = s.draws) ∧
    (i ∉ [.buildTree, .clrTree] →
      t.rootValid = s.rootValid ∧ t.rootIdx = s.rootIdx ∧ t.nleaf = s.nleaf ∧ t.nnode = s.nnode) ∧
    (i ∉ [.genCodes, .clrCodes] → t.ncodes = s.ncodes ∧ t.maxlen = s.maxlen) ∧
    (∀ a, ¬ ramWriteSet s.params i a → readByte t.mem a = readByte s.mem a)

/-- R87: no command reads OUT_BUF: from two states that differ only in the contents of OUT_BUF a command ends in
states that agree in every register, in every byte outside OUT_BUF and, when the command is ENCODE, DECODE or
DECODE.ALL, in the OUT_LEN output bytes. -/
def Obligations.CommandsIgnoreOutBuf : Prop :=
  ∀ (i : Instr) (s : State) (m : Memory),
    (∀ a, ¬ (0x20000 ≤ a ∧ a < 0x30000) → readByte m a = readByte s.mem a) →
    ∃ t u, exec i s = .next t ∧ exec i { s with mem := m } = .next u ∧ u = { t with mem := u.mem } ∧
      (∀ a, ¬ (0x20000 ≤ a ∧ a < 0x30000) → readByte u.mem a = readByte t.mem a) ∧
      (i ∈ [.encode, .decode, .decodeAll] →
        outBytes u.params u.mem u.outLen.toNat = outBytes t.params t.mem t.outLen.toNat)

/-- R41 to R44: NLEAF and NNODE change only in a completion of BUILD_TREE or CLR_TREE or by a soft reset, and NCODES
and MAXLEN only in a completion of GEN_CODES or CLR_CODES or by a soft reset. -/
def Obligations.CountsWrittenOnlyBy : Prop :=
  ∀ s t : State, step s = .next t →
    (t.nleaf ≠ s.nleaf ∨ t.nnode ≠ s.nnode →
      (s.seq = .busy ∧ (s.delay = 0 ∨ s.host = []) ∧ s.cmd ∈ ([0x2, 0x6] : List Word)) ∨
      ∃ a v rest off, s.host = .access (.write a v) :: rest ∧ offsetOf? s.params a = some off ∧ off.toNat / 4 = 2 ∧
        v.getLsbD 31 = true) ∧
    (t.ncodes ≠ s.ncodes ∨ t.maxlen ≠ s.maxlen →
      (s.seq = .busy ∧ (s.delay = 0 ∨ s.host = []) ∧ s.cmd ∈ ([0x3, 0x7] : List Word)) ∨
      ∃ a v rest off, s.host = .access (.write a v) :: rest ∧ offsetOf? s.params a = some off ∧ off.toNat / 4 = 2 ∧
        v.getLsbD 31 = true)

/-- R51: IN_BUF is written only by the host: a byte of its window changes in a step only when the host's next
statement writes the word that holds it. -/
def Obligations.InBufWrittenOnlyByHost : Prop :=
  ∀ (s t : State) (a : Nat), step s = .next t → 0x10000 ≤ a → a < 0x20000 →
    readByte t.mem a ≠ readByte s.mem a →
    ∃ addr v rest off, s.host = .access (.write addr v) :: rest ∧ offsetOf? s.params addr = some off ∧
      off.toNat / 4 = a / 4 ∧ s.seq = .idle

/-! ## NOP and the CLR commands -/

/-- R215: NOP completes and changes nothing but SEQ and DONE; run after an error it leaves the error registers clear
and STATUS = 0x00000002, because acceptance cleared them. -/
def Obligations.NopCompletes : Prop :=
  decode 0x00000000 = .ok .nop ∧
  (∀ s : State, exec .nop s = .next { s with seq := .idle, done := true }) ∧
  (∀ s : State, s.seq = .idle → s.wrWhileBusy = false → s.cmdOverrun = false →
    ∃ t, exec .nop (memWrite 0x0000C 0x00000000 s) = .next t ∧ memRead t 0x00010 = 0x00000002 ∧
      t.errCode = .none ∧ t.errInfo = 0 ∧ t.errPos = 0)

/-- R216: CLR_FREQ completes with every FREQ word 0 and changes no other byte and no other register; a BUILD_TREE
right after it records EMPTY_INPUT. -/
def Obligations.ClrFreqCompletes : Prop :=
  decode 0x00000001 = .ok .clrFreq ∧ ∀ s : State, ∃ t, exec .clrFreq s = .next t ∧ t = { s with seq := .idle, done := true, mem := t.mem } ∧
    (∀ y, freq t.mem y = 0) ∧
    (∀ a, ¬ (0x400 ≤ a ∧ a < 0x800) → readByte t.mem a = readByte s.mem a) ∧
    ∃ u, exec .buildTree t = .next u ∧ u.errCode = .emptyInput

/-- R218: CLR_TREE completes with every NODE word 0 and ROOT, NLEAF and NNODE 0, and changes no other byte and no
other register; right after it GEN_CODES records NO_ROOT, and DECODE does when its counts are in range. -/
def Obligations.ClrTreeCompletes : Prop :=
  decode 0x00000006 = .ok .clrTree ∧ ∀ s : State, ∃ t, exec .clrTree s = .next t ∧
    t = { s with
          seq := .idle, done := true, mem := t.mem
          rootValid := false, rootIdx := 0, nleaf := 0, nnode := 0 } ∧
    (∀ i, node t.mem i = 0) ∧
    (∀ a, ¬ (0x800 ≤ a ∧ a < 0x1000) → readByte t.mem a = readByte s.mem a) ∧
    (∃ u, exec .genCodes t = .next u ∧ u.errCode = .invalidTree ∧ u.errInfo = 0x01000000) ∧
    (s.inLen.toNat ≤ s.params.inCap → s.decNbits.toNat ≤ 8 * s.inLen.toNat →
      ∃ u, exec .decode t = .next u ∧ u.errCode = .invalidTree ∧ u.errInfo = 0x01000000)

/-- R219: CLR_CODES completes with every CODE_LEN and CODE_VAL 0 and NCODES = MAXLEN = 0, and changes no other byte
and no other register; ENCODE right after it fails with UNKNOWN_SYMBOL at byte 0 on any non-empty input, and
succeeds on the empty one. -/
def Obligations.ClrCodesCompletes : Prop :=
  decode 0x00000007 = .ok .clrCodes ∧ ∀ s : State, ∃ t, exec .clrCodes s = .next t ∧
    t = { s with seq := .idle, done := true, mem := t.mem, ncodes := 0, maxlen := 0 } ∧
    (∀ y, codeLen t.mem y = 0 ∧ codeVal t.mem y = 0) ∧
    (∀ a, ¬ ((0x1000 ≤ a ∧ a < 0x1400) ∨ (0x2000 ≤ a ∧ a < 0x4000)) → readByte t.mem a = readByte s.mem a) ∧
    ∃ u, exec .encode t = .next u ∧
      (s.inLen ≠ 0 → s.inLen.toNat ≤ s.params.inCap → u.errCode = .unknownSymbol ∧ u.errPos = 0) ∧
      (s.inLen = 0 → u.errCode = s.errCode ∧ u.outLen = 0 ∧ u.outBits = 0)

/-! ## BUILD_TREE -/

/-- R131: with no symbol present BUILD_TREE records EMPTY_INPUT and changes nothing else but SEQ and DONE. -/
def Obligations.BuildTreeEmptyInput : Prop :=
  ∀ s : State, (∀ y, freq s.mem y = 0) →
    exec .buildTree s = .next
      { s with seq := .idle, done := true, errCode := .emptyInput, errInfo := 0, errPos := 0 }

/-- R131: with n ≥ 1 symbols present BUILD_TREE completes: ROOT is valid and names 2n-2, NLEAF = n, NNODE = 2n-1,
NODE[i] for i < n is the canonical leaf of the i-th present symbol in ascending order, NODE[2n-1..511] are 0, and
nothing outside NODE, ROOT, NLEAF and NNODE changes but SEQ and DONE. -/
def Obligations.BuildTreeCompletes : Prop :=
  ∀ (s : State) (ps : List Byte), ps = symbols.filter (fun y => freq s.mem y != 0) → ps ≠ [] →
    ∃ t, exec .buildTree s = .next t ∧
      t = { s with
            seq := .idle, done := true, mem := t.mem
            rootValid := true, rootIdx := t.rootIdx, nleaf := t.nleaf, nnode := t.nnode } ∧
      t.rootIdx.toNat = 2 * ps.length - 2 ∧ t.nleaf.toNat = ps.length ∧ t.nnode.toNat = 2 * ps.length - 1 ∧
      (∀ (i : NodeIdx) (h : i.toNat < ps.length), node t.mem i = leafWord (ps[i.toNat]'h)) ∧
      (∀ i : NodeIdx, 2 * ps.length - 1 ≤ i.toNat → node t.mem i = 0) ∧
      (∀ a, ¬ (0x800 ≤ a ∧ a < 0x1000) → readByte t.mem a = readByte s.mem a)

/-- R132: after a BUILD_TREE with n ≥ 1 present symbols, NODE[n..2n-2] are internal nodes whose two different
children have lower indices, every node below the root is the child of exactly one node, and the arena at ROOT holds
a tree whose leaves carry the present symbols, each once, at depth at most n - 1. -/
def Obligations.BuiltArenaIsStrictTree : Prop :=
  ∀ (s t : State) (n : Nat), n = (symbols.filter (fun y => freq s.mem y != 0)).length → 1 ≤ n →
    exec .buildTree s = .next t →
    (∀ i : NodeIdx, n ≤ i.toNat → i.toNat ≤ 2 * n - 2 →
      isInt (node t.mem i) = true ∧ (nodeLeft (node t.mem i)).toNat < i.toNat ∧
      (nodeRight (node t.mem i)).toNat < i.toNat ∧ nodeLeft (node t.mem i) ≠ nodeRight (node t.mem i)) ∧
    (∀ j : NodeIdx, j.toNat < 2 * n - 2 → ∃ i : NodeIdx, childOf t.mem j i ∧ ∀ i', childOf t.mem j i' → i' = i) ∧
    ∃ T : HuffmanTree, T.Represents t.mem t.rootIdx ∧
      T.symbols.Perm (symbols.filter (fun y => freq s.mem y != 0)) ∧ T.depth ≤ n - 1

/-- R130, R131: the merge is the greedy one with the documented tie-break. At each internal node, created in index
order, the left child has a lesser (weight, index) than the right, and the right child a lesser one than every node
created before it that no earlier internal node and not this one has as its child; weights are exact sums of FREQ. -/
def Obligations.BuildTreeMergesLeastTwo : Prop :=
  ∀ (s t : State) (n : Nat), n = (symbols.filter (fun y => freq s.mem y != 0)).length → 1 ≤ n →
    exec .buildTree s = .next t →
    ∀ i : NodeIdx, n ≤ i.toNat → i.toNat ≤ 2 * n - 2 →
      let w : NodeIdx → Nat := fun k => arenaWeight t.mem (k.toNat + 1) k
      let l := nodeLeft (node t.mem i)
      let r := nodeRight (node t.mem i)
      pairLt (w l) l.toNat (w r) r.toNat ∧
      ∀ j : NodeIdx, j.toNat < i.toNat → (∀ k : NodeIdx, k.toNat ≤ i.toNat → ¬ childOf t.mem j k) →
        pairLt (w r) r.toNat (w j) j.toNat

/-- R133: optimality. The arena that BUILD_TREE leaves holds a tree over the present symbols whose code (each leaf's path,
and one bit for a lone leaf) is prefix-free and has the least weighted length of any such code: no assignment of
non-empty words to the present symbols in which no word is a prefix of another has a lesser sum of FREQ times length. -/
def Obligations.BuildTreeIsOptimal : Prop :=
  ∀ s t : State, (∃ y, freq s.mem y ≠ 0) → exec .buildTree s = .next t →
    ∃ T : HuffmanTree, T.Represents t.mem t.rootIdx ∧
      T.symbols.Perm (symbols.filter (fun y => freq s.mem y != 0)) ∧
      (∀ x ∈ T.codes, ∀ x' ∈ T.codes, x.1 ≠ x'.1 → ¬ x.2 <+: x'.2) ∧
      ∀ code : Byte → List Bool,
        (∀ y, freq s.mem y ≠ 0 → code y ≠ []) →
        (∀ y z, freq s.mem y ≠ 0 → freq s.mem z ≠ 0 → y ≠ z → ¬ code y <+: code z) →
        (T.codes.map (fun x => (freq s.mem x.1).toNat * x.2.length)).sum ≤
          (symbols.map (fun y => (freq s.mem y).toNat * (code y).length)).sum

/-- R131: no weight wraps: when the merge is done Q has one element, and its 40-bit weight is the exact sum of all
FREQ words. -/
def Obligations.MergeWeightIsExact : Prop :=
  ∀ (p : Params) (m : Memory), (∃ y, freq m y ≠ 0) →
    ∃ e, (built p m).queue = [e] ∧ e.wgt.toNat = (symbols.map (fun y => (freq m y).toNat)).sum

/-! ## GEN_CODES -/

/-- R151: GEN_CODES on a lone leaf gives its symbol the one-bit code "0" and no other symbol a code. -/
def Obligations.GenCodesLoneLeaf : Prop :=
  ∀ s : State, s.rootValid = true → isLeaf (node s.mem s.rootIdx) = true →
    ∃ t, exec .genCodes s = .next t ∧
      t = { s with seq := .idle, done := true, mem := t.mem, ncodes := 1, maxlen := 1 } ∧
      (∀ y, codeLen t.mem y = if y = nodeSym (node s.mem s.rootIdx) then 1 else 0) ∧
      (∀ y, codeVal t.mem y = 0) ∧
      (∀ a, ¬ ((0x1000 ≤ a ∧ a < 0x1400) ∨ (0x2000 ≤ a ∧ a < 0x4000)) → readByte t.mem a = readByte s.mem a)

/-- R150: GEN_CODES on an arena that holds a tree with two or more leaves, no symbol twice and no leaf deeper than
255 completes; each leaf's symbol gets its path as its code, every other symbol gets none, NCODES is the number of
leaves and MAXLEN the greatest depth. -/
def Obligations.GenCodesGivesPaths : Prop :=
  ∀ (s : State) (l r : HuffmanTree), s.rootValid = true → (HuffmanTree.node l r).Represents s.mem s.rootIdx →
    (HuffmanTree.node l r).symbols.Nodup → (HuffmanTree.node l r).depth ≤ 255 →
    ∃ t, exec .genCodes s = .next t ∧
      t = { s with seq := .idle, done := true, mem := t.mem, ncodes := t.ncodes, maxlen := t.maxlen } ∧
      (∀ y c, (y, c) ∈ (HuffmanTree.node l r).leaves → codeOf t.mem y = c ∧ codeLen t.mem y ≠ 0 ∧
        (codeVal t.mem y).toNat < 2 ^ (codeLen t.mem y).toNat) ∧
      (∀ y, y ∉ (HuffmanTree.node l r).symbols → codeLen t.mem y = 0 ∧ codeVal t.mem y = 0) ∧
      t.ncodes.toNat = (HuffmanTree.node l r).leaves.length ∧ t.maxlen.toNat = (HuffmanTree.node l r).depth ∧
      (∀ a, ¬ ((0x1000 ≤ a ∧ a < 0x1400) ∨ (0x2000 ≤ a ∧ a < 0x4000)) → readByte t.mem a = readByte s.mem a)

/-- R152, R244: GEN_CODES always completes; it either records no error, or records INVALID_TREE with one of its five
subcauses and leaves the whole code table cleared with NCODES = MAXLEN = 0. With ROOT.VALID = 0 it records NO_ROOT. -/
def Obligations.GenCodesFailureClearsTable : Prop :=
  (∀ s : State, ∃ t, exec .genCodes s = .next t ∧
    ((t.errCode = s.errCode ∧ t.errInfo = s.errInfo ∧ t.errPos = s.errPos ∧ s.rootValid = true) ∨
     (t.errCode = .invalidTree ∧ t.errInfo.toNat / 2 ^ 24 ∈ [1, 2, 4, 5, 6] ∧ t.ncodes = 0 ∧ t.maxlen = 0 ∧
      ∀ y, codeLen t.mem y = 0 ∧ codeVal t.mem y = 0))) ∧
  (∀ s : State, s.rootValid = false → ∃ t, exec .genCodes s = .next t ∧
    t = { s with
          seq := .idle, done := true, mem := t.mem, ncodes := 0, maxlen := 0
          errCode := .invalidTree, errInfo := 0x01000000, errPos := 0 })

/-- R152, R243: where GEN_CODES stops. With a root that is no leaf, the first visit in preorder, left before right, that
meets an error is recorded with its index and depth: the 512th visit is VISITS; else a visit deeper than 255 is DEPTH;
else a leaf whose symbol came before is DUP_SYMBOL, and a word that is no node is BAD_TAG. So a word at ROOT that is no
node records BAD_TAG at depth 0; an internal root whose two children are the same leaf records DUP_SYMBOL at depth 1; one
whose two children are itself records DEPTH at depth 256. -/
def Obligations.GenCodesTraps : Prop :=
  ∀ s : State, s.rootValid = true →
    let w := node s.mem s.rootIdx
    (isLeaf w = false → isInt w = false → ∃ t, exec .genCodes s = .next t ∧ t.errCode = .invalidTree ∧
      t.errInfo = 0x02000000 ||| s.rootIdx.setWidth 32 ∧ t.errPos = 0) ∧
    (isInt w = true → nodeLeft w = nodeRight w → isLeaf (node s.mem (nodeLeft w)) = true →
      ∃ t, exec .genCodes s = .next t ∧ t.errCode = .invalidTree ∧
        t.errInfo = 0x05000000 ||| (nodeLeft w).setWidth 32 ∧ t.errPos = 1) ∧
    (isInt w = true → nodeLeft w = s.rootIdx → nodeRight w = s.rootIdx →
      ∃ t, exec .genCodes s = .next t ∧ t.errCode = .invalidTree ∧
        t.errInfo = 0x04000000 ||| s.rootIdx.setWidth 32 ∧ t.errPos = 256) ∧
    ∀ (j : Nat) (i : NodeIdx) (d : Nat), isLeaf w = false →
      let vs := visits (node s.mem) 512 [(s.rootIdx, 0)]
      vs[j]? = some (i, d) → CleanVisits (node s.mem) (vs.take j) →
      let fails (subcause : Word) : Prop := ∃ t, exec .genCodes s = .next t ∧ t.errCode = .invalidTree ∧
        t.errInfo = subcause ||| i.setWidth 32 ∧ t.errPos = BitVec.ofNat 32 d
      (j = 511 → fails 0x06000000) ∧
      (j < 511 → 255 < d → fails 0x04000000) ∧
      (j < 511 → d ≤ 255 → isLeaf (node s.mem i) = true → nodeSym (node s.mem i) ∈ leafSymbols (node s.mem) (vs.take j) →
        fails 0x05000000) ∧
      (j < 511 → d ≤ 255 → isLeaf (node s.mem i) = false → isInt (node s.mem i) = false → fails 0x02000000)

/-- R153: after a GEN_CODES that records no error, on whatever arena, no code is a prefix of another, every symbol
with a code has a non-empty one, and NCODES is the number of symbols with a code. -/
def Obligations.GeneratedCodesArePrefixFree : Prop :=
  ∀ s t : State, s.errCode = .none → exec .genCodes s = .next t → t.errCode = .none →
    (∀ y z, codeLen t.mem y ≠ 0 → codeLen t.mem z ≠ 0 → y ≠ z → ¬ codeOf t.mem y <+: codeOf t.mem z) ∧
    (∀ y, codeLen t.mem y ≠ 0 → codeOf t.mem y ≠ []) ∧
    t.ncodes.toNat = (symbols.filter (fun y => codeLen t.mem y != 0)).length

/-- R132, item 5: GEN_CODES right after a successful BUILD_TREE records no error. -/
def Obligations.GenCodesAfterBuildTreeSucceeds : Prop :=
  ∀ s t : State, (∃ y, freq s.mem y ≠ 0) → exec .buildTree s = .next t →
    ∃ u, exec .genCodes t = .next u ∧ u.errCode = t.errCode ∧
      ∀ y, codeLen u.mem y ≠ 0 ↔ freq s.mem y ≠ 0

/-! ## ENCODE -/

/-- R171, R172: ENCODE completes when IN_LEN is at most IN_CAP, every input byte has a code, and the bits fit
OUT_BUF. The BitStream is the concatenation of the codes in input order, packed MSB first and zero-padded;
OUT_BITS is its length, OUT_LEN its length in bytes, DEC_TAIL 0; bytes at OUT_LEN and above and all other state keep
their values. -/
def Obligations.EncodeCompletes : Prop :=
  ∀ (s : State) (bits : List Bool), s.inLen.toNat ≤ s.params.inCap →
    (∀ j, j < s.inLen.toNat → codeLen s.mem (inByte s.params s.mem j) ≠ 0) →
    bits = bitStream s.mem (inBytes s.params s.mem s.inLen.toNat) → bits.length ≤ 8 * s.params.outCap →
    ∃ t, exec .encode s = .next t ∧
      t = { s with
            seq := .idle, done := true, mem := t.mem, outLen := t.outLen, outBits := t.outBits, decTail := 0 } ∧
      t.outBits.toNat = bits.length ∧ t.outLen.toNat = (bits.length + 7) / 8 ∧
      (∀ k, k < (bits.length + 7) / 8 → outByte s.params t.mem k = packedByte bits k) ∧
      (∀ a, ¬ (0x20000 ≤ a ∧ a < 0x20000 + (bits.length + 7) / 8) → readByte t.mem a = readByte s.mem a)

/-- R171, R242, R243: where ENCODE fails, by the first error in input order: PARAM_RANGE before any read;
UNKNOWN_SYMBOL with the symbol and its index; OUT_OVERFLOW with OUT_CAP and the index of the byte whose code was
being packed. A failure leaves OUT_LEN = OUT_BITS = DEC_TAIL = 0 and every byte outside OUT_BUF as it was. -/
def Obligations.EncodeTraps : Prop :=
  ∀ s : State,
    (s.params.inCap < s.inLen.toNat → ∃ t, exec .encode s = .next t ∧
      t.errCode = .paramRange ∧ t.errInfo = 1 ∧ t.errPos = 0 ∧ t.outLen = 0 ∧ t.outBits = 0 ∧ t.decTail = 0 ∧
      ∀ a, ¬ (0x20000 ≤ a ∧ a < 0x30000) → readByte t.mem a = readByte s.mem a) ∧
    (∀ j, s.inLen.toNat ≤ s.params.inCap → j < s.inLen.toNat →
      (∀ k, k < j → codeLen s.mem (inByte s.params s.mem k) ≠ 0) →
      (bitStream s.mem (inBytes s.params s.mem j)).length ≤ 8 * s.params.outCap →
      (codeLen s.mem (inByte s.params s.mem j) = 0 → ∃ t, exec .encode s = .next t ∧
        t.errCode = .unknownSymbol ∧ t.errInfo = (inByte s.params s.mem j).setWidth 32 ∧ t.errPos.toNat = j ∧
        t.outLen = 0 ∧ t.outBits = 0 ∧ t.decTail = 0 ∧
        ∀ a, ¬ (0x20000 ≤ a ∧ a < 0x30000) → readByte t.mem a = readByte s.mem a) ∧
      (codeLen s.mem (inByte s.params s.mem j) ≠ 0 →
        8 * s.params.outCap < (bitStream s.mem (inBytes s.params s.mem (j + 1))).length →
        ∃ t, exec .encode s = .next t ∧
          t.errCode = .outOverflow ∧ t.errInfo.toNat = s.params.outCap ∧ t.errPos.toNat = j ∧
          t.outLen = 0 ∧ t.outBits = 0 ∧ t.decTail = 0 ∧
          ∀ a, ¬ (0x20000 ≤ a ∧ a < 0x30000) → readByte t.mem a = readByte s.mem a))

/-! ## DECODE and DECODE.ALL -/

/-- R191, R192: DECODE with N = DEC_NBITS, and DECODE.ALL with N = 8 x IN_LEN, complete when the counts are in range,
ROOT is valid, the walk of the first N bits of IN_BUF meets no broken word and no 1 bit at a lone leaf, and the symbols
fit OUT_BUF: on an arena that holds a tree at ROOT, and on any other, whether or not it has broken words the walk never
reaches, cycles or shared nodes. The symbols go to OUT_BUF in order; OUT_LEN is their number, DEC_TAIL the bits after the
last one, OUT_BITS the rest; bytes at OUT_LEN and above and all other state keep their values. -/
def Obligations.DecodeCompletes : Prop :=
  ∀ (s : State) (i : Instr) (n : Nat) (out : List Byte) (tail : Nat),
    (i = .decode ∧ n = s.decNbits.toNat ∨ i = .decodeAll ∧ n = 8 * s.inLen.toNat) →
    s.inLen.toNat ≤ s.params.inCap → n ≤ 8 * s.inLen.toNat → s.rootValid = true → out.length ≤ s.params.outCap →
    (∀ T : HuffmanTree, T.Represents s.mem s.rootIdx → T.decode (inBits s.params s.mem n) = some (out, tail) →
      ∃ t, exec i s = .next t ∧ Decoded s t n out tail) ∧
    (∀ cur, arenaDecode (node s.mem) s.rootIdx s.rootIdx 0 (inBits s.params s.mem n) = some (out, cur, tail) →
      ∃ t, exec i s = .next t ∧ Decoded s t n out tail)

/-- R191: with N = 0 DECODE succeeds with no output whatever word ROOT names, once ROOT is valid. -/
def Obligations.DecodeOfNoBits : Prop :=
  ∀ s : State, s.decNbits = 0 → s.inLen.toNat ≤ s.params.inCap → s.rootValid = true →
    exec .decode s = .next { s with seq := .idle, done := true, outLen := 0, outBits := 0, decTail := 0 }

/-- R191, R190, R242, R243: where DECODE and DECODE.ALL fail: PARAM_RANGE 1, then PARAM_RANGE 2 (DECODE only), then
NO_ROOT; a 1 bit at a lone-leaf root is MISSING_CHILD at its bit index when only 0 bits went before it and their symbols
fit; a word at ROOT that is no node is BAD_TAG at bit 0; and on any arena, when the walk of the bits before bit k went
well and its symbols fit, a child word that is no node is BAD_TAG with the child's index at bit k. A failure leaves
OUT_LEN = OUT_BITS = DEC_TAIL = 0 and every byte outside OUT_BUF as it was. -/
def Obligations.DecodeTraps : Prop :=
  ∀ (s : State) (i : Instr) (n : Nat),
    (i = .decode ∧ n = s.decNbits.toNat ∨ i = .decodeAll ∧ n = 8 * s.inLen.toNat) →
    let fails (e : Raise) : Prop := ∃ t, exec i s = .next t ∧
      t.errCode = e.code ∧ t.errInfo = e.info ∧ t.errPos = e.pos ∧ t.outLen = 0 ∧ t.outBits = 0 ∧ t.decTail = 0 ∧
      ∀ a, ¬ (0x20000 ≤ a ∧ a < 0x30000) → readByte t.mem a = readByte s.mem a
    (s.params.inCap < s.inLen.toNat → fails ⟨.paramRange, 1, 0⟩) ∧
    (s.inLen.toNat ≤ s.params.inCap → 8 * s.inLen.toNat < n → fails ⟨.paramRange, 2, 0⟩) ∧
    (s.inLen.toNat ≤ s.params.inCap → n ≤ 8 * s.inLen.toNat → s.rootValid = false →
      fails ⟨.invalidTree, 0x01000000, 0⟩) ∧
    (s.inLen.toNat ≤ s.params.inCap → n ≤ 8 * s.inLen.toNat → s.rootValid = true →
      (isLeaf (node s.mem s.rootIdx) = true → ∀ k, k < n → k ≤ s.params.outCap →
        (∀ q, q < k → inBit s.params s.mem q = false) → inBit s.params s.mem k = true →
        fails ⟨.invalidTree, 0x03000000 ||| s.rootIdx.setWidth 32, BitVec.ofNat 32 k⟩) ∧
      (isLeaf (node s.mem s.rootIdx) = false → isInt (node s.mem s.rootIdx) = false → 0 < n →
        fails ⟨.invalidTree, 0x02000000 ||| s.rootIdx.setWidth 32, 0⟩) ∧
      (∀ k out cur tail, k < n →
        arenaDecode (node s.mem) s.rootIdx s.rootIdx 0 (inBits s.params s.mem k) = some (out, cur, tail) →
        out.length ≤ s.params.outCap → isInt (node s.mem cur) = true →
        let c := if inBit s.params s.mem k then nodeRight (node s.mem cur) else nodeLeft (node s.mem cur)
        isLeaf (node s.mem c) = false → isInt (node s.mem c) = false →
        fails ⟨.invalidTree, 0x02000000 ||| c.setWidth 32, BitVec.ofNat 32 k⟩))

/-- R191: OUT_OVERFLOW: when the tree at ROOT, or the walk of any arena, decodes the first k bits to exactly OUT_CAP
symbols and bit k completes one more, DECODE and DECODE.ALL record OUT_OVERFLOW with OUT_CAP at bit k. -/
def Obligations.DecodeOverflow : Prop :=
  ∀ (s : State) (i : Instr) (n k : Nat) (out out' : List Byte),
    (i = .decode ∧ n = s.decNbits.toNat ∨ i = .decodeAll ∧ n = 8 * s.inLen.toNat) →
    s.inLen.toNat ≤ s.params.inCap → n ≤ 8 * s.inLen.toNat → s.rootValid = true →
    k < n → out.length = s.params.outCap → out'.length = s.params.outCap + 1 →
    ((∃ T : HuffmanTree, T.Represents s.mem s.rootIdx ∧
        (∃ tail, T.decode (inBits s.params s.mem k) = some (out, tail)) ∧
        T.decode (inBits s.params s.mem (k + 1)) = some (out', 0)) ∨
      ∃ cur tail,
        arenaDecode (node s.mem) s.rootIdx s.rootIdx 0 (inBits s.params s.mem k) = some (out, cur, tail) ∧
        arenaDecode (node s.mem) s.rootIdx s.rootIdx 0 (inBits s.params s.mem (k + 1)) = some (out', s.rootIdx, 0)) →
    ∃ t, exec i s = .next t ∧ t.errCode = .outOverflow ∧ t.errInfo.toNat = s.params.outCap ∧ t.errPos.toNat = k ∧
      t.outLen = 0 ∧ t.outBits = 0 ∧ t.decTail = 0 ∧
      ∀ a, ¬ (0x20000 ≤ a ∧ a < 0x30000) → readByte t.mem a = readByte s.mem a

/-- R192: DECODE.ALL is DECODE with DEC_NBITS read as 8 x IN_LEN, and leaves DEC_NBITS alone: the two end with the same
registers, the same bytes outside OUT_BUF and the same OUT_LEN output bytes, and with the same memory when no error is
recorded. (After a failure the bytes of OUT_BUF are unspecified, and nothing is said of them.) -/
def Obligations.DecodeAllIsDecodeOfEveryBit : Prop :=
  decode 0x00000105 = .ok .decodeAll ∧ ∀ s : State, ∃ t u, exec .decodeAll s = .next t ∧
    exec .decode { s with decNbits := BitVec.ofNat 32 (8 * s.inLen.toNat) } = .next u ∧
    t = { u with decNbits := s.decNbits, mem := t.mem } ∧
    (∀ a, ¬ (0x20000 ≤ a ∧ a < 0x30000) → readByte t.mem a = readByte u.mem a) ∧
    outBytes t.params t.mem t.outLen.toNat = outBytes u.params u.mem t.outLen.toNat ∧
    (s.errCode = .none → t.errCode = .none → t.mem = u.mem)

/-! ## Packing, unpacking and the round trip -/

/-- R190: the PISO shift register yields the bits of the unpacker in the same order, whatever it held before. -/
def Obligations.PisoYieldsTheBits : Prop :=
  ∀ (p : Params) (m : Memory) (n : Nat) (r : Piso), Piso.stream p m n 0 r = inBits p m n

/-- R194: the unpacker over the OUT_LEN bytes of an ENCODE yields the packed bits followed by
(8 - L mod 8) mod 8 zero bits, and nothing else. -/
def Obligations.UnpackOfPackedIsPadded : Prop :=
  ∀ (s : State) (bits : List Bool) (m : Memory), s.inLen.toNat ≤ s.params.inCap →
    (∀ j, j < s.inLen.toNat → codeLen s.mem (inByte s.params s.mem j) ≠ 0) →
    bits = bitStream s.mem (inBytes s.params s.mem s.inLen.toNat) → bits.length ≤ 8 * s.params.outCap →
    ∃ t, exec .encode s = .next t ∧
      ((∀ k, k < t.outLen.toNat → inByte s.params m k = outByte s.params t.mem k) →
        inBits s.params m (8 * t.outLen.toNat) = bits ++ List.replicate ((8 - bits.length % 8) % 8) false)

/-- R193, for any tree and table that agree: when every input byte has the code the tree gives it and ENCODE's bits
fit OUT_BUF, then in any state whose IN_BUF holds the OUT_LEN bytes that ENCODE left, with IN_LEN = OUT_LEN and
DEC_NBITS = OUT_BITS and a ROOT at which the arena holds the tree, DECODE gives back the input bytes. -/
def Obligations.DecodeInvertsEncode : Prop :=
  ∀ (s : State) (T : HuffmanTree) (input : List Byte), input = inBytes s.params s.mem s.inLen.toNat →
    s.inLen.toNat ≤ s.params.inCap → s.inLen.toNat ≤ s.params.outCap →
    (∀ y ∈ input, (y, codeOf s.mem y) ∈ T.codes) →
    (bitStream s.mem input).length ≤ 8 * s.params.outCap →
    ∃ t, exec .encode s = .next t ∧ t.errCode = s.errCode ∧
      ∀ u : State, u.params = s.params → t.outLen.toNat ≤ u.params.inCap →
        (∀ k, k < t.outLen.toNat → inByte u.params u.mem k = outByte t.params t.mem k) →
        u.inLen = t.outLen → u.decNbits = t.outBits → u.rootValid = true → T.Represents u.mem u.rootIdx →
        ∃ v, exec .decode u = .next v ∧ v.errCode = u.errCode ∧
          outBytes v.params v.mem input.length = input ∧ v.outLen.toNat = input.length ∧
          v.outBits = t.outBits ∧ v.decTail = 0

/-- R193: the round trip under table reuse, for every non-empty input of at most IN_CAP and OUT_CAP bytes. With FREQ the
frequencies of the input, BUILD_TREE, GEN_CODES and ENCODE in a row complete and record no error; DECODE of the OUT_LEN
bytes that ENCODE left, with NODE and ROOT kept and DEC_NBITS = OUT_BITS, gives back the input. -/
def Obligations.RoundTripUnderTableReuse : Prop :=
  ∀ (s : State) (input : List Byte), input = inBytes s.params s.mem s.inLen.toNat → input ≠ [] →
    s.inLen.toNat ≤ s.params.inCap → s.inLen.toNat ≤ s.params.outCap →
    (∀ y, freq s.mem y = hostFreq input y) →
    ∃ t u v, exec .buildTree s = .next t ∧ exec .genCodes t = .next u ∧ exec .encode u = .next v ∧
      v.errCode = s.errCode ∧
      ∀ w : State, w.params = s.params → v.outLen.toNat ≤ s.params.inCap →
        (∀ k, k < v.outLen.toNat → inByte w.params w.mem k = outByte v.params v.mem k) →
        (∀ i, node w.mem i = node v.mem i) → w.rootValid = v.rootValid → w.rootIdx = v.rootIdx →
        w.inLen = v.outLen → w.decNbits = v.outBits →
        ∃ x, exec .decode w = .next x ∧ x.errCode = w.errCode ∧
          outBytes x.params x.mem input.length = input ∧ x.outLen.toNat = input.length ∧
          x.outBits = v.outBits ∧ x.decTail = 0

/-- R195: when IN_BUF holds the bits of a byte sequence under the codes of the tree at ROOT, followed by P zero bits
to the end of the last byte, DECODE.ALL emits the sequence and then P div dl copies of the leftmost leaf's symbol,
and DEC_TAIL is P mod dl, dl being the length of that leaf's code. -/
def Obligations.PaddingArtifact : Prop :=
  ∀ (s : State) (T : HuffmanTree) (input : List Byte) (code : Byte → List Bool) (y : Byte) (dl P : Nat),
    s.inLen.toNat ≤ s.params.inCap → s.rootValid = true → T.Represents s.mem s.rootIdx →
    (∀ z ∈ input, (z, code z) ∈ T.codes) → (y, List.replicate dl false) ∈ T.codes →
    inBits s.params s.mem (8 * s.inLen.toNat) = input.flatMap code ++ List.replicate P false →
    input.length + P / dl ≤ s.params.outCap →
    ∃ t, exec .decodeAll s = .next t ∧ t.errCode = s.errCode ∧ t.outLen.toNat = input.length + P / dl ∧
      outBytes t.params t.mem (input.length + P / dl) = input ++ List.replicate (P / dl) y ∧
      t.decTail.toNat = P % dl
end

