-- ==== Sys2Proof/Laws/AddressMap.lean ====
section
/-! SUPPORT. What `target` and `offsetOf?` say: one lemma per row of the address map (10_state.md R21), in both
directions, and the write sets by word (20_memory.md R78). -/

namespace Sys2Proof.Machine

/-- The word number of a register: its offset of R21 div 4. -/
def Reg.index : Reg → Nat
  | .id => 0 | .version => 1 | .ctrl => 2 | .cmd => 3 | .status => 4 | .errCode => 5 | .errInfo => 6 | .errPos => 7
  | .inLen => 8 | .decNbits => 9 | .outLen => 10 | .outBits => 11 | .decTail => 12 | .root => 13 | .nleaf => 14
  | .nnode => 15 | .ncodes => 16 | .maxlen => 17 | .inCap => 18 | .outCap => 19

theorem regTarget_index (r : Reg) : regTarget r.index = .reg r := by cases r <;> rfl

theorem regTarget_reserved (n : Nat) (h : 20 ≤ n) : regTarget n = .reserved := by
  unfold regTarget
  split <;> first | omega | rfl

/-- Below word 20 stands a register, from there on nothing. -/
theorem regTarget_cases (n : Nat) : (∃ r : Reg, n = r.index ∧ regTarget n = .reg r) ∨ (20 ≤ n ∧ regTarget n = .reserved) := by
  by_cases h : 20 ≤ n
  · exact Or.inr ⟨h, regTarget_reserved n h⟩
  · left
    have : n < 20 := by omega
    interval_cases n
    exacts [⟨.id, rfl, rfl⟩, ⟨.version, rfl, rfl⟩, ⟨.ctrl, rfl, rfl⟩, ⟨.cmd, rfl, rfl⟩, ⟨.status, rfl, rfl⟩,
      ⟨.errCode, rfl, rfl⟩, ⟨.errInfo, rfl, rfl⟩, ⟨.errPos, rfl, rfl⟩, ⟨.inLen, rfl, rfl⟩, ⟨.decNbits, rfl, rfl⟩,
      ⟨.outLen, rfl, rfl⟩, ⟨.outBits, rfl, rfl⟩, ⟨.decTail, rfl, rfl⟩, ⟨.root, rfl, rfl⟩, ⟨.nleaf, rfl, rfl⟩,
      ⟨.nnode, rfl, rfl⟩, ⟨.ncodes, rfl, rfl⟩, ⟨.maxlen, rfl, rfl⟩, ⟨.inCap, rfl, rfl⟩, ⟨.outCap, rfl, rfl⟩]

/-- The address map, by word number `n = off div 4`: every word of the window is one of these, and only one. -/
theorem target_cases (off : Offset) :
    (∃ r : Reg, off.toNat / 4 = r.index ∧ target off = .reg r) ∨
    (∃ y : Byte, off.toNat / 4 = 0x100 + y.toNat ∧ target off = .freq y) ∨
    (∃ i : NodeIdx, off.toNat / 4 = 0x200 + i.toNat ∧ target off = .node i) ∨
    (∃ y : Byte, off.toNat / 4 = 0x400 + y.toNat ∧ target off = .codeLen y) ∨
    (∃ (y : Byte) (k : Nat), k < 8 ∧ off.toNat / 4 = 0x800 + 8 * y.toNat + k ∧ target off = .codeVal y k) ∨
    (∃ k : Nat, k < 0x4000 ∧ off.toNat / 4 = 0x4000 + k ∧ target off = .inBuf k) ∨
    (∃ k : Nat, k < 0x4000 ∧ off.toNat / 4 = 0x8000 + k ∧ target off = .outBuf k) ∨
    (((20 ≤ off.toNat / 4 ∧ off.toNat / 4 < 0x100) ∨ (0x500 ≤ off.toNat / 4 ∧ off.toNat / 4 < 0x800) ∨
      (0x1000 ≤ off.toNat / 4 ∧ off.toNat / 4 < 0x4000) ∨ 0xC000 ≤ off.toNat / 4) ∧ target off = .reserved) := by
  unfold target
  generalize off.toNat / 4 = n
  unfold targetAt
  by_cases h0 : n < 0x100
  · rw [if_pos h0]
    rcases regTarget_cases n with ⟨r, h, e⟩ | ⟨h, e⟩
    · exact Or.inl ⟨r, h, e⟩
    · iterate 7 right
      exact ⟨by omega, e⟩
  rw [if_neg h0]
  by_cases h1 : n < 0x200
  · rw [if_pos h1]
    iterate 1 right
    exact Or.inl ⟨_, by rw [BitVec.toNat_ofNat]; omega, rfl⟩
  rw [if_neg h1]
  by_cases h2 : n < 0x400
  · rw [if_pos h2]
    iterate 2 right
    exact Or.inl ⟨_, by rw [BitVec.toNat_ofNat]; omega, rfl⟩
  rw [if_neg h2]
  by_cases h3 : n < 0x500
  · rw [if_pos h3]
    iterate 3 right
    exact Or.inl ⟨_, by rw [BitVec.toNat_ofNat]; omega, rfl⟩
  rw [if_neg h3]
  by_cases h4 : n < 0x800
  · rw [if_pos h4]
    iterate 7 right
    exact ⟨by omega, rfl⟩
  rw [if_neg h4]
  by_cases h5 : n < 0x1000
  · rw [if_pos h5]
    iterate 4 right
    exact Or.inl ⟨_, _, by omega, by rw [BitVec.toNat_ofNat]; omega, rfl⟩
  rw [if_neg h5]
  by_cases h6 : n < 0x4000
  · rw [if_pos h6]
    iterate 7 right
    exact ⟨by omega, rfl⟩
  rw [if_neg h6]
  by_cases h7 : n < 0x8000
  · rw [if_pos h7]
    iterate 5 right
    exact Or.inl ⟨_, by omega, by omega, rfl⟩
  rw [if_neg h7]
  by_cases h8 : n < 0xC000
  · rw [if_pos h8]
    iterate 6 right
    exact Or.inl ⟨_, by omega, by omega, rfl⟩
  rw [if_neg h8]
  iterate 7 right
  exact ⟨by omega, rfl⟩

theorem Reg.index_lt (r : Reg) : r.index < 20 := by cases r <;> decide

theorem Reg.index_inj {r r' : Reg} (h : r.index = r'.index) : r = r' := by
  revert h; cases r <;> cases r' <;> decide

theorem target_reg {off : Offset} (r : Reg) (h : off.toNat / 4 = r.index) : target off = .reg r := by
  have := r.index_lt
  rcases target_cases off with ⟨r', h', e⟩ | ⟨y, h', -⟩ | ⟨y, h', -⟩ | ⟨y, h', -⟩ | ⟨y, k, -, h', -⟩ | ⟨k, -, h', -⟩ |
    ⟨k, -, h', -⟩ | ⟨h', -⟩
  · rw [e, Reg.index_inj (h.symm.trans h')]
  all_goals omega

theorem target_eq_reg {off : Offset} {r : Reg} (h : target off = .reg r) : off.toNat / 4 = r.index := by
  rcases target_cases off with ⟨r', h', e⟩ | ⟨y, h', e⟩ | ⟨y, h', e⟩ | ⟨y, h', e⟩ | ⟨y, k, -, h', e⟩ | ⟨k, -, h', e⟩ |
    ⟨k, -, h', e⟩ | ⟨h', e⟩ <;> rw [e] at h <;> first | (injection h with h; rw [h', h]) | cases h

theorem target_freq {off : Offset} (y : Byte) (h : off.toNat / 4 = 0x100 + y.toNat) : target off = .freq y := by
  have := y.isLt
  rcases target_cases off with ⟨r', h', -⟩ | ⟨z, h', e⟩ | ⟨z, h', -⟩ | ⟨z, h', -⟩ | ⟨z, k, -, h', -⟩ | ⟨k, -, h', -⟩ |
    ⟨k, -, h', -⟩ | ⟨h', -⟩
  · have := r'.index_lt; omega
  · rw [e, BitVec.eq_of_toNat_eq (show z.toNat = y.toNat by omega)]
  all_goals omega

theorem target_eq_freq {off : Offset} {y : Byte} (h : target off = .freq y) : off.toNat / 4 = 0x100 + y.toNat := by
  rcases target_cases off with ⟨r', h', e⟩ | ⟨y, h', e⟩ | ⟨y, h', e⟩ | ⟨y, h', e⟩ | ⟨y, k, -, h', e⟩ | ⟨k, -, h', e⟩ |
    ⟨k, -, h', e⟩ | ⟨h', e⟩ <;> rw [e] at h <;> first | (injection h with h; rw [h', h]) | cases h

theorem target_node {off : Offset} (i : NodeIdx) (h : off.toNat / 4 = 0x200 + i.toNat) : target off = .node i := by
  have := i.isLt
  rcases target_cases off with ⟨r', h', -⟩ | ⟨z, h', -⟩ | ⟨z, h', e⟩ | ⟨z, h', -⟩ | ⟨z, k, -, h', -⟩ | ⟨k, -, h', -⟩ |
    ⟨k, -, h', -⟩ | ⟨h', -⟩
  · have := r'.index_lt; omega
  · have := z.isLt; omega
  · rw [e, BitVec.eq_of_toNat_eq (show z.toNat = i.toNat by omega)]
  all_goals omega

theorem target_eq_node {off : Offset} {i : NodeIdx} (h : target off = .node i) : off.toNat / 4 = 0x200 + i.toNat := by
  rcases target_cases off with ⟨r', h', e⟩ | ⟨y, h', e⟩ | ⟨y, h', e⟩ | ⟨y, h', e⟩ | ⟨y, k, -, h', e⟩ | ⟨k, -, h', e⟩ |
    ⟨k, -, h', e⟩ | ⟨h', e⟩ <;> rw [e] at h <;> first | (injection h with h; rw [h', h]) | cases h

theorem target_eq_codeLen {off : Offset} {y : Byte} (h : target off = .codeLen y) :
    off.toNat / 4 = 0x400 + y.toNat := by
  rcases target_cases off with ⟨r', h', e⟩ | ⟨y, h', e⟩ | ⟨y, h', e⟩ | ⟨y, h', e⟩ | ⟨y, k, -, h', e⟩ | ⟨k, -, h', e⟩ |
    ⟨k, -, h', e⟩ | ⟨h', e⟩ <;> rw [e] at h <;> first | (injection h with h; rw [h', h]) | cases h

theorem target_eq_codeVal {off : Offset} {y : Byte} {k : Nat} (h : target off = .codeVal y k) :
    k < 8 ∧ off.toNat / 4 = 0x800 + 8 * y.toNat + k := by
  rcases target_cases off with ⟨r', h', e⟩ | ⟨y, h', e⟩ | ⟨y, h', e⟩ | ⟨y, h', e⟩ | ⟨y, k, hk, h', e⟩ | ⟨k, -, h', e⟩ |
    ⟨k, -, h', e⟩ | ⟨h', e⟩ <;> rw [e] at h <;> first | (injection h with h1 h2; subst h1 h2; exact ⟨hk, h'⟩) | cases h

theorem target_codeLen {off : Offset} (y : Byte) (h : off.toNat / 4 = 0x400 + y.toNat) : target off = .codeLen y := by
  have := y.isLt
  rcases target_cases off with ⟨r', h', -⟩ | ⟨z, h', -⟩ | ⟨z, h', -⟩ | ⟨z, h', e⟩ | ⟨z, k, -, h', -⟩ | ⟨k, -, h', -⟩ |
    ⟨k, -, h', -⟩ | ⟨h', -⟩
  · have := r'.index_lt; omega
  · have := z.isLt; omega
  · have := z.isLt; omega
  · rw [e, BitVec.eq_of_toNat_eq (show z.toNat = y.toNat by omega)]
  all_goals omega

theorem target_codeVal {off : Offset} (y : Byte) (k : Nat) (hk : k < 8) (h : off.toNat / 4 = 0x800 + 8 * y.toNat + k) :
    target off = .codeVal y k := by
  have := y.isLt
  rcases target_cases off with ⟨r', h', -⟩ | ⟨z, h', -⟩ | ⟨z, h', -⟩ | ⟨z, h', -⟩ | ⟨z, l, hl, h', e⟩ | ⟨l, -, h', -⟩ |
    ⟨l, -, h', -⟩ | ⟨h', -⟩
  · have := r'.index_lt; omega
  · have := z.isLt; omega
  · have := z.isLt; omega
  · have := z.isLt; omega
  · rw [e, BitVec.eq_of_toNat_eq (show z.toNat = y.toNat by omega), show l = k by omega]
  all_goals omega

theorem target_outBuf {off : Offset} (k : Nat) (hk : k < 0x4000) (h : off.toNat / 4 = 0x8000 + k) :
    target off = .outBuf k := by
  rcases target_cases off with ⟨r', h', -⟩ | ⟨z, h', -⟩ | ⟨z, h', -⟩ | ⟨z, h', -⟩ | ⟨z, l, hl, h', e⟩ | ⟨l, hl, h', -⟩ |
    ⟨l, hl, h', e⟩ | ⟨h', -⟩
  · have := r'.index_lt; omega
  · have := z.isLt; omega
  · have := z.isLt; omega
  · have := z.isLt; omega
  · have := z.isLt; omega
  · omega
  · rw [e, show l = k by omega]
  · omega

theorem target_inBuf {off : Offset} (k : Nat) (hk : k < 0x4000) (h : off.toNat / 4 = 0x4000 + k) :
    target off = .inBuf k := by
  rcases target_cases off with ⟨r', h', -⟩ | ⟨z, h', -⟩ | ⟨z, h', -⟩ | ⟨z, h', -⟩ | ⟨z, k, hk', h', -⟩ | ⟨k', -, h', e⟩ |
    ⟨k, -, h', -⟩ | ⟨h', -⟩
  · have := r'.index_lt; omega
  · have := z.isLt; omega
  · have := z.isLt; omega
  · have := z.isLt; omega
  · have := z.isLt; omega
  · rw [e, show k' = k by omega]
  all_goals omega

theorem target_eq_inBuf {off : Offset} {k : Nat} (h : target off = .inBuf k) :
    k < 0x4000 ∧ off.toNat / 4 = 0x4000 + k := by
  rcases target_cases off with ⟨r', h', e⟩ | ⟨y, h', e⟩ | ⟨y, h', e⟩ | ⟨y, h', e⟩ | ⟨y, k, -, h', e⟩ | ⟨k, hk, h', e⟩ |
    ⟨k, -, h', e⟩ | ⟨h', e⟩ <;> rw [e] at h <;> first | (injection h with h1; subst h1; exact ⟨hk, h'⟩) | cases h

theorem target_eq_outBuf {off : Offset} {k : Nat} (h : target off = .outBuf k) :
    k < 0x4000 ∧ off.toNat / 4 = 0x8000 + k := by
  rcases target_cases off with ⟨r', h', e⟩ | ⟨y, h', e⟩ | ⟨y, h', e⟩ | ⟨y, h', e⟩ | ⟨y, k, -, h', e⟩ | ⟨k, -, h', e⟩ |
    ⟨k, hk, h', e⟩ | ⟨h', e⟩ <;> rw [e] at h <;> first | (injection h with h1; subst h1; exact ⟨hk, h'⟩) | cases h

/-! ## Bus addresses -/

theorem offsetOf?_some {p : Params} {a : Nat} {off : Offset} (h : offsetOf? p a = some off) :
    a = p.base + off.toNat := by
  unfold offsetOf? at h
  split at h
  · injection h with h
    subst h
    rw [BitVec.toNat_ofNat]
    omega
  · cases h

theorem offsetOf?_base (p : Params) (off : Offset) : offsetOf? p (p.base + off.toNat) = some off := by
  have := off.isLt
  unfold offsetOf?
  rw [if_pos (by omega)]
  congr 1
  apply BitVec.eq_of_toNat_eq
  rw [BitVec.toNat_ofNat]
  omega

theorem offsetOf?_none {p : Params} {a : Nat} (h : a < p.base ∨ p.base + 0x40000 ≤ a) : offsetOf? p a = none := by
  unfold offsetOf?
  rw [if_neg (by omega)]

/-! ## Reads and writes by target -/

theorem busy_eq (s : State) : s.busy = true ↔ s.seq = .busy := by
  unfold State.busy; rw [beq_iff_eq]

theorem busy_false (s : State) : s.busy = false ↔ s.seq = .idle := by
  unfold State.busy
  cases s.seq <;> decide

theorem memRead_idle {s : State} (h : s.seq = .idle) (off : Offset) : memRead s off = readTarget s (target off) := by
  unfold memRead unspecifiedRead
  rw [(busy_false s).mpr h]
  rfl

theorem memRead_stored {s : State} {off : Offset} (h : inWriteSet s.params (latched s) (target off) = false) :
    memRead s off = readTarget s (target off) := by
  unfold memRead unspecifiedRead
  rw [h, Bool.and_false]
  rfl

theorem memWrite_idle {s : State} (h : s.seq = .idle) (off : Offset) (v : Word) :
    memWrite off v s = writeTarget v s (target off) := by
  unfold memWrite
  rw [(busy_false s).mpr h]
  rfl

theorem memWrite_busy {s : State} (h : s.seq = .busy) {off : Offset} (hw : busyWritable (target off) = false)
    (v : Word) : memWrite off v s = { s with wrWhileBusy := true } := by
  unfold memWrite
  rw [(busy_eq s).mpr h, hw]
  rfl

theorem memWrite_busyWritable {off : Offset} (hw : busyWritable (target off) = true) (v : Word) (s : State) :
    memWrite off v s = writeTarget v s (target off) := by
  unfold memWrite
  rw [hw, Bool.not_true, Bool.and_false]
  rfl

theorem busyWritable_iff (x : Target) : busyWritable x = true ↔ x = .reg .cmd ∨ x = .reg .ctrl ∨ x = .reg .status := by
  cases x with
  | reg r => cases r <;> simp [busyWritable]
  | _ => simp [busyWritable]

theorem coreTurn_iff (s : State) : s.coreTurn = true ↔ s.seq = .busy ∧ (s.delay = 0 ∨ s.host = []) := by
  unfold State.coreTurn
  rw [Bool.and_eq_true, busy_eq, Bool.or_eq_true, beq_iff_eq, List.isEmpty_iff]

end Sys2Proof.Machine
end

