-- ==== Sys2Proof/Laws/Encoding.lean ====
section
/-! SUPPORT. The fields of a command word and of a node word, as numbers and back (30_encoding.md R101, R103). -/

namespace Sys2Proof

/-- A command word is its four fields. -/
theorem CmdFields.toWord_ofWord (c : Word) : (CmdFields.ofWord c).toWord = c := by
  apply BitVec.eq_of_getLsbD_eq
  intro i hi
  simp only [CmdFields.toWord, CmdFields.ofWord, BitVec.getLsbD_append, BitVec.getLsbD_extractLsb', BitVec.getLsbD_ofBool]
  by_cases h1 : i < 8
  · simp [h1, show i < 16 by omega, show i < 9 by omega]
  by_cases h2 : i = 8
  · subst h2; simp
  by_cases h3 : i < 16
  · simp [h3, show ¬ i < 9 by omega, show i - 9 < 7 by omega, show 9 + (i - 9) = i by omega]
  · simp [h3, show i - 16 < 16 by omega, show 16 + (i - 16) = i by omega]

theorem nodeTag_toNat (w : Word) : (nodeTag w).toNat = w.toNat / 2 ^ 30 := by
  have := w.isLt
  unfold nodeTag
  rw [BitVec.extractLsb'_toNat, Nat.shiftRight_eq_div_pow]
  omega

theorem nodeSym_toNat (w : Word) : (nodeSym w).toNat = w.toNat % 2 ^ 8 := by
  unfold nodeSym
  rw [BitVec.extractLsb'_toNat, Nat.shiftRight_zero]

theorem nodeLeft_toNat (w : Word) : (nodeLeft w).toNat = w.toNat % 2 ^ 9 := by
  unfold nodeLeft
  rw [BitVec.extractLsb'_toNat, Nat.shiftRight_zero]

theorem nodeRight_toNat (w : Word) : (nodeRight w).toNat = w.toNat / 2 ^ 16 % 2 ^ 9 := by
  unfold nodeRight
  rw [BitVec.extractLsb'_toNat, Nat.shiftRight_eq_div_pow]

theorem leafWord_toNat (y : Byte) : (leafWord y).toNat = 0x40000000 + y.toNat := by
  have := y.isLt
  unfold leafWord
  rw [BitVec.toNat_or, BitVec.toNat_setWidth, Nat.mod_eq_of_lt (by omega)]
  exact (Nat.two_pow_add_eq_or_of_lt (i := 30) (by omega) 1).symm

theorem internalWord_toNat (l r : NodeIdx) :
    (internalWord l r).toNat = 0x80000000 + r.toNat * 2 ^ 16 + l.toNat := by
  have hl := l.isLt
  have hr := r.isLt
  unfold internalWord
  rw [BitVec.toNat_or, BitVec.toNat_or, BitVec.toNat_shiftLeft, BitVec.toNat_setWidth, BitVec.toNat_setWidth,
    Nat.shiftLeft_eq, Nat.mod_eq_of_lt (a := r.toNat) (by omega), Nat.mod_eq_of_lt (a := l.toNat) (by omega),
    Nat.mod_eq_of_lt (by omega)]
  have h1 : (0x80000000#32).toNat ||| r.toNat * 2 ^ 16 = 0x80000000 + r.toNat * 2 ^ 16 :=
    (Nat.two_pow_add_eq_or_of_lt (i := 31) (by omega) 1).symm
  rw [h1, show 0x80000000 + r.toNat * 2 ^ 16 = 2 ^ 16 * (0x8000 + r.toNat) by omega]
  exact (Nat.two_pow_add_eq_or_of_lt (by omega) _).symm

theorem isLeaf_iff (w : Word) : isLeaf w = true ↔ w.toNat / 2 ^ 30 = 1 := by
  unfold isLeaf
  rw [beq_iff_eq, ← nodeTag_toNat, ← BitVec.toNat_inj]
  rfl

theorem isInt_iff (w : Word) : isInt w = true ↔ w.toNat / 2 ^ 30 = 2 := by
  unfold isInt
  rw [beq_iff_eq, ← nodeTag_toNat, ← BitVec.toNat_inj]
  rfl

/-- No word is both. -/
theorem isLeaf_eq_false_of_isInt {w : Word} (h : isInt w = true) : isLeaf w = false := by
  rw [isInt_iff] at h
  rw [Bool.eq_false_iff, ne_eq, isLeaf_iff, h]
  decide

end Sys2Proof
end

