-- ==== Sys2Proof/Laws/Memory.lean ====
section
/-! SUPPORT. What the memory operations of Machine/Ops.lean do: read after write, the canonical form, words of
several bytes, the RAMs of the address map, clearing and scrambling a RAM. -/

namespace Sys2Proof

theorem Params.inCap_le (p : Params) : p.inCap ≤ 65536 := p.inCapM1.isLt
theorem Params.inCap_pos (p : Params) : 1 ≤ p.inCap := Nat.le_add_left 1 _
theorem Params.outCap_le (p : Params) : p.outCap ≤ 65536 := p.outCapM1.isLt
theorem Params.outCap_pos (p : Params) : 1 ≤ p.outCap := Nat.le_add_left 1 _

end Sys2Proof

namespace Sys2Proof.Machine

/-! ## One byte -/

@[simp] theorem readByte_nil (a : Nat) : readByte [] a = 0 := rfl

theorem readByte_cons (c : Host.Cell) (m : Memory) (a : Nat) :
    readByte (c :: m) a = if c.1 = a then c.2 else readByte m a := rfl

theorem readByte_filter (m : Memory) (f : Nat → Bool) (a : Nat) :
    readByte (m.filter (fun c => f c.1)) a = if f a then readByte m a else 0 := by
  induction m with
  | nil => simp
  | cons c m ih =>
    by_cases hc : f c.1 = true
    · rw [List.filter_cons_of_pos (by exact hc), readByte_cons, ih, readByte_cons]
      by_cases h : c.1 = a
      · subst h; simp [hc]
      · simp [h]
    · rw [List.filter_cons_of_neg (by simpa using hc), ih, readByte_cons]
      by_cases h : c.1 = a
      · subst h; simp [hc]
      · simp [h]

theorem readByte_eraseByte (m : Memory) (a b : Nat) :
    readByte (eraseByte m a) b = if a = b then 0 else readByte m b := by
  unfold eraseByte
  rw [readByte_filter m (fun x => x != a)]
  by_cases h : a = b
  · subst h; simp
  · have : b ≠ a := fun e => h e.symm
    simp [h, this]

theorem readByte_insertByte (m : Memory) (a : Nat) (v : Byte) (b : Nat) (h : readByte m a = 0)
    (hm : ∀ c ∈ m, c.1 ≠ a) : readByte (insertByte a v m) b = if a = b then v else readByte m b := by
  induction m with
  | nil => simp [insertByte, readByte_cons]
  | cons c m ih =>
    have hca : c.1 ≠ a := hm c (by simp)
    have hma : ∀ d ∈ m, d.1 ≠ a := fun d hd => hm d (by simp [hd])
    have h0 : readByte m a = 0 := by rw [readByte_cons, if_neg hca] at h; exact h
    unfold insertByte
    split
    · rw [readByte_cons]
    · rw [readByte_cons, ih h0 hma, readByte_cons]
      by_cases hb : a = b
      · subst hb; simp [hca]
      · simp [hb]

/-- Read after write, at every address and of every memory. -/
theorem readByte_writeByte (m : Memory) (a : Nat) (v : Byte) (b : Nat) :
    readByte (writeByte m a v) b = if a = b then v else readByte m b := by
  unfold writeByte
  by_cases hv : v = 0
  · rw [if_pos hv, readByte_eraseByte, hv]
  · rw [if_neg hv, readByte_insertByte _ _ _ _ (by rw [readByte_eraseByte]; simp)
      (by intro c hc; simpa using (List.mem_filter.mp hc).2), readByte_eraseByte]
    by_cases h : a = b <;> simp [h]

@[simp] theorem readByte_writeByte_same (m : Memory) (a : Nat) (v : Byte) : readByte (writeByte m a v) a = v := by
  rw [readByte_writeByte, if_pos rfl]

theorem readByte_writeByte_other (m : Memory) (v : Byte) {a b : Nat} (h : a ≠ b) :
    readByte (writeByte m a v) b = readByte m b := by
  rw [readByte_writeByte, if_neg h]

/-! ## The canonical form -/

/-- The canonical form as two facts about the whole list. -/
theorem Memory.wf_iff (m : Memory) :
    Memory.wf m = true ↔ m.Pairwise (fun c d => c.1 < d.1) ∧ ∀ c ∈ m, c.2 ≠ 0 := by
  induction m with
  | nil => simp [Memory.wf]
  | cons c m ih =>
    cases m with
    | nil => simp [Memory.wf]
    | cons d m =>
      simp only [Memory.wf, Bool.and_eq_true, bne_iff_ne, ne_eq, decide_eq_true_eq, ih, List.pairwise_cons,
        List.mem_cons, forall_eq_or_imp]
      constructor
      · rintro ⟨⟨h0, h1⟩, ⟨h2, h3⟩, h4⟩
        exact ⟨⟨⟨h1, fun e he => lt_trans h1 (h2 e he)⟩, h2, h3⟩, h0, h4⟩
      · rintro ⟨⟨⟨h1, _⟩, h2, h3⟩, h0, h4⟩
        exact ⟨⟨h0, h1⟩, ⟨h2, h3⟩, h4⟩

theorem Memory.wf_nil : Memory.wf [] = true := rfl

theorem Memory.wf_filter {m : Memory} (h : Memory.wf m = true) (f : Host.Cell → Bool) :
    Memory.wf (m.filter f) = true := by
  rw [Memory.wf_iff] at h ⊢
  exact ⟨h.1.filter f, fun c hc => h.2 c (List.mem_filter.mp hc).1⟩

theorem mem_insertByte (a : Nat) (v : Byte) (m : Memory) (c : Host.Cell) :
    c ∈ insertByte a v m ↔ c = (a, v) ∨ c ∈ m := by
  induction m with
  | nil => simp [insertByte]
  | cons d m ih =>
    unfold insertByte
    split
    · simp
    · simp only [List.mem_cons, ih]; tauto

theorem Memory.wf_insertByte {m : Memory} (h : Memory.wf m = true) {a : Nat} {v : Byte} (hv : v ≠ 0)
    (hm : ∀ c ∈ m, c.1 ≠ a) : Memory.wf (insertByte a v m) = true := by
  rw [Memory.wf_iff] at h ⊢
  obtain ⟨hp, hz⟩ := h
  refine ⟨?_, fun c hc => ?_⟩
  · induction m with
    | nil => simp [insertByte]
    | cons d m ih =>
      rw [List.pairwise_cons] at hp
      have hda : d.1 ≠ a := hm d (by simp)
      unfold insertByte
      split
      · rename_i hlt
        rw [List.pairwise_cons, List.pairwise_cons]
        refine ⟨fun e he => ?_, hp⟩
        rcases List.mem_cons.mp he with rfl | he
        · exact hlt
        · exact lt_trans hlt (hp.1 e he)
      · rename_i hge
        rw [List.pairwise_cons]
        refine ⟨fun e he => ?_, ih (fun c hc => hm c (by simp [hc])) hp.2 (fun c hc => hz c (by simp [hc]))⟩
        rcases (mem_insertByte a v m e).mp he with rfl | he
        · show d.1 < a
          omega
        · exact hp.1 e he
  · rcases (mem_insertByte a v m c).mp hc with rfl | hc
    · exact hv
    · exact hz c hc

/-- Every write keeps the canonical form. -/
theorem Memory.wf_writeByte {m : Memory} (h : Memory.wf m = true) (a : Nat) (v : Byte) :
    Memory.wf (writeByte m a v) = true := by
  unfold writeByte
  split
  · exact Memory.wf_filter h _
  · rename_i hv
    exact Memory.wf_insertByte (Memory.wf_filter h _) hv
      (fun c hc => by simpa using (List.mem_filter.mp hc).2)

theorem mem_of_readByte_ne_zero (m : Memory) (a : Nat) (h : readByte m a ≠ 0) : (a, readByte m a) ∈ m := by
  induction m with
  | nil => exact absurd rfl h
  | cons c m ih =>
    rw [readByte_cons] at h ⊢
    by_cases hc : c.1 = a
    · rw [if_pos hc, ← hc]; simp
    · rw [if_neg hc] at h ⊢
      exact List.mem_cons_of_mem _ (ih h)

/-- In a memory in canonical form an address is listed exactly when it does not read 0. -/
theorem mem_iff_readByte {m : Memory} (h : Memory.wf m = true) (a : Nat) (v : Byte) :
    (a, v) ∈ m ↔ readByte m a = v ∧ v ≠ 0 := by
  rw [Memory.wf_iff] at h
  obtain ⟨hp, hz⟩ := h
  refine ⟨fun hm => ⟨?_, hz _ hm⟩, fun ⟨hr, hv⟩ => hr ▸ mem_of_readByte_ne_zero m a (hr ▸ hv)⟩
  clear hz
  induction m with
  | nil => simp at hm
  | cons c m ih =>
    rw [List.pairwise_cons] at hp
    rw [readByte_cons]
    rcases List.mem_cons.mp hm with rfl | hm
    · simp
    · rw [if_neg (Nat.ne_of_lt (hp.1 _ hm)), ih hp.2 hm]

/-- Memories in canonical form that read the same at every address are the same list. -/
theorem Memory.ext {m m' : Memory} (h : Memory.wf m = true) (h' : Memory.wf m' = true)
    (hr : ∀ a, readByte m a = readByte m' a) : m = m' := by
  have hmem : ∀ c, c ∈ m ↔ c ∈ m' := fun c => by
    rw [show c = (c.1, c.2) from rfl, mem_iff_readByte h, mem_iff_readByte h', hr]
  rw [Memory.wf_iff] at h h'
  have hn : ∀ {l : Memory}, l.Pairwise (fun c d => c.1 < d.1) → l.Nodup :=
    fun hp => hp.imp (fun {c d} hlt he => absurd hlt (by rw [he]; exact lt_irrefl _))
  exact List.Perm.eq_of_pairwise (fun a b _ _ hab hba => absurd hab (not_lt.mpr hba.le)) h.1 h'.1
    ((List.perm_ext_iff_of_nodup (hn h.1) (hn h'.1)).mpr hmem)

/-! ## Values of several bytes -/

theorem readLE_lt (m : Memory) (a n : Nat) : readLE m a n < 256 ^ n := by
  induction n generalizing a with
  | zero => simp [readLE]
  | succ n ih =>
    have h1 := ih (a + 1)
    have h2 : (readByte m a).toNat < 256 := (readByte m a).isLt
    rw [readLE, pow_succ]
    omega

/-- Bytes little-endian, cut in two. -/
theorem readLE_add (m : Memory) (a n k : Nat) : readLE m a (n + k) = readLE m a n + 256 ^ n * readLE m (a + n) k := by
  induction n generalizing a with
  | zero => simp [readLE]
  | succ n ih =>
    rw [show n + 1 + k = (n + k) + 1 by omega, readLE, readLE, ih, show a + 1 + n = a + (n + 1) by omega, pow_succ]
    ring

/-- A slice of the bytes is a slice of the number. -/
theorem readLE_slice (m : Memory) (a : Nat) {n i k : Nat} (h : i + k ≤ n) :
    readLE m (a + i) k = readLE m a n / 256 ^ i % 256 ^ k := by
  obtain ⟨r, rfl⟩ : ∃ r, n = i + (k + r) := ⟨n - i - k, by omega⟩
  have h1 := readLE_lt m a i
  have h2 := readLE_lt m (a + i) k
  rw [readLE_add, readLE_add m (a + i) k r, Nat.add_mul_div_left _ _ (Nat.pow_pos (by decide)), Nat.div_eq_of_lt h1,
    Nat.zero_add, Nat.add_mul_mod_self_left, Nat.mod_eq_of_lt h2]

theorem readLE_congr {m m' : Memory} {a n : Nat}
    (h : ∀ b, a ≤ b → b < a + n → readByte m b = readByte m' b) : readLE m a n = readLE m' a n := by
  induction n generalizing a with
  | zero => rfl
  | succ n ih =>
    rw [readLE, readLE, h a (by omega) (by omega), ih (fun b h1 h2 => h b (by omega) (by omega))]

/-- Byte by byte, what a store of `n` bytes leaves. -/
theorem readByte_writeLE (m : Memory) (a n v b : Nat) :
    readByte (writeLE m a n v) b =
      if a ≤ b ∧ b < a + n then BitVec.ofNat 8 (v / 256 ^ (b - a)) else readByte m b := by
  induction n generalizing a v with
  | zero => rw [writeLE, if_neg (by omega)]
  | succ n ih =>
    rw [writeLE, readByte_writeByte, ih]
    by_cases h : a = b
    · subst h
      rw [if_pos rfl, if_pos (by omega)]
      simp
    · rw [if_neg h]
      by_cases h1 : a + 1 ≤ b ∧ b < a + 1 + n
      · rw [if_pos h1, if_pos (by omega), Nat.div_div_eq_div_mul, show b - a = (b - (a + 1)) + 1 by omega, pow_succ,
          mul_comm 256]
      · rw [if_neg h1, if_neg (by omega)]

theorem readByte_writeLE_outside (m : Memory) {a n b : Nat} (v : Nat) (h : b < a ∨ a + n ≤ b) :
    readByte (writeLE m a n v) b = readByte m b := by
  rw [readByte_writeLE, if_neg (by omega)]

theorem readLE_writeLE_same (m : Memory) (a n v : Nat) : readLE (writeLE m a n v) a n = v % 256 ^ n := by
  induction n generalizing a v with
  | zero => simp [readLE, Nat.mod_one]
  | succ n ih =>
    have h1 : readLE (writeLE m a (n + 1) v) (a + 1) n = readLE (writeLE m (a + 1) n (v / 256)) (a + 1) n :=
      readLE_congr fun b h1 _ => by rw [writeLE, readByte_writeByte_other _ _ (by omega)]
    rw [readLE, h1, ih, writeLE, readByte_writeByte_same, pow_succ, mul_comm _ 256, Nat.mod_mul, BitVec.toNat_ofNat]

theorem readLE_writeLE_disjoint (m : Memory) {a n b k : Nat} (v : Nat) (h : b + k ≤ a ∨ a + n ≤ b) :
    readLE (writeLE m a n v) b k = readLE m b k :=
  readLE_congr fun c h1 h2 => readByte_writeLE_outside m v (by omega)

theorem Memory.wf_writeLE {m : Memory} (h : Memory.wf m = true) (a n v : Nat) :
    Memory.wf (writeLE m a n v) = true := by
  induction n generalizing a v with
  | zero => exact h
  | succ n ih => exact Memory.wf_writeByte (ih _ _) _ _

/-! ## Where bytes may be listed -/

theorem Memory.resides_iff (p : Params) (m : Memory) :
    Memory.resides p m = true ↔ ∀ c ∈ m, ∃ r : Ram, r.owns p c.1 = true := by
  unfold Memory.resides
  rw [List.all_eq_true]
  refine forall₂_congr fun c _ => ?_
  rw [List.any_eq_true]
  exact ⟨fun ⟨r, _, h⟩ => ⟨r, h⟩, fun ⟨r, h⟩ => ⟨r, by cases r <;> simp [Ram.all], h⟩⟩

theorem Memory.resides_filter {p : Params} {m : Memory} (h : Memory.resides p m = true) (f : Host.Cell → Bool) :
    Memory.resides p (m.filter f) = true := by
  rw [Memory.resides_iff] at h ⊢
  exact fun c hc => h c (List.mem_filter.mp hc).1

theorem Memory.resides_writeByte {p : Params} {m : Memory} (h : Memory.resides p m = true) {a : Nat} (v : Byte)
    (r : Ram) (ha : r.owns p a = true) : Memory.resides p (writeByte m a v) = true := by
  have he : Memory.resides p (eraseByte m a) = true := Memory.resides_filter h _
  unfold writeByte
  split
  · exact he
  · rw [Memory.resides_iff] at he ⊢
    intro c hc
    rcases (mem_insertByte a v _ c).mp hc with rfl | hc
    · exact ⟨r, ha⟩
    · exact he c hc

theorem Memory.resides_writeLE {p : Params} {m : Memory} (h : Memory.resides p m = true) {a n : Nat} (v : Nat)
    (r : Ram) (ha : ∀ b, a ≤ b → b < a + n → r.owns p b = true) : Memory.resides p (writeLE m a n v) = true := by
  induction n generalizing a v with
  | zero => exact h
  | succ n ih =>
    exact Memory.resides_writeByte (ih _ fun b h1 h2 => ha b (by omega) (by omega)) _ r (ha a (by omega) (by omega))

/-! ## The RAMs -/

theorem freq_congr {m m' : Memory} (h : ∀ a, 0x400 ≤ a → a < 0x800 → readByte m a = readByte m' a) (y : Byte) :
    freq m y = freq m' y := by
  have := y.isLt
  unfold freq freqAddr
  rw [readLE_congr fun b h1 h2 => h b (by omega) (by omega)]

theorem node_congr {m m' : Memory} (h : ∀ a, 0x800 ≤ a → a < 0x1000 → readByte m a = readByte m' a) (i : NodeIdx) :
    node m i = node m' i := by
  have := i.isLt
  unfold node nodeAddr
  rw [readLE_congr fun b h1 h2 => h b (by omega) (by omega)]

theorem codeLen_congr {m m' : Memory} (h : ∀ a, 0x1000 ≤ a → a < 0x1400 → readByte m a = readByte m' a) (y : Byte) :
    codeLen m y = codeLen m' y := by
  have := y.isLt
  exact h _ (by unfold codeLenAddr; omega) (by unfold codeLenAddr; omega)

theorem codeVal_congr {m m' : Memory} (h : ∀ a, 0x2000 ≤ a → a < 0x4000 → readByte m a = readByte m' a) (y : Byte) :
    codeVal m y = codeVal m' y := by
  have := y.isLt
  unfold codeVal codeValAddr
  rw [readLE_congr fun b h1 h2 => h b (by omega) (by omega)]

theorem codeOf_lens_congr {m m' : Memory} (h : ∀ a, 0x1000 ≤ a → a < 0x4000 → readByte m a = readByte m' a) (y : Byte) :
    codeLen m y = codeLen m' y ∧ codeVal m y = codeVal m' y :=
  ⟨codeLen_congr (fun a h1 h2 => h a h1 (by omega)) y, codeVal_congr (fun a h1 h2 => h a (by omega) h2) y⟩

theorem inByte_congr {p : Params} {m m' : Memory}
    (h : ∀ a, 0x10000 ≤ a → a < 0x20000 → readByte m a = readByte m' a) (j : Nat) :
    inByte p m j = inByte p m' j := by
  have := p.inCap_le
  unfold inByte inBufAddr
  split
  · exact h _ (by omega) (by omega)
  · rfl

theorem outByte_congr {p : Params} {m m' : Memory}
    (h : ∀ a, 0x20000 ≤ a → a < 0x30000 → readByte m a = readByte m' a) (j : Nat) :
    outByte p m j = outByte p m' j := by
  have := p.outCap_le
  unfold outByte outBufAddr
  split
  · exact h _ (by omega) (by omega)
  · rfl

theorem freq_setFreq (m : Memory) (y : Byte) (v : Word) (z : Byte) :
    freq (setFreq m y v) z = if y = z then v else freq m z := by
  unfold freq setFreq freqAddr
  by_cases h : y = z
  · subst h
    rw [if_pos rfl, readLE_writeLE_same]
    apply BitVec.eq_of_toNat_eq
    have := v.isLt
    rw [BitVec.toNat_ofNat]
    omega
  · have : y.toNat ≠ z.toNat := fun e => h (BitVec.eq_of_toNat_eq e)
    rw [if_neg h, readLE_writeLE_disjoint _ _ (by omega)]

theorem node_setNode (m : Memory) (i : NodeIdx) (v : Word) (j : NodeIdx) :
    node (setNode m i v) j = if i = j then v else node m j := by
  unfold node setNode nodeAddr
  by_cases h : i = j
  · subst h
    rw [if_pos rfl, readLE_writeLE_same]
    apply BitVec.eq_of_toNat_eq
    have := v.isLt
    rw [BitVec.toNat_ofNat]
    omega
  · have : i.toNat ≠ j.toNat := fun e => h (BitVec.eq_of_toNat_eq e)
    rw [if_neg h, readLE_writeLE_disjoint _ _ (by omega)]

theorem codeLen_setCodeLen (m : Memory) (y v z : Byte) :
    codeLen (setCodeLen m y v) z = if y = z then v else codeLen m z := by
  unfold codeLen setCodeLen codeLenAddr
  rw [readByte_writeByte]
  by_cases h : y = z
  · subst h; simp
  · have : y.toNat ≠ z.toNat := fun e => h (BitVec.eq_of_toNat_eq e)
    rw [if_neg h, if_neg (by omega)]

theorem codeVal_setCodeVal (m : Memory) (y : Byte) (v : CodeVal) (z : Byte) :
    codeVal (setCodeVal m y v) z = if y = z then v else codeVal m z := by
  unfold codeVal setCodeVal codeValAddr
  by_cases h : y = z
  · subst h
    rw [if_pos rfl, readLE_writeLE_same]
    apply BitVec.eq_of_toNat_eq
    have := v.isLt
    rw [BitVec.toNat_ofNat]
    omega
  · have : y.toNat ≠ z.toNat := fun e => h (BitVec.eq_of_toNat_eq e)
    rw [if_neg h, readLE_writeLE_disjoint _ _ (by omega)]

/-- A word of a code value is its 32-bit slice (R50). -/
theorem codeValWord_eq (m : Memory) (y : Byte) {k : Nat} (hk : k < 8) :
    codeValWord m y k = (codeVal m y).extractLsb' (32 * k) 32 := by
  apply BitVec.eq_of_toNat_eq
  unfold codeValWord codeVal
  have h : readLE m (codeValAddr y) 32 < 2 ^ 256 := readLE_lt m (codeValAddr y) 32
  rw [BitVec.extractLsb'_toNat, BitVec.toNat_ofNat, BitVec.toNat_ofNat, Nat.mod_eq_of_lt (a := readLE m (codeValAddr y) 32) h,
    readLE_slice m (codeValAddr y) (n := 32) (i := 4 * k) (k := 4) (by omega), Nat.shiftRight_eq_div_pow]
  rw [show (256 : Nat) ^ (4 * k) = 2 ^ (32 * k) by rw [show (256 : Nat) = 2 ^ 8 from rfl, ← Nat.pow_mul]; congr 1; omega]
  exact Nat.mod_mod _ _

theorem codeValWord_setCodeValWord (m : Memory) (y : Byte) (k : Nat) (v : Word) (z : Byte) (l : Nat) (hk : k < 8)
    (hl : l < 8) :
    codeValWord (setCodeValWord m y k v) z l = if y = z ∧ k = l then v else codeValWord m z l := by
  unfold codeValWord setCodeValWord codeValAddr
  by_cases h : y = z ∧ k = l
  · obtain ⟨rfl, rfl⟩ := h
    rw [if_pos ⟨rfl, rfl⟩, readLE_writeLE_same]
    apply BitVec.eq_of_toNat_eq
    have := v.isLt
    rw [BitVec.toNat_ofNat]
    omega
  · have : y.toNat ≠ z.toNat ∨ k ≠ l := by
      by_contra hh
      rw [not_or, not_not, not_not] at hh
      exact h ⟨BitVec.eq_of_toNat_eq hh.1, hh.2⟩
    rw [if_neg h, readLE_writeLE_disjoint _ _ (by omega)]

theorem readByte_setFreq_outside (m : Memory) (y : Byte) (v : Word) {a : Nat} (h : a < 0x400 ∨ 0x800 ≤ a) :
    readByte (setFreq m y v) a = readByte m a := by
  have := y.isLt
  exact readByte_writeLE_outside _ _ (by unfold freqAddr; omega)

theorem readByte_setNode_outside (m : Memory) (i : NodeIdx) (v : Word) {a : Nat} (h : a < 0x800 ∨ 0x1000 ≤ a) :
    readByte (setNode m i v) a = readByte m a := by
  have := i.isLt
  exact readByte_writeLE_outside _ _ (by unfold nodeAddr; omega)

theorem readByte_setCodeLen_outside (m : Memory) (y v : Byte) {a : Nat} (h : a < 0x1000 ∨ 0x1400 ≤ a) :
    readByte (setCodeLen m y v) a = readByte m a := by
  have := y.isLt
  exact readByte_writeByte_other _ _ (by unfold codeLenAddr; omega)

theorem readByte_setCodeVal_outside (m : Memory) (y : Byte) (v : CodeVal) {a : Nat} (h : a < 0x2000 ∨ 0x4000 ≤ a) :
    readByte (setCodeVal m y v) a = readByte m a := by
  have := y.isLt
  exact readByte_writeLE_outside _ _ (by unfold codeValAddr; omega)

theorem readByte_setCodeValWord_outside (m : Memory) (y : Byte) (k : Nat) (hk : k < 8) (v : Word) {a : Nat}
    (h : a < 0x2000 ∨ 0x4000 ≤ a) : readByte (setCodeValWord m y k v) a = readByte m a := by
  have := y.isLt
  exact readByte_writeLE_outside _ _ (by unfold codeValAddr; omega)

theorem readByte_setOutByte (p : Params) (m : Memory) (j : Nat) (v : Byte) (a : Nat) :
    readByte (setOutByte p m j v) a = if j < p.outCap ∧ a = 0x20000 + j then v else readByte m a := by
  unfold setOutByte outBufAddr
  by_cases h : j < p.outCap
  · rw [if_pos h, readByte_writeByte]
    by_cases ha : 0x20000 + j = a
    · rw [if_pos ha, if_pos ⟨h, ha.symm⟩]
    · rw [if_neg ha, if_neg (by omega)]
  · rw [if_neg h, if_neg (by omega)]

theorem readByte_setInByte (p : Params) (m : Memory) (j : Nat) (v : Byte) (a : Nat) :
    readByte (setInByte p m j v) a = if j < p.inCap ∧ a = 0x10000 + j then v else readByte m a := by
  unfold setInByte inBufAddr
  by_cases h : j < p.inCap
  · rw [if_pos h, readByte_writeByte]
    by_cases ha : 0x10000 + j = a
    · rw [if_pos ha, if_pos ⟨h, ha.symm⟩]
    · rw [if_neg ha, if_neg (by omega)]
  · rw [if_neg h, if_neg (by omega)]

theorem outByte_setOutByte (p : Params) (m : Memory) (j : Nat) (v : Byte) (k : Nat) :
    outByte p (setOutByte p m j v) k = if j < p.outCap ∧ k = j then v else outByte p m k := by
  unfold outByte outBufAddr
  rw [readByte_setOutByte]
  by_cases hk : k < p.outCap
  · simp only [if_pos hk]
    by_cases h : k = j
    · subst h; simp [hk]
    · rw [if_neg (by omega), if_neg (by omega)]
  · simp only [if_neg hk]
    rw [if_neg (by omega)]

theorem inByte_setInByte (p : Params) (m : Memory) (j : Nat) (v : Byte) (k : Nat) :
    inByte p (setInByte p m j v) k = if j < p.inCap ∧ k = j then v else inByte p m k := by
  unfold inByte inBufAddr
  rw [readByte_setInByte]
  by_cases hk : k < p.inCap
  · simp only [if_pos hk]
    by_cases h : k = j
    · subst h; simp [hk]
    · rw [if_neg (by omega), if_neg (by omega)]
  · simp only [if_neg hk]
    rw [if_neg (by omega)]

theorem Memory.wf_setOutByte {m : Memory} (h : Memory.wf m = true) (p : Params) (j : Nat) (v : Byte) :
    Memory.wf (setOutByte p m j v) = true := by
  unfold setOutByte; split
  · exact Memory.wf_writeByte h _ _
  · exact h

theorem Memory.wf_setInByte {m : Memory} (h : Memory.wf m = true) (p : Params) (j : Nat) (v : Byte) :
    Memory.wf (setInByte p m j v) = true := by
  unfold setInByte; split
  · exact Memory.wf_writeByte h _ _
  · exact h

theorem Memory.wf_setFreq {m : Memory} (h : Memory.wf m = true) (y : Byte) (v : Word) :
    Memory.wf (setFreq m y v) = true := Memory.wf_writeLE h _ _ _

theorem Memory.wf_setNode {m : Memory} (h : Memory.wf m = true) (i : NodeIdx) (v : Word) :
    Memory.wf (setNode m i v) = true := Memory.wf_writeLE h _ _ _

theorem Memory.wf_setCodeLen {m : Memory} (h : Memory.wf m = true) (y v : Byte) :
    Memory.wf (setCodeLen m y v) = true := Memory.wf_writeByte h _ _

theorem Memory.wf_setCodeVal {m : Memory} (h : Memory.wf m = true) (y : Byte) (v : CodeVal) :
    Memory.wf (setCodeVal m y v) = true := Memory.wf_writeLE h _ _ _

theorem Memory.wf_setCodeValWord {m : Memory} (h : Memory.wf m = true) (y : Byte) (k : Nat) (v : Word) :
    Memory.wf (setCodeValWord m y k v) = true := Memory.wf_writeLE h _ _ _

theorem Memory.resides_setFreq {p : Params} {m : Memory} (h : Memory.resides p m = true) (y : Byte) (v : Word) :
    Memory.resides p (setFreq m y v) = true :=
  Memory.resides_writeLE h _ .freq fun b h1 h2 => by
    have := y.isLt; unfold freqAddr at h1 h2; simp [Ram.owns]; omega

theorem Memory.resides_setNode {p : Params} {m : Memory} (h : Memory.resides p m = true) (i : NodeIdx) (v : Word) :
    Memory.resides p (setNode m i v) = true :=
  Memory.resides_writeLE h _ .node fun b h1 h2 => by
    have := i.isLt; unfold nodeAddr at h1 h2; simp [Ram.owns]; omega

theorem Memory.resides_setCodeLen {p : Params} {m : Memory} (h : Memory.resides p m = true) (y v : Byte) :
    Memory.resides p (setCodeLen m y v) = true :=
  Memory.resides_writeByte h _ .codeLen (by have := y.isLt; unfold codeLenAddr; simp [Ram.owns]; omega)

theorem Memory.resides_setCodeVal {p : Params} {m : Memory} (h : Memory.resides p m = true) (y : Byte) (v : CodeVal) :
    Memory.resides p (setCodeVal m y v) = true :=
  Memory.resides_writeLE h _ .codeVal fun b h1 h2 => by
    have := y.isLt; unfold codeValAddr at h1 h2; simp [Ram.owns]; omega

theorem Memory.resides_setCodeValWord {p : Params} {m : Memory} (h : Memory.resides p m = true) (y : Byte) {k : Nat}
    (hk : k < 8) (v : Word) : Memory.resides p (setCodeValWord m y k v) = true :=
  Memory.resides_writeLE h _ .codeVal fun b h1 h2 => by
    have := y.isLt; unfold codeValAddr at h1 h2; simp [Ram.owns]; omega

theorem Memory.resides_setOutByte {p : Params} {m : Memory} (h : Memory.resides p m = true) (j : Nat) (v : Byte) :
    Memory.resides p (setOutByte p m j v) = true := by
  unfold setOutByte; split
  · rename_i hj
    exact Memory.resides_writeByte h _ .outBuf (by unfold outBufAddr; simp [Ram.owns]; omega)
  · exact h

theorem Memory.resides_setInByte {p : Params} {m : Memory} (h : Memory.resides p m = true) (j : Nat) (v : Byte) :
    Memory.resides p (setInByte p m j v) = true := by
  unfold setInByte; split
  · rename_i hj
    exact Memory.resides_writeByte h _ .inBuf (by unfold inBufAddr; simp [Ram.owns]; omega)
  · exact h

/-! ## Clearing a RAM -/

theorem readByte_clearRam (p : Params) (r : Ram) (m : Memory) (a : Nat) :
    readByte (clearRam p r m) a = if r.owns p a then 0 else readByte m a := by
  unfold clearRam
  rw [readByte_filter m (fun x => !r.owns p x)]
  cases r.owns p a <;> rfl

theorem Memory.wf_clearRam {m : Memory} (h : Memory.wf m = true) (p : Params) (r : Ram) :
    Memory.wf (clearRam p r m) = true := Memory.wf_filter h _

theorem Memory.resides_clearRam {p : Params} {m : Memory} (h : Memory.resides p m = true) (r : Ram) :
    Memory.resides p (clearRam p r m) = true := Memory.resides_filter h _

theorem readLE_zero {m : Memory} {a n : Nat} (h : ∀ b, a ≤ b → b < a + n → readByte m b = 0) : readLE m a n = 0 := by
  induction n generalizing a with
  | zero => rfl
  | succ n ih => rw [readLE, h a (by omega) (by omega), ih fun b h1 h2 => h b (by omega) (by omega)]; rfl

theorem freq_clearRam (p : Params) (m : Memory) (y : Byte) : freq (clearRam p .freq m) y = 0 := by
  have := y.isLt
  unfold freq freqAddr
  rw [readLE_zero fun b h1 h2 => by rw [readByte_clearRam, if_pos (by simp [Ram.owns]; omega)]]
  rfl

theorem node_clearRam (p : Params) (m : Memory) (i : NodeIdx) : node (clearRam p .node m) i = 0 := by
  have := i.isLt
  unfold node nodeAddr
  rw [readLE_zero fun b h1 h2 => by rw [readByte_clearRam, if_pos (by simp [Ram.owns]; omega)]]
  rfl

theorem codeLen_clearRam (p : Params) (m : Memory) (y : Byte) : codeLen (clearRam p .codeLen m) y = 0 := by
  have := y.isLt
  unfold codeLen codeLenAddr
  rw [readByte_clearRam, if_pos (by simp [Ram.owns]; omega)]

theorem codeVal_clearRam (p : Params) (m : Memory) (y : Byte) : codeVal (clearRam p .codeVal m) y = 0 := by
  have := y.isLt
  unfold codeVal codeValAddr
  rw [readLE_zero fun b h1 h2 => by rw [readByte_clearRam, if_pos (by simp [Ram.owns]; omega)]]
  rfl

/-! ## Unspecified contents -/

theorem Ram.mem_addrs (p : Params) (r : Ram) (a : Nat) : a ∈ r.addrs p ↔ r.owns p a = true := by
  cases r <;> simp only [Ram.addrs, Ram.owns, Bool.and_eq_true, decide_eq_true_eq, beq_iff_eq]
  case codeLen =>
    rw [List.mem_range']
    constructor
    · rintro ⟨i, hi, rfl⟩; omega
    · rintro ⟨⟨h1, h2⟩, h3⟩; exact ⟨(a - 0x1000) / 4, by omega, by omega⟩
  all_goals rw [List.mem_range'_1]

theorem readByte_foldr_writeByte (f : Nat → Byte) (l : List Nat) (m : Memory) (a : Nat) :
    readByte (l.foldr (fun b m' => writeByte m' b (f b)) m) a = if a ∈ l then f a else readByte m a := by
  induction l with
  | nil => simp
  | cons b l ih =>
    rw [List.foldr_cons, readByte_writeByte, ih]
    by_cases h : b = a
    · subst h; simp
    · have : a ≠ b := fun e => h e.symm
      simp [h, this]

/-- Every byte of a scrambled RAM is the free value of that draw; every other byte is kept. -/
theorem readByte_scrambleRam (p : Params) (n : Nat) (r : Ram) (m : Memory) (a : Nat) :
    readByte (scrambleRam p n r m) a = if r.owns p a then Config.freeByte n a else readByte m a := by
  unfold scrambleRam
  rw [readByte_foldr_writeByte]
  by_cases h : r.owns p a = true
  · rw [if_pos ((Ram.mem_addrs p r a).mpr h), if_pos h]
  · rw [if_neg (fun hm => h ((Ram.mem_addrs p r a).mp hm)), if_neg h]

theorem Memory.wf_scrambleRam {m : Memory} (h : Memory.wf m = true) (p : Params) (n : Nat) (r : Ram) :
    Memory.wf (scrambleRam p n r m) = true := by
  unfold scrambleRam
  generalize r.addrs p = l
  induction l with
  | nil => exact h
  | cons b l ih => exact Memory.wf_writeByte ih _ _

theorem Memory.resides_scrambleRam {p : Params} {m : Memory} (h : Memory.resides p m = true) (n : Nat) (r : Ram) :
    Memory.resides p (scrambleRam p n r m) = true := by
  unfold scrambleRam
  have hl : ∀ a ∈ r.addrs p, r.owns p a = true := fun a => (Ram.mem_addrs p r a).mp
  generalize r.addrs p = l at hl
  induction l with
  | nil => exact h
  | cons b l ih =>
    exact Memory.resides_writeByte (ih fun a ha => hl a (by simp [ha])) _ r (hl b (by simp))

theorem readByte_scrambleRams_outside (p : Params) (n : Nat) (rs : List Ram) (m : Memory) (a : Nat)
    (h : ∀ r ∈ rs, r.owns p a = false) : readByte (scrambleRams p n rs m) a = readByte m a := by
  unfold scrambleRams
  induction rs with
  | nil => rfl
  | cons r rs ih =>
    rw [List.foldr_cons, readByte_scrambleRam, h r (by simp), ih fun r' hr' => h r' (by simp [hr'])]
    simp

theorem Memory.wf_scrambleRams {m : Memory} (h : Memory.wf m = true) (p : Params) (n : Nat) (rs : List Ram) :
    Memory.wf (scrambleRams p n rs m) = true := by
  unfold scrambleRams
  induction rs with
  | nil => exact h
  | cons r rs ih => exact Memory.wf_scrambleRam ih p n r

theorem Memory.resides_scrambleRams {p : Params} {m : Memory} (h : Memory.resides p m = true) (n : Nat)
    (rs : List Ram) : Memory.resides p (scrambleRams p n rs m) = true := by
  unfold scrambleRams
  induction rs with
  | nil => exact h
  | cons r rs ih => exact Memory.resides_scrambleRam ih n r

end Sys2Proof.Machine
end

