-- ==== Sys2Proof/Laws/CodeTable.lean ====
section
/-! SUPPORT. Bit strings of code values (30_encoding.md R105) and the traversal of GEN_CODES (41_code_table.md R150 to
R152). -/

namespace Sys2Proof.Machine

/-! ## Bit strings -/

/-- The low n bits of a number, most significant first: the path string of a stack entry. -/
def natBits (v : Nat) : Nat → List Bool
  | 0 => []
  | n + 1 => v.testBit n :: natBits v n

@[simp] theorem natBits_length (v n : Nat) : (natBits v n).length = n := by
  induction n with
  | zero => rfl
  | succ n ih => simp [natBits, ih]

@[simp] theorem codeBits_length (v : CodeVal) (n : Nat) : (codeBits v n).length = n := by
  induction n with
  | zero => rfl
  | succ n ih => simp [codeBits, ih]

theorem codeBits_ofNat (v : Nat) {n : Nat} (h : n ≤ 256) : codeBits (BitVec.ofNat 256 v) n = natBits v n := by
  induction n with
  | zero => rfl
  | succ n ih =>
    rw [codeBits, natBits, ih (by omega), BitVec.getLsbD_ofNat]
    simp [show n < 256 by omega]

/-- The path of a left child (R150). -/
theorem natBits_left (v n : Nat) : natBits (2 * v) (n + 1) = natBits v n ++ [false] := by
  induction n with
  | zero => simp [natBits]
  | succ n ih =>
    rw [natBits, ih, natBits, List.cons_append]
    congr 1
    rw [Nat.testBit_succ]
    congr 1
    omega

/-- The path of a right child (R150). -/
theorem natBits_right (v n : Nat) : natBits (2 * v + 1) (n + 1) = natBits v n ++ [true] := by
  induction n with
  | zero => simp [natBits]
  | succ n ih =>
    rw [natBits, ih, natBits, List.cons_append]
    congr 1
    rw [Nat.testBit_succ]
    congr 1
    omega

/-! ## One code table entry -/

@[simp] theorem record_count (t : Table) (y : Byte) (d v : Nat) : (t.record y d v).count = t.count + 1 := rfl
@[simp] theorem record_maxl (t : Table) (y : Byte) (d v : Nat) : (t.record y d v).maxl = max t.maxl d := rfl

theorem codeLen_record (t : Table) (y : Byte) (d v : Nat) (z : Byte) :
    codeLen (t.record y d v).mem z = if y = z then BitVec.ofNat 8 d else codeLen t.mem z := by
  have h : codeLen (t.record y d v).mem z = codeLen (setCodeLen t.mem y (BitVec.ofNat 8 d)) z :=
    codeLen_congr (fun a h1 h2 => readByte_setCodeVal_outside _ _ _ (Or.inl (by omega))) z
  rw [h, codeLen_setCodeLen]

theorem codeVal_record (t : Table) (y : Byte) (d v : Nat) (z : Byte) :
    codeVal (t.record y d v).mem z = if y = z then BitVec.ofNat 256 v else codeVal t.mem z := by
  have h : codeVal (setCodeLen t.mem y (BitVec.ofNat 8 d)) z = codeVal t.mem z :=
    codeVal_congr (fun a h1 h2 => readByte_setCodeLen_outside _ _ _ (Or.inr (by omega))) z
  rw [← h]
  exact codeVal_setCodeVal _ _ _ _

/-- A recorded symbol has the path as its code; every other symbol keeps its own (R105, R152). -/
theorem codeOf_record (t : Table) (y : Byte) {d : Nat} (v : Nat) (hd : d ≤ 255) (z : Byte) :
    codeOf (t.record y d v).mem z = if y = z then natBits v d else codeOf t.mem z := by
  unfold codeOf
  rw [codeLen_record, codeVal_record]
  split
  · rw [BitVec.toNat_ofNat, Nat.mod_eq_of_lt (by omega), codeBits_ofNat v (by omega)]
  · rfl

theorem readByte_record_outside (t : Table) (y : Byte) (d v : Nat) {a : Nat}
    (h : ¬ ((0x1000 ≤ a ∧ a < 0x1400) ∨ (0x2000 ≤ a ∧ a < 0x4000))) :
    readByte (t.record y d v).mem a = readByte t.mem a := by
  unfold Table.record
  dsimp only
  rw [readByte_setCodeVal_outside _ _ _ (by omega), readByte_setCodeLen_outside _ _ _ (by omega)]

/-- The cleared code table (R219, R244). -/
theorem codeLen_clearCodes (s : State) (y : Byte) : codeLen (clearCodes s).mem y = 0 := by
  have h : codeLen (clearCodes s).mem y = codeLen (clearRam s.params .codeLen s.mem) y :=
    codeLen_congr (fun a h1 h2 => by
      unfold clearCodes
      rw [readByte_clearRam]
      simp [Ram.owns]
      omega) y
  rw [h, codeLen_clearRam]

theorem codeVal_clearCodes (s : State) (y : Byte) : codeVal (clearCodes s).mem y = 0 := codeVal_clearRam _ _ _

theorem readByte_clearCodes_outside (s : State) {a : Nat}
    (h : ¬ ((0x1000 ≤ a ∧ a < 0x1400) ∨ (0x2000 ≤ a ∧ a < 0x4000))) :
    readByte (clearCodes s).mem a = readByte s.mem a := by
  unfold clearCodes
  dsimp only
  have h1 : Ram.owns s.params .codeLen a = false := by simp [Ram.owns]; omega
  have h2 : Ram.owns s.params .codeVal a = false := by simp [Ram.owns]; omega
  rw [readByte_clearRam, readByte_clearRam, h1, h2]
  rfl

theorem node_clearCodes (s : State) (i : NodeIdx) : node (clearCodes s).mem i = node s.mem i :=
  node_congr (fun _ h1 h2 => readByte_clearCodes_outside s (by omega)) i

/-! ## The traversal, one visit at a time (R152) -/

@[simp] theorem genWalk_nil (m : Memory) (k : Nat) (t : Table) : genWalk m k [] t = .ok t := by cases k <;> rfl

/-- A node met at depth above 255 (R152, subcause DEPTH). -/
theorem genWalk_deep {m : Memory} {k : Nat} {v : Visit} {st : List Visit} {t : Table} (hd : 255 < v.depth) :
    genWalk m (k + 1) (v :: st) t = .error (.invalidTree .depth v.idx v.depth) := by
  rw [genWalk, if_pos hd]

theorem genWalk_leaf {m : Memory} {k : Nat} {v : Visit} {st : List Visit} {t : Table} (hd : v.depth ≤ 255)
    (hl : isLeaf (node m v.idx) = true) (hn : codeLen t.mem (nodeSym (node m v.idx)) = 0) :
    genWalk m (k + 1) (v :: st) t = genWalk m k st (t.record (nodeSym (node m v.idx)) v.depth v.path) := by
  simp only [genWalk, hl, hn, if_neg (Nat.not_lt.mpr hd), if_true, bne_self_eq_false, Bool.false_eq_true, if_false]

/-- A leaf whose symbol already has a code (subcause DUP_SYMBOL). -/
theorem genWalk_dup {m : Memory} {k : Nat} {v : Visit} {st : List Visit} {t : Table} (hd : v.depth ≤ 255)
    (hl : isLeaf (node m v.idx) = true) (hn : codeLen t.mem (nodeSym (node m v.idx)) ≠ 0) :
    genWalk m (k + 1) (v :: st) t = .error (.invalidTree .dupSymbol v.idx v.depth) := by
  rw [genWalk, if_neg (Nat.not_lt.mpr hd), if_pos hl, if_pos (bne_iff_ne.mpr hn)]

/-- A word that is no node (subcause BAD_TAG). -/
theorem genWalk_badTag {m : Memory} {k : Nat} {v : Visit} {st : List Visit} {t : Table} (hd : v.depth ≤ 255)
    (hl : isLeaf (node m v.idx) = false) (hi : isInt (node m v.idx) = false) :
    genWalk m (k + 1) (v :: st) t = .error (.invalidTree .badTag v.idx v.depth) := by
  rw [genWalk, if_neg (Nat.not_lt.mpr hd), if_neg (by rw [hl]; decide), if_neg (by rw [hi]; decide)]

theorem genWalk_int {m : Memory} {k : Nat} {v : Visit} {st : List Visit} {t : Table} (hd : v.depth ≤ 255)
    (hi : isInt (node m v.idx) = true) :
    genWalk m (k + 1) (v :: st) t =
      genWalk m k (⟨nodeLeft (node m v.idx), v.depth + 1, 2 * v.path⟩ ::
        ⟨nodeRight (node m v.idx), v.depth + 1, 2 * v.path + 1⟩ :: st) t := by
  simp only [genWalk, isLeaf_eq_false_of_isInt hi, hi, if_neg (Nat.not_lt.mpr hd), if_true, Bool.false_eq_true, if_false]

/-- One visit of a walk that ends in success. -/
theorem genWalk_cases {m : Memory} {k : Nat} {v : Visit} {st : List Visit} {t u : Table}
    (h : genWalk m k (v :: st) t = .ok u) : ∃ j, k = j + 1 ∧ v.depth ≤ 255 ∧
      ((isLeaf (node m v.idx) = true ∧ codeLen t.mem (nodeSym (node m v.idx)) = 0 ∧
        genWalk m j st (t.record (nodeSym (node m v.idx)) v.depth v.path) = .ok u) ∨
      (isLeaf (node m v.idx) = false ∧ isInt (node m v.idx) = true ∧
        genWalk m j (⟨nodeLeft (node m v.idx), v.depth + 1, 2 * v.path⟩ ::
          ⟨nodeRight (node m v.idx), v.depth + 1, 2 * v.path + 1⟩ :: st) t = .ok u)) := by
  cases k with
  | zero => cases h
  | succ k =>
    simp only [genWalk] at h
    split at h
    · cases h
    · rename_i hd
      refine ⟨k, rfl, by omega, ?_⟩
      split at h
      · rename_i hl
        split at h
        · cases h
        · rename_i hn; exact Or.inl ⟨hl, by simpa using hn, h⟩
      · rename_i hl
        split at h
        · rename_i hi; exact Or.inr ⟨by simpa using hl, hi, h⟩
        · cases h

/-! ## The traversal of a tree -/

/-- The table after a walk over the tree `T` from depth `d` with path `v`, left first. -/
def recordTree : HuffmanTree → Nat → Nat → Table → Table
  | .leaf y, d, v, t => t.record y d v
  | .node l r, d, v, t => recordTree r (d + 1) (2 * v + 1) (recordTree l (d + 1) (2 * v) t)

/-- How many nodes a tree has. -/
def HuffmanTree.size : HuffmanTree → Nat
  | .leaf _ => 1
  | .node l r => l.size + r.size + 1

theorem HuffmanTree.symbols_node (l r : HuffmanTree) : (HuffmanTree.node l r).symbols = l.symbols ++ r.symbols := by
  simp [HuffmanTree.symbols, HuffmanTree.leaves, Function.comp_def]

theorem HuffmanTree.symbols_length (T : HuffmanTree) : T.symbols.length = T.leaves.length := by
  simp [HuffmanTree.symbols]

theorem HuffmanTree.size_eq (T : HuffmanTree) : T.size + 1 = 2 * T.leaves.length := by
  induction T with
  | leaf y => rfl
  | node l r ihl ihr => simp [HuffmanTree.size, HuffmanTree.leaves]; omega

/-- A tree with no symbol twice has at most 256 leaves. -/
theorem HuffmanTree.leaves_le {T : HuffmanTree} (h : T.symbols.Nodup) : T.leaves.length ≤ 256 := by
  rw [← T.symbols_length]
  have h1 : (T.symbols.map BitVec.toFin).Nodup := h.map (fun a b e => BitVec.eq_of_toFin_eq e)
  simpa using h1.length_le_card

theorem codeLen_recordTree (T : HuffmanTree) (d v : Nat) (t : Table) {z : Byte} (h : z ∉ T.symbols) :
    codeLen (recordTree T d v t).mem z = codeLen t.mem z ∧ codeVal (recordTree T d v t).mem z = codeVal t.mem z := by
  induction T generalizing d v t with
  | leaf y =>
    have hz : ¬ y = z := fun e => h (by simp [e, HuffmanTree.symbols, HuffmanTree.leaves])
    simp only [recordTree, codeLen_record, codeVal_record, if_neg hz, and_self]
  | node l r ihl ihr =>
    rw [HuffmanTree.symbols_node, List.mem_append, not_or] at h
    simp only [recordTree, ihr _ _ _ h.2, ihl _ _ _ h.1, and_self]

/-- A walk over an arena that holds a tree records the tree, and costs one visit per node. -/
theorem genWalk_tree {m : Memory} (T : HuffmanTree) {i : NodeIdx} {d : Nat} (v : Nat) (k : Nat) (st : List Visit)
    (t : Table) (hT : T.Represents m i) (hd : d + T.depth ≤ 255) (hn : T.symbols.Nodup)
    (ht : ∀ y ∈ T.symbols, codeLen t.mem y = 0) :
    genWalk m (k + T.size) (⟨i, d, v⟩ :: st) t = genWalk m k st (recordTree T d v t) := by
  induction T generalizing i d v k st t with
  | leaf y =>
    obtain ⟨h1, h2⟩ := hT
    have h0 := ht y (by simp [HuffmanTree.symbols, HuffmanTree.leaves])
    rw [HuffmanTree.size, genWalk_leaf (v := ⟨i, d, v⟩) (by simp only; omega) h1 (by rw [h2]; exact h0), h2]
    rfl
  | node l r ihl ihr =>
    obtain ⟨h1, h2, h3⟩ := hT
    simp only [HuffmanTree.depth] at hd
    rw [HuffmanTree.symbols_node] at hn ht
    have hn' := List.nodup_append.mp hn
    rw [HuffmanTree.size, ← Nat.add_assoc, genWalk_int (v := ⟨i, d, v⟩) (by simp only; omega) h1,
      Nat.add_comm l.size, ← Nat.add_assoc,
      ihl (d := d + 1) (2 * v) _ _ t h2 (by omega) hn'.1 (fun y hy => ht y (List.mem_append_left _ hy)),
      ihr (d := d + 1) (2 * v + 1) _ _ _ h3 (by omega) hn'.2.1 (fun y hy => ?_)]
    · rfl
    · rw [(codeLen_recordTree l _ _ _ (fun h => hn'.2.2 y h y hy rfl)).1]
      exact ht y (List.mem_append_right _ hy)

/-- The code each leaf of a recorded tree has. -/
theorem codeOf_recordTree (T : HuffmanTree) {d : Nat} (v : Nat) (t : Table) (hd : d + T.depth ≤ 255)
    (hn : T.symbols.Nodup) {y : Byte} {c : List Bool} (hy : (y, c) ∈ T.leaves) :
    codeOf (recordTree T d v t).mem y = natBits v d ++ c ∧
      codeLen (recordTree T d v t).mem y = BitVec.ofNat 8 (d + c.length) ∧
      ∃ w, w < (v + 1) * 2 ^ c.length ∧ codeVal (recordTree T d v t).mem y = BitVec.ofNat 256 w := by
  induction T generalizing d v t c with
  | leaf z =>
    simp only [HuffmanTree.leaves, List.mem_singleton, Prod.mk.injEq] at hy
    obtain ⟨rfl, rfl⟩ := hy
    simp only [HuffmanTree.depth] at hd
    refine ⟨?_, ?_, v, by simp, ?_⟩
    · simp only [recordTree]
      rw [codeOf_record t y v (by omega), if_pos rfl, List.append_nil]
    · simp only [recordTree, codeLen_record, if_pos, List.length_nil, Nat.add_zero]
    · simp only [recordTree, codeVal_record, if_pos]
  | node l r ihl ihr =>
    simp only [HuffmanTree.depth] at hd
    rw [HuffmanTree.symbols_node] at hn
    have hn' := List.nodup_append.mp hn
    simp only [HuffmanTree.leaves, List.mem_append, List.mem_map, Prod.mk.injEq] at hy
    obtain ⟨⟨z, c'⟩, hz, rfl, rfl⟩ | ⟨⟨z, c'⟩, hz, rfl, rfl⟩ := hy
    · have hs : z ∈ l.symbols := List.mem_map.mpr ⟨_, hz, rfl⟩
      have hr : z ∉ r.symbols := fun h => hn'.2.2 z hs z h rfl
      obtain ⟨h1, h2, w, h3, h4⟩ := ihl (d := d + 1) (2 * v) t (by omega) hn'.1 hz
      obtain ⟨e1, e2⟩ := codeLen_recordTree r (d + 1) (2 * v + 1) (recordTree l (d + 1) (2 * v) t) hr
      refine ⟨?_, ?_, w, ?_, ?_⟩
      · unfold codeOf at h1 ⊢
        rw [recordTree, e1, e2, h1, natBits_left, List.append_assoc]
        rfl
      · rw [recordTree, e1, h2, List.length_cons]
        congr 1
        dsimp only
        omega
      · rw [List.length_cons, pow_succ]
        nlinarith [Nat.pos_of_ne_zero (show 2 ^ c'.length ≠ 0 by positivity)]
      · rw [recordTree, e2, h4]
    · obtain ⟨h1, h2, w, h3, h4⟩ := ihr (d := d + 1) (2 * v + 1) (recordTree l (d + 1) (2 * v) t) (by omega) hn'.2.1 hz
      refine ⟨?_, ?_, w, ?_, ?_⟩
      · rw [recordTree, h1, natBits_right, List.append_assoc]
        rfl
      · rw [recordTree, h2, List.length_cons]
        congr 1
        dsimp only
        omega
      · rw [List.length_cons, pow_succ]
        nlinarith [Nat.pos_of_ne_zero (show 2 ^ c'.length ≠ 0 by positivity)]
      · rw [recordTree, h4]

/-- The count of codes and the longest code of a recorded tree. -/
theorem recordTree_counts (T : HuffmanTree) (d v : Nat) (t : Table) :
    (recordTree T d v t).count = t.count + T.leaves.length ∧
      (recordTree T d v t).maxl = max t.maxl (d + T.depth) := by
  induction T generalizing d v t with
  | leaf y => exact ⟨rfl, rfl⟩
  | node l r ihl ihr =>
    simp only [recordTree, ihr, ihl, HuffmanTree.leaves, HuffmanTree.depth, List.length_append, List.length_map]
    omega

theorem readByte_recordTree_outside (T : HuffmanTree) (d v : Nat) (t : Table) {a : Nat}
    (h : ¬ ((0x1000 ≤ a ∧ a < 0x1400) ∨ (0x2000 ≤ a ∧ a < 0x4000))) :
    readByte (recordTree T d v t).mem a = readByte t.mem a := by
  induction T generalizing d v t with
  | leaf y => exact readByte_record_outside t y d v h
  | node l r ihl ihr => rw [recordTree, ihr, ihl]

/-! ## The traversal of any arena (R153) -/

/-- The path string of a stack entry. -/
def Visit.bits (v : Visit) : List Bool := natBits v.path v.depth

/-- Neither string is a prefix of the other. -/
def apart (a b : List Bool) : Prop := ¬ a <+: b ∧ ¬ b <+: a

theorem apart.symm {a b : List Bool} (h : apart a b) : apart b a := ⟨h.2, h.1⟩

theorem apart.append {a b : List Bool} (h : apart a b) (c : List Bool) : apart a (b ++ c) := by
  refine ⟨fun hp => ?_, fun hp => h.2 ((List.prefix_append b c).trans hp)⟩
  rcases List.prefix_or_prefix_of_prefix hp (List.prefix_append b c) with h' | h'
  · exact h.1 h'
  · exact h.2 h'

theorem apart_siblings (a : List Bool) : apart (a ++ [false]) (a ++ [true]) := by
  constructor <;> simp [List.prefix_append_right_inj]

theorem codeOf_length (m : Memory) (y : Byte) : (codeOf m y).length = (codeLen m y).toNat := codeBits_length _ _

/-- How many symbols have a code. -/
def codedCount (m : Memory) : Nat := (symbols.filter (fun y => codeLen m y != 0)).length

/-- What the traversal keeps true of its stack and its table: all codes and paths are apart, and the count is the
number of symbols with a code. -/
structure WalkInv (m : Memory) (st : List Visit) (t : Table) : Prop where
  codes : ∀ y z, codeLen t.mem y ≠ 0 → codeLen t.mem z ≠ 0 → y ≠ z → apart (codeOf t.mem y) (codeOf t.mem z)
  cross : ∀ y, codeLen t.mem y ≠ 0 → ∀ v ∈ st, apart (codeOf t.mem y) v.bits
  stack : st.Pairwise (fun v w => apart v.bits w.bits)
  deep : ∀ v ∈ st, isLeaf (node m v.idx) = true → 1 ≤ v.depth
  count : t.count = codedCount t.mem

theorem mem_symbols (y : Byte) : y ∈ symbols := by
  unfold symbols symbol
  rw [List.mem_map]
  exact ⟨y.toNat, List.mem_range.mpr y.isLt, by simp⟩

theorem symbols_nodup : symbols.Nodup := by
  unfold symbols symbol
  refine List.Nodup.map_on (fun a ha b hb e => ?_) List.nodup_range
  rw [List.mem_range] at ha hb
  have := congrArg BitVec.toNat e
  simpa [Nat.mod_eq_of_lt ha, Nat.mod_eq_of_lt hb] using this

theorem symbols_length : symbols.length = 256 := by
  unfold symbols
  rw [List.length_map, List.length_range]

/-- A list of symbols filtered by one more symbol is one longer. -/
theorem filter_insert_length {l : List Byte} (hl : l.Nodup) {f g : Byte → Bool} {y : Byte} (hy : y ∈ l) (hf : f y = false)
    (hg : g y = true) (h : ∀ z, z ≠ y → g z = f z) : (l.filter g).length = (l.filter f).length + 1 := by
  induction l with
  | nil => cases hy
  | cons a l ih =>
    rw [List.nodup_cons] at hl
    by_cases ha : a = y
    · subst ha
      rw [List.filter_cons_of_pos hg, List.filter_cons_of_neg (by rw [hf]; decide), List.length_cons]
      congr 2
      exact List.filter_congr (fun z hz => h z (fun e => hl.1 (e ▸ hz)))
    · have hy' : y ∈ l := by simpa [Ne.symm ha] using hy
      rw [List.filter_cons, List.filter_cons, h a ha]
      split
      · rw [List.length_cons, List.length_cons, ih hl.2 hy']
      · exact ih hl.2 hy'

theorem codedCount_le (m : Memory) : codedCount m ≤ 256 := by
  have := List.length_filter_le (fun y => codeLen m y != 0) symbols
  rwa [symbols_length] at this

theorem codedCount_record (t : Table) {y : Byte} {d : Nat} (v : Nat) (h0 : codeLen t.mem y = 0) (h1 : 1 ≤ d) (h2 : d ≤ 255) :
    codedCount (t.record y d v).mem = codedCount t.mem + 1 := by
  have hd : (BitVec.ofNat 8 d : Byte) ≠ 0 := by
    intro e
    have := congrArg BitVec.toNat e
    simp at this
    omega
  refine filter_insert_length symbols_nodup (mem_symbols y) (by simp [h0]) ?_ (fun z hz => ?_)
  · rw [codeLen_record, if_pos rfl]
    exact bne_iff_ne.mpr hd
  · rw [codeLen_record, if_neg (Ne.symm hz)]

/-- A successful traversal keeps the invariant, and gives at least one code of at least one bit if the stack is not
empty. -/
theorem genWalk_inv {m : Memory} {k : Nat} {st : List Visit} {t u : Table} (h : genWalk m k st t = .ok u)
    (hi : WalkInv m st t) :
    WalkInv m [] u ∧ t.count ≤ u.count ∧ t.maxl ≤ u.maxl ∧ (t.maxl ≤ 255 → u.maxl ≤ 255) ∧
      (st ≠ [] → t.count < u.count ∧ 1 ≤ u.maxl) := by
  induction k generalizing st t with
  | zero =>
    cases st with
    | nil => injection h with h; subst h; exact ⟨hi, Nat.le_refl _, Nat.le_refl _, id, fun h => absurd rfl h⟩
    | cons v st => cases h
  | succ k ih =>
    cases st with
    | nil => injection h with h; subst h; exact ⟨hi, Nat.le_refl _, Nat.le_refl _, id, fun h => absurd rfl h⟩
    | cons v st =>
      obtain ⟨j, hj, hd, ⟨hl, hn, h'⟩ | ⟨hl, hn, h'⟩⟩ := genWalk_cases h <;> obtain rfl : j = k := by omega
      · have h1 := hi.deep v (List.mem_cons_self ..) hl
        have hst := List.pairwise_cons.mp hi.stack
        have hcode := codeOf_record t (nodeSym (node m v.idx)) v.path hd
        have hlen := codeLen_record t (nodeSym (node m v.idx)) v.depth v.path
        obtain ⟨a, b, c, d, -⟩ := ih h'
          { codes := fun y z hy hz hne => by
              rw [hlen] at hy hz
              rw [hcode, hcode]
              split
              · rename_i e
                rw [if_neg (fun e' => hne (e.symm.trans e'))]
                rw [if_neg (fun e' => hne (e.symm.trans e'))] at hz
                exact (hi.cross z hz v (List.mem_cons_self ..)).symm
              · rename_i e
                rw [if_neg e] at hy
                split
                · exact hi.cross y hy v (List.mem_cons_self ..)
                · rename_i e'
                  rw [if_neg e'] at hz
                  exact hi.codes y z hy hz hne
            cross := fun y hy w hw => by
              rw [hlen] at hy
              rw [hcode]
              split
              · exact hst.1 w hw
              · rename_i e
                rw [if_neg e] at hy
                exact hi.cross y hy w (List.mem_cons_of_mem _ hw)
            stack := hst.2
            deep := fun w hw => hi.deep w (List.mem_cons_of_mem _ hw)
            count := by
              rw [codedCount_record t v.path hn h1 hd, ← hi.count]
              rfl }
        simp only [Table.record] at b c d
        exact ⟨a, by omega, by omega, fun h => d (by omega), fun _ => ⟨by omega, by omega⟩⟩
      · have hst := List.pairwise_cons.mp hi.stack
        have e1 : (⟨nodeLeft (node m v.idx), v.depth + 1, 2 * v.path⟩ : Visit).bits = v.bits ++ [false] :=
          natBits_left _ _
        have e2 : (⟨nodeRight (node m v.idx), v.depth + 1, 2 * v.path + 1⟩ : Visit).bits = v.bits ++ [true] :=
          natBits_right _ _
        obtain ⟨a, b, c, d, e⟩ := ih h'
          { codes := hi.codes
            cross := fun y hy w hw => by
              have hv := hi.cross y hy v (List.mem_cons_self ..)
              rw [List.mem_cons, List.mem_cons] at hw
              obtain rfl | rfl | hw := hw
              · rw [e1]; exact hv.append _
              · rw [e2]; exact hv.append _
              · exact hi.cross y hy w (List.mem_cons_of_mem _ hw)
            stack := by
              rw [List.pairwise_cons, List.pairwise_cons]
              refine ⟨fun w hw => ?_, fun w hw => ?_, hst.2⟩
              · rw [e1]
                rw [List.mem_cons] at hw
                obtain rfl | hw := hw
                · rw [e2]; exact apart_siblings _
                · exact ((hst.1 w hw).symm.append _).symm
              · rw [e2]; exact ((hst.1 w hw).symm.append _).symm
            deep := fun w hw hl => by
              rw [List.mem_cons, List.mem_cons] at hw
              obtain rfl | rfl | hw := hw
              · exact Nat.le_add_left 1 _
              · exact Nat.le_add_left 1 _
              · exact hi.deep w (List.mem_cons_of_mem _ hw) hl
            count := hi.count }
        exact ⟨a, b, c, d, fun _ => e (by simp)⟩

/-- The invariant at the start of the traversal: an empty table, and a root that is no leaf. -/
theorem WalkInv.start {m : Memory} (h : ∀ y, codeLen m y = 0) {r : NodeIdx} (hr : isLeaf (node m r) = false) :
    WalkInv m [⟨r, 0, 0⟩] ⟨m, 0, 0⟩ where
  codes := fun y _ hy => absurd (h y) hy
  cross := fun y hy => absurd (h y) hy
  stack := List.pairwise_singleton _ _
  deep := fun v hv hl => by
    rw [List.mem_singleton] at hv
    subst hv
    rw [hr] at hl
    cases hl
  count := by
    symm
    rw [codedCount, List.length_eq_zero_iff, List.filter_eq_nil_iff]
    intro y _
    simp [h y]

/-! ## The first error of a traversal (R152, R243) -/

/-- A clean start of the traversal of any arena: after `j` visits without an error the loop stands at visit `j`, and the
table has codes for the symbols `seen` before and for those of the leaves visited since. -/
theorem genWalk_visits {m : Memory} {j k : Nat} {st : List Visit} {t : Table} {seen : List Byte} {v : NodeIdx × Nat}
    (hj : j ≤ k) (hseen : ∀ y, codeLen t.mem y ≠ 0 ↔ y ∈ seen)
    (hdeep : ∀ w ∈ st, isLeaf (node m w.idx) = true → 1 ≤ w.depth)
    (hv : (visits (node m) (k + 1) (st.map (fun w => (w.idx, w.depth))))[j]? = some v)
    (hok : ∀ w ∈ (visits (node m) (k + 1) (st.map (fun w => (w.idx, w.depth)))).take j,
      w.2 ≤ 255 ∧ (isLeaf (node m w.1) = true ∨ isInt (node m w.1) = true))
    (hnew : (seen ++ leafSymbols (node m)
      ((visits (node m) (k + 1) (st.map (fun w => (w.idx, w.depth)))).take j)).Nodup) :
    ∃ w st' t', genWalk m k st t = genWalk m (k - j) (w :: st') t' ∧ (w.idx, w.depth) = v ∧
      ∀ y, codeLen t'.mem y ≠ 0 ↔ y ∈ seen ++ leafSymbols (node m)
        ((visits (node m) (k + 1) (st.map (fun w => (w.idx, w.depth)))).take j) := by
  cases st with
  | nil => simp [visits] at hv
  | cons w st =>
    simp only [List.map_cons, visits] at hv hok hnew ⊢
    induction j generalizing k w st t seen with
    | zero => exact ⟨w, st, t, rfl, by simpa using hv, by simpa [leafSymbols] using hseen⟩
    | succ j ih =>
      obtain ⟨k, rfl⟩ : ∃ n, k = n + 1 := ⟨k - 1, by omega⟩
      rw [List.getElem?_cons_succ] at hv
      rw [List.take_succ_cons] at hok hnew ⊢
      obtain ⟨hd, hn⟩ := hok _ (List.mem_cons_self ..)
      have hok' := fun x hx => hok x (List.mem_cons_of_mem _ hx)
      dsimp only at hd hn
      rw [show k + 1 - (j + 1) = k - j by omega]
      rcases hn with hl | hi
      · have hi : isInt (node m w.idx) = false := by
          cases hc : isInt (node m w.idx)
          · rfl
          · rw [isLeaf_eq_false_of_isInt hc] at hl; cases hl
        rw [if_neg (by rw [hi]; decide)] at hv hok' hnew ⊢
        have e1 : ∀ vs, leafSymbols (node m) ((w.idx, w.depth) :: vs) =
            nodeSym (node m w.idx) :: leafSymbols (node m) vs := fun vs => by simp [leafSymbols, hl]
        rw [e1] at hnew ⊢
        have hns : nodeSym (node m w.idx) ∉ seen := fun hm =>
          (List.nodup_append.mp hnew).2.2 _ hm _ (List.mem_cons_self ..) rfl
        have h1 := hdeep w (List.mem_cons_self ..) hl
        have h0 : codeLen t.mem (nodeSym (node m w.idx)) = 0 := by
          by_contra hc; exact hns ((hseen _).mp hc)
        have hrec : ∀ y, codeLen (t.record (nodeSym (node m w.idx)) w.depth w.path).mem y ≠ 0 ↔
            y ∈ seen ++ [nodeSym (node m w.idx)] := by
          intro y
          rw [codeLen_record, List.mem_append, List.mem_singleton]
          split
          · rename_i e
            have : (BitVec.ofNat 8 w.depth : Byte) ≠ 0 := by
              intro e'
              have := congrArg BitVec.toNat e'
              simp at this
              omega
            exact ⟨fun _ => Or.inr e.symm, fun _ => this⟩
          · rename_i e
            rw [hseen]
            exact ⟨Or.inl, fun h => h.resolve_right (fun e' => e e'.symm)⟩
        cases st with
        | nil => simp [visits] at hv
        | cons w' st =>
          simp only [List.map_cons, visits] at hv hok' hnew ⊢
          obtain ⟨x, st', t', g1, g2, g3⟩ := ih (t := t.record (nodeSym (node m w.idx)) w.depth w.path)
            (seen := seen ++ [nodeSym (node m w.idx)]) (by omega) hrec w' st
            (fun z hz => hdeep z (List.mem_cons_of_mem _ hz)) hv hok' (by simpa using hnew)
          refine ⟨x, st', t', ?_, g2, fun y => ?_⟩
          · rw [genWalk_leaf hd hl h0, g1]
          · rw [g3]; simp
      · rw [if_pos hi] at hv hok' hnew ⊢
        have e1 : ∀ vs, leafSymbols (node m) ((w.idx, w.depth) :: vs) = leafSymbols (node m) vs := fun vs => by
          simp [leafSymbols, isLeaf_eq_false_of_isInt hi]
        rw [e1] at hnew ⊢
        obtain ⟨x, st', t', g1, g2, g3⟩ := ih (k := k) (by omega) hseen
          ⟨nodeLeft (node m w.idx), w.depth + 1, 2 * w.path⟩
          (⟨nodeRight (node m w.idx), w.depth + 1, 2 * w.path + 1⟩ :: st)
          (fun z hz hl => by
            rw [List.mem_cons, List.mem_cons] at hz
            obtain rfl | rfl | hz := hz
            · exact Nat.le_add_left 1 _
            · exact Nat.le_add_left 1 _
            · exact hdeep z (List.mem_cons_of_mem _ hz) hl) hv hok' hnew
        exact ⟨x, st', t', by rw [genWalk_int hd hi, g1], g2, g3⟩

/-- No path of a tree is a prefix of another (R153). -/
theorem HuffmanTree.leaves_apart (T : HuffmanTree) : T.leaves.Pairwise (fun x y => apart x.2 y.2) := by
  induction T with
  | leaf y => simp [HuffmanTree.leaves]
  | node l r ihl ihr =>
    rw [HuffmanTree.leaves, List.pairwise_append, List.pairwise_map, List.pairwise_map]
    refine ⟨ihl.imp (fun h => by simpa [apart, List.cons_prefix_cons] using h),
      ihr.imp (fun h => by simpa [apart, List.cons_prefix_cons] using h), ?_⟩
    intro x hx y hy
    obtain ⟨x, -, rfl⟩ := List.mem_map.mp hx
    obtain ⟨y, -, rfl⟩ := List.mem_map.mp hy
    simp [apart, List.cons_prefix_cons]

end Sys2Proof.Machine
end

