-- ==== Sys2Proof/Laws/State.lean ====
section
/-! SUPPORT. One lemma per field of State and per shared update, each true by rfl, so that no proof unfolds a record
update; and what a failing command's `raise` leaves, by command. -/

namespace Sys2Proof.Machine

/-! ### `complete` (R34) -/

@[simp] theorem complete_params (s : State) : (complete s).params = s.params := rfl
@[simp] theorem complete_seq (s : State) : (complete s).seq = .idle := rfl
@[simp] theorem complete_irqEn (s : State) : (complete s).irqEn = s.irqEn := rfl
@[simp] theorem complete_cmd (s : State) : (complete s).cmd = s.cmd := rfl
@[simp] theorem complete_done (s : State) : (complete s).done = true := rfl
@[simp] theorem complete_wrWhileBusy (s : State) : (complete s).wrWhileBusy = s.wrWhileBusy := rfl
@[simp] theorem complete_cmdOverrun (s : State) : (complete s).cmdOverrun = s.cmdOverrun := rfl
@[simp] theorem complete_errCode (s : State) : (complete s).errCode = s.errCode := rfl
@[simp] theorem complete_errInfo (s : State) : (complete s).errInfo = s.errInfo := rfl
@[simp] theorem complete_errPos (s : State) : (complete s).errPos = s.errPos := rfl
@[simp] theorem complete_inLen (s : State) : (complete s).inLen = s.inLen := rfl
@[simp] theorem complete_decNbits (s : State) : (complete s).decNbits = s.decNbits := rfl
@[simp] theorem complete_outLen (s : State) : (complete s).outLen = s.outLen := rfl
@[simp] theorem complete_outBits (s : State) : (complete s).outBits = s.outBits := rfl
@[simp] theorem complete_decTail (s : State) : (complete s).decTail = s.decTail := rfl
@[simp] theorem complete_rootValid (s : State) : (complete s).rootValid = s.rootValid := rfl
@[simp] theorem complete_rootIdx (s : State) : (complete s).rootIdx = s.rootIdx := rfl
@[simp] theorem complete_nleaf (s : State) : (complete s).nleaf = s.nleaf := rfl
@[simp] theorem complete_nnode (s : State) : (complete s).nnode = s.nnode := rfl
@[simp] theorem complete_ncodes (s : State) : (complete s).ncodes = s.ncodes := rfl
@[simp] theorem complete_maxlen (s : State) : (complete s).maxlen = s.maxlen := rfl
@[simp] theorem complete_mem (s : State) : (complete s).mem = s.mem := rfl
@[simp] theorem complete_host (s : State) : (complete s).host = s.host := rfl
@[simp] theorem complete_hostLog (s : State) : (complete s).hostLog = s.hostLog := rfl
@[simp] theorem complete_delay (s : State) : (complete s).delay = s.delay := rfl
@[simp] theorem complete_schedule (s : State) : (complete s).schedule = s.schedule := rfl
@[simp] theorem complete_draws (s : State) : (complete s).draws = s.draws := rfl

/-! ### `failOutput` (R244) -/

@[simp] theorem failOutput_params (s : State) : (failOutput s).params = s.params := rfl
@[simp] theorem failOutput_seq (s : State) : (failOutput s).seq = s.seq := rfl
@[simp] theorem failOutput_irqEn (s : State) : (failOutput s).irqEn = s.irqEn := rfl
@[simp] theorem failOutput_cmd (s : State) : (failOutput s).cmd = s.cmd := rfl
@[simp] theorem failOutput_done (s : State) : (failOutput s).done = s.done := rfl
@[simp] theorem failOutput_wrWhileBusy (s : State) : (failOutput s).wrWhileBusy = s.wrWhileBusy := rfl
@[simp] theorem failOutput_cmdOverrun (s : State) : (failOutput s).cmdOverrun = s.cmdOverrun := rfl
@[simp] theorem failOutput_errCode (s : State) : (failOutput s).errCode = s.errCode := rfl
@[simp] theorem failOutput_errInfo (s : State) : (failOutput s).errInfo = s.errInfo := rfl
@[simp] theorem failOutput_errPos (s : State) : (failOutput s).errPos = s.errPos := rfl
@[simp] theorem failOutput_inLen (s : State) : (failOutput s).inLen = s.inLen := rfl
@[simp] theorem failOutput_decNbits (s : State) : (failOutput s).decNbits = s.decNbits := rfl
@[simp] theorem failOutput_outLen (s : State) : (failOutput s).outLen = 0 := rfl
@[simp] theorem failOutput_outBits (s : State) : (failOutput s).outBits = 0 := rfl
@[simp] theorem failOutput_decTail (s : State) : (failOutput s).decTail = 0 := rfl
@[simp] theorem failOutput_rootValid (s : State) : (failOutput s).rootValid = s.rootValid := rfl
@[simp] theorem failOutput_rootIdx (s : State) : (failOutput s).rootIdx = s.rootIdx := rfl
@[simp] theorem failOutput_nleaf (s : State) : (failOutput s).nleaf = s.nleaf := rfl
@[simp] theorem failOutput_nnode (s : State) : (failOutput s).nnode = s.nnode := rfl
@[simp] theorem failOutput_ncodes (s : State) : (failOutput s).ncodes = s.ncodes := rfl
@[simp] theorem failOutput_maxlen (s : State) : (failOutput s).maxlen = s.maxlen := rfl
@[simp] theorem failOutput_mem (s : State) : (failOutput s).mem = scrambleRam s.params s.draws .outBuf s.mem := rfl
@[simp] theorem failOutput_host (s : State) : (failOutput s).host = s.host := rfl
@[simp] theorem failOutput_hostLog (s : State) : (failOutput s).hostLog = s.hostLog := rfl
@[simp] theorem failOutput_delay (s : State) : (failOutput s).delay = s.delay := rfl
@[simp] theorem failOutput_schedule (s : State) : (failOutput s).schedule = s.schedule := rfl
@[simp] theorem failOutput_draws (s : State) : (failOutput s).draws = s.draws + 1 := rfl

/-! ### `clearCodes` (R219, R244) -/

@[simp] theorem clearCodes_params (s : State) : (clearCodes s).params = s.params := rfl
@[simp] theorem clearCodes_seq (s : State) : (clearCodes s).seq = s.seq := rfl
@[simp] theorem clearCodes_irqEn (s : State) : (clearCodes s).irqEn = s.irqEn := rfl
@[simp] theorem clearCodes_cmd (s : State) : (clearCodes s).cmd = s.cmd := rfl
@[simp] theorem clearCodes_done (s : State) : (clearCodes s).done = s.done := rfl
@[simp] theorem clearCodes_wrWhileBusy (s : State) : (clearCodes s).wrWhileBusy = s.wrWhileBusy := rfl
@[simp] theorem clearCodes_cmdOverrun (s : State) : (clearCodes s).cmdOverrun = s.cmdOverrun := rfl
@[simp] theorem clearCodes_errCode (s : State) : (clearCodes s).errCode = s.errCode := rfl
@[simp] theorem clearCodes_errInfo (s : State) : (clearCodes s).errInfo = s.errInfo := rfl
@[simp] theorem clearCodes_errPos (s : State) : (clearCodes s).errPos = s.errPos := rfl
@[simp] theorem clearCodes_inLen (s : State) : (clearCodes s).inLen = s.inLen := rfl
@[simp] theorem clearCodes_decNbits (s : State) : (clearCodes s).decNbits = s.decNbits := rfl
@[simp] theorem clearCodes_outLen (s : State) : (clearCodes s).outLen = s.outLen := rfl
@[simp] theorem clearCodes_outBits (s : State) : (clearCodes s).outBits = s.outBits := rfl
@[simp] theorem clearCodes_decTail (s : State) : (clearCodes s).decTail = s.decTail := rfl
@[simp] theorem clearCodes_rootValid (s : State) : (clearCodes s).rootValid = s.rootValid := rfl
@[simp] theorem clearCodes_rootIdx (s : State) : (clearCodes s).rootIdx = s.rootIdx := rfl
@[simp] theorem clearCodes_nleaf (s : State) : (clearCodes s).nleaf = s.nleaf := rfl
@[simp] theorem clearCodes_nnode (s : State) : (clearCodes s).nnode = s.nnode := rfl
@[simp] theorem clearCodes_ncodes (s : State) : (clearCodes s).ncodes = 0 := rfl
@[simp] theorem clearCodes_maxlen (s : State) : (clearCodes s).maxlen = 0 := rfl
@[simp] theorem clearCodes_mem (s : State) : (clearCodes s).mem = clearRam s.params .codeVal (clearRam s.params .codeLen s.mem) := rfl
@[simp] theorem clearCodes_host (s : State) : (clearCodes s).host = s.host := rfl
@[simp] theorem clearCodes_hostLog (s : State) : (clearCodes s).hostLog = s.hostLog := rfl
@[simp] theorem clearCodes_delay (s : State) : (clearCodes s).delay = s.delay := rfl
@[simp] theorem clearCodes_schedule (s : State) : (clearCodes s).schedule = s.schedule := rfl
@[simp] theorem clearCodes_draws (s : State) : (clearCodes s).draws = s.draws := rfl

/-! ### `resetRegisters` (R270, R271) -/

@[simp] theorem resetRegisters_params (s : State) : (resetRegisters s).params = s.params := rfl
@[simp] theorem resetRegisters_seq (s : State) : (resetRegisters s).seq = .idle := rfl
@[simp] theorem resetRegisters_irqEn (s : State) : (resetRegisters s).irqEn = false := rfl
@[simp] theorem resetRegisters_cmd (s : State) : (resetRegisters s).cmd = 0 := rfl
@[simp] theorem resetRegisters_done (s : State) : (resetRegisters s).done = false := rfl
@[simp] theorem resetRegisters_wrWhileBusy (s : State) : (resetRegisters s).wrWhileBusy = false := rfl
@[simp] theorem resetRegisters_cmdOverrun (s : State) : (resetRegisters s).cmdOverrun = false := rfl
@[simp] theorem resetRegisters_errCode (s : State) : (resetRegisters s).errCode = .none := rfl
@[simp] theorem resetRegisters_errInfo (s : State) : (resetRegisters s).errInfo = 0 := rfl
@[simp] theorem resetRegisters_errPos (s : State) : (resetRegisters s).errPos = 0 := rfl
@[simp] theorem resetRegisters_inLen (s : State) : (resetRegisters s).inLen = 0 := rfl
@[simp] theorem resetRegisters_decNbits (s : State) : (resetRegisters s).decNbits = 0 := rfl
@[simp] theorem resetRegisters_outLen (s : State) : (resetRegisters s).outLen = 0 := rfl
@[simp] theorem resetRegisters_outBits (s : State) : (resetRegisters s).outBits = 0 := rfl
@[simp] theorem resetRegisters_decTail (s : State) : (resetRegisters s).decTail = 0 := rfl
@[simp] theorem resetRegisters_rootValid (s : State) : (resetRegisters s).rootValid = false := rfl
@[simp] theorem resetRegisters_rootIdx (s : State) : (resetRegisters s).rootIdx = 0 := rfl
@[simp] theorem resetRegisters_nleaf (s : State) : (resetRegisters s).nleaf = 0 := rfl
@[simp] theorem resetRegisters_nnode (s : State) : (resetRegisters s).nnode = 0 := rfl
@[simp] theorem resetRegisters_ncodes (s : State) : (resetRegisters s).ncodes = 0 := rfl
@[simp] theorem resetRegisters_maxlen (s : State) : (resetRegisters s).maxlen = 0 := rfl
@[simp] theorem resetRegisters_mem (s : State) : (resetRegisters s).mem = s.mem := rfl
@[simp] theorem resetRegisters_host (s : State) : (resetRegisters s).host = s.host := rfl
@[simp] theorem resetRegisters_hostLog (s : State) : (resetRegisters s).hostLog = s.hostLog := rfl
@[simp] theorem resetRegisters_delay (s : State) : (resetRegisters s).delay = 0 := rfl
@[simp] theorem resetRegisters_schedule (s : State) : (resetRegisters s).schedule = s.schedule := rfl
@[simp] theorem resetRegisters_draws (s : State) : (resetRegisters s).draws = s.draws := rfl

/-! ### `latchWord` -/

@[simp] theorem latchWord_params (v : Word) (s : State) : (latchWord v s).params = s.params := rfl
@[simp] theorem latchWord_seq (v : Word) (s : State) : (latchWord v s).seq = .busy := rfl
@[simp] theorem latchWord_irqEn (v : Word) (s : State) : (latchWord v s).irqEn = s.irqEn := rfl
@[simp] theorem latchWord_cmd (v : Word) (s : State) : (latchWord v s).cmd = v := rfl
@[simp] theorem latchWord_done (v : Word) (s : State) : (latchWord v s).done = false := rfl
@[simp] theorem latchWord_wrWhileBusy (v : Word) (s : State) : (latchWord v s).wrWhileBusy = s.wrWhileBusy := rfl
@[simp] theorem latchWord_cmdOverrun (v : Word) (s : State) : (latchWord v s).cmdOverrun = s.cmdOverrun := rfl
@[simp] theorem latchWord_errCode (v : Word) (s : State) : (latchWord v s).errCode = .none := rfl
@[simp] theorem latchWord_errInfo (v : Word) (s : State) : (latchWord v s).errInfo = 0 := rfl
@[simp] theorem latchWord_errPos (v : Word) (s : State) : (latchWord v s).errPos = 0 := rfl
@[simp] theorem latchWord_inLen (v : Word) (s : State) : (latchWord v s).inLen = s.inLen := rfl
@[simp] theorem latchWord_decNbits (v : Word) (s : State) : (latchWord v s).decNbits = s.decNbits := rfl
@[simp] theorem latchWord_outLen (v : Word) (s : State) : (latchWord v s).outLen = s.outLen := rfl
@[simp] theorem latchWord_outBits (v : Word) (s : State) : (latchWord v s).outBits = s.outBits := rfl
@[simp] theorem latchWord_decTail (v : Word) (s : State) : (latchWord v s).decTail = s.decTail := rfl
@[simp] theorem latchWord_rootValid (v : Word) (s : State) : (latchWord v s).rootValid = s.rootValid := rfl
@[simp] theorem latchWord_rootIdx (v : Word) (s : State) : (latchWord v s).rootIdx = s.rootIdx := rfl
@[simp] theorem latchWord_nleaf (v : Word) (s : State) : (latchWord v s).nleaf = s.nleaf := rfl
@[simp] theorem latchWord_nnode (v : Word) (s : State) : (latchWord v s).nnode = s.nnode := rfl
@[simp] theorem latchWord_ncodes (v : Word) (s : State) : (latchWord v s).ncodes = s.ncodes := rfl
@[simp] theorem latchWord_maxlen (v : Word) (s : State) : (latchWord v s).maxlen = s.maxlen := rfl
@[simp] theorem latchWord_mem (v : Word) (s : State) : (latchWord v s).mem = s.mem := rfl
@[simp] theorem latchWord_host (v : Word) (s : State) : (latchWord v s).host = s.host := rfl
@[simp] theorem latchWord_hostLog (v : Word) (s : State) : (latchWord v s).hostLog = s.hostLog := rfl
@[simp] theorem latchWord_delay (v : Word) (s : State) : (latchWord v s).delay = 0 := rfl
@[simp] theorem latchWord_schedule (v : Word) (s : State) : (latchWord v s).schedule = s.schedule := rfl
@[simp] theorem latchWord_draws (v : Word) (s : State) : (latchWord v s).draws = s.draws := rfl

/-! ### `State.tick` -/

@[simp] theorem tick_params (rest : List HostStmt) (s : State) : (s.tick rest).params = s.params := rfl
@[simp] theorem tick_seq (rest : List HostStmt) (s : State) : (s.tick rest).seq = s.seq := rfl
@[simp] theorem tick_irqEn (rest : List HostStmt) (s : State) : (s.tick rest).irqEn = s.irqEn := rfl
@[simp] theorem tick_cmd (rest : List HostStmt) (s : State) : (s.tick rest).cmd = s.cmd := rfl
@[simp] theorem tick_done (rest : List HostStmt) (s : State) : (s.tick rest).done = s.done := rfl
@[simp] theorem tick_wrWhileBusy (rest : List HostStmt) (s : State) : (s.tick rest).wrWhileBusy = s.wrWhileBusy := rfl
@[simp] theorem tick_cmdOverrun (rest : List HostStmt) (s : State) : (s.tick rest).cmdOverrun = s.cmdOverrun := rfl
@[simp] theorem tick_errCode (rest : List HostStmt) (s : State) : (s.tick rest).errCode = s.errCode := rfl
@[simp] theorem tick_errInfo (rest : List HostStmt) (s : State) : (s.tick rest).errInfo = s.errInfo := rfl
@[simp] theorem tick_errPos (rest : List HostStmt) (s : State) : (s.tick rest).errPos = s.errPos := rfl
@[simp] theorem tick_inLen (rest : List HostStmt) (s : State) : (s.tick rest).inLen = s.inLen := rfl
@[simp] theorem tick_decNbits (rest : List HostStmt) (s : State) : (s.tick rest).decNbits = s.decNbits := rfl
@[simp] theorem tick_outLen (rest : List HostStmt) (s : State) : (s.tick rest).outLen = s.outLen := rfl
@[simp] theorem tick_outBits (rest : List HostStmt) (s : State) : (s.tick rest).outBits = s.outBits := rfl
@[simp] theorem tick_decTail (rest : List HostStmt) (s : State) : (s.tick rest).decTail = s.decTail := rfl
@[simp] theorem tick_rootValid (rest : List HostStmt) (s : State) : (s.tick rest).rootValid = s.rootValid := rfl
@[simp] theorem tick_rootIdx (rest : List HostStmt) (s : State) : (s.tick rest).rootIdx = s.rootIdx := rfl
@[simp] theorem tick_nleaf (rest : List HostStmt) (s : State) : (s.tick rest).nleaf = s.nleaf := rfl
@[simp] theorem tick_nnode (rest : List HostStmt) (s : State) : (s.tick rest).nnode = s.nnode := rfl
@[simp] theorem tick_ncodes (rest : List HostStmt) (s : State) : (s.tick rest).ncodes = s.ncodes := rfl
@[simp] theorem tick_maxlen (rest : List HostStmt) (s : State) : (s.tick rest).maxlen = s.maxlen := rfl
@[simp] theorem tick_mem (rest : List HostStmt) (s : State) : (s.tick rest).mem = s.mem := rfl
@[simp] theorem tick_host (rest : List HostStmt) (s : State) : (s.tick rest).host = rest := rfl
@[simp] theorem tick_hostLog (rest : List HostStmt) (s : State) : (s.tick rest).hostLog = s.hostLog := rfl
@[simp] theorem tick_delay (rest : List HostStmt) (s : State) : (s.tick rest).delay = s.delay - 1 := rfl
@[simp] theorem tick_schedule (rest : List HostStmt) (s : State) : (s.tick rest).schedule = s.schedule := rfl
@[simp] theorem tick_draws (rest : List HostStmt) (s : State) : (s.tick rest).draws = s.draws := rfl

/-! ### `hostRead` (R71) -/

@[simp] theorem hostRead_params (off : Offset) (s : State) : (hostRead off s).params = s.params := rfl
@[simp] theorem hostRead_seq (off : Offset) (s : State) : (hostRead off s).seq = s.seq := rfl
@[simp] theorem hostRead_irqEn (off : Offset) (s : State) : (hostRead off s).irqEn = s.irqEn := rfl
@[simp] theorem hostRead_cmd (off : Offset) (s : State) : (hostRead off s).cmd = s.cmd := rfl
@[simp] theorem hostRead_done (off : Offset) (s : State) : (hostRead off s).done = s.done := rfl
@[simp] theorem hostRead_wrWhileBusy (off : Offset) (s : State) : (hostRead off s).wrWhileBusy = s.wrWhileBusy := rfl
@[simp] theorem hostRead_cmdOverrun (off : Offset) (s : State) : (hostRead off s).cmdOverrun = s.cmdOverrun := rfl
@[simp] theorem hostRead_errCode (off : Offset) (s : State) : (hostRead off s).errCode = s.errCode := rfl
@[simp] theorem hostRead_errInfo (off : Offset) (s : State) : (hostRead off s).errInfo = s.errInfo := rfl
@[simp] theorem hostRead_errPos (off : Offset) (s : State) : (hostRead off s).errPos = s.errPos := rfl
@[simp] theorem hostRead_inLen (off : Offset) (s : State) : (hostRead off s).inLen = s.inLen := rfl
@[simp] theorem hostRead_decNbits (off : Offset) (s : State) : (hostRead off s).decNbits = s.decNbits := rfl
@[simp] theorem hostRead_outLen (off : Offset) (s : State) : (hostRead off s).outLen = s.outLen := rfl
@[simp] theorem hostRead_outBits (off : Offset) (s : State) : (hostRead off s).outBits = s.outBits := rfl
@[simp] theorem hostRead_decTail (off : Offset) (s : State) : (hostRead off s).decTail = s.decTail := rfl
@[simp] theorem hostRead_rootValid (off : Offset) (s : State) : (hostRead off s).rootValid = s.rootValid := rfl
@[simp] theorem hostRead_rootIdx (off : Offset) (s : State) : (hostRead off s).rootIdx = s.rootIdx := rfl
@[simp] theorem hostRead_nleaf (off : Offset) (s : State) : (hostRead off s).nleaf = s.nleaf := rfl
@[simp] theorem hostRead_nnode (off : Offset) (s : State) : (hostRead off s).nnode = s.nnode := rfl
@[simp] theorem hostRead_ncodes (off : Offset) (s : State) : (hostRead off s).ncodes = s.ncodes := rfl
@[simp] theorem hostRead_maxlen (off : Offset) (s : State) : (hostRead off s).maxlen = s.maxlen := rfl
@[simp] theorem hostRead_mem (off : Offset) (s : State) : (hostRead off s).mem = s.mem := rfl
@[simp] theorem hostRead_host (off : Offset) (s : State) : (hostRead off s).host = s.host := rfl
@[simp] theorem hostRead_hostLog (off : Offset) (s : State) : (hostRead off s).hostLog = memRead s off :: s.hostLog := rfl
@[simp] theorem hostRead_delay (off : Offset) (s : State) : (hostRead off s).delay = s.delay := rfl
@[simp] theorem hostRead_schedule (off : Offset) (s : State) : (hostRead off s).schedule = s.schedule := rfl
@[simp] theorem hostRead_draws (off : Offset) (s : State) : (hostRead off s).draws = if unspecifiedRead s off then s.draws + 1 else s.draws := rfl

/-! ### `writeStatus` (R27) -/

@[simp] theorem writeStatus_params (v : Word) (s : State) : (writeStatus v s).params = s.params := rfl
@[simp] theorem writeStatus_seq (v : Word) (s : State) : (writeStatus v s).seq = s.seq := rfl
@[simp] theorem writeStatus_irqEn (v : Word) (s : State) : (writeStatus v s).irqEn = s.irqEn := rfl
@[simp] theorem writeStatus_cmd (v : Word) (s : State) : (writeStatus v s).cmd = s.cmd := rfl
@[simp] theorem writeStatus_done (v : Word) (s : State) : (writeStatus v s).done = (s.done && !v.getLsbD 1) := rfl
@[simp] theorem writeStatus_wrWhileBusy (v : Word) (s : State) : (writeStatus v s).wrWhileBusy = (s.wrWhileBusy && !v.getLsbD 3) := rfl
@[simp] theorem writeStatus_cmdOverrun (v : Word) (s : State) : (writeStatus v s).cmdOverrun = (s.cmdOverrun && !v.getLsbD 4) := rfl
@[simp] theorem writeStatus_errCode (v : Word) (s : State) : (writeStatus v s).errCode = s.errCode := rfl
@[simp] theorem writeStatus_errInfo (v : Word) (s : State) : (writeStatus v s).errInfo = s.errInfo := rfl
@[simp] theorem writeStatus_errPos (v : Word) (s : State) : (writeStatus v s).errPos = s.errPos := rfl
@[simp] theorem writeStatus_inLen (v : Word) (s : State) : (writeStatus v s).inLen = s.inLen := rfl
@[simp] theorem writeStatus_decNbits (v : Word) (s : State) : (writeStatus v s).decNbits = s.decNbits := rfl
@[simp] theorem writeStatus_outLen (v : Word) (s : State) : (writeStatus v s).outLen = s.outLen := rfl
@[simp] theorem writeStatus_outBits (v : Word) (s : State) : (writeStatus v s).outBits = s.outBits := rfl
@[simp] theorem writeStatus_decTail (v : Word) (s : State) : (writeStatus v s).decTail = s.decTail := rfl
@[simp] theorem writeStatus_rootValid (v : Word) (s : State) : (writeStatus v s).rootValid = s.rootValid := rfl
@[simp] theorem writeStatus_rootIdx (v : Word) (s : State) : (writeStatus v s).rootIdx = s.rootIdx := rfl
@[simp] theorem writeStatus_nleaf (v : Word) (s : State) : (writeStatus v s).nleaf = s.nleaf := rfl
@[simp] theorem writeStatus_nnode (v : Word) (s : State) : (writeStatus v s).nnode = s.nnode := rfl
@[simp] theorem writeStatus_ncodes (v : Word) (s : State) : (writeStatus v s).ncodes = s.ncodes := rfl
@[simp] theorem writeStatus_maxlen (v : Word) (s : State) : (writeStatus v s).maxlen = s.maxlen := rfl
@[simp] theorem writeStatus_mem (v : Word) (s : State) : (writeStatus v s).mem = s.mem := rfl
@[simp] theorem writeStatus_host (v : Word) (s : State) : (writeStatus v s).host = s.host := rfl
@[simp] theorem writeStatus_hostLog (v : Word) (s : State) : (writeStatus v s).hostLog = s.hostLog := rfl
@[simp] theorem writeStatus_delay (v : Word) (s : State) : (writeStatus v s).delay = s.delay := rfl
@[simp] theorem writeStatus_schedule (v : Word) (s : State) : (writeStatus v s).schedule = s.schedule := rfl
@[simp] theorem writeStatus_draws (v : Word) (s : State) : (writeStatus v s).draws = s.draws := rfl

/-! ### `State.powerOn` (R270) -/

@[simp] theorem powerOn_params (p : Params) (ram : Memory) : (State.powerOn p ram).params = p := rfl
@[simp] theorem powerOn_seq (p : Params) (ram : Memory) : (State.powerOn p ram).seq = .idle := rfl
@[simp] theorem powerOn_irqEn (p : Params) (ram : Memory) : (State.powerOn p ram).irqEn = false := rfl
@[simp] theorem powerOn_cmd (p : Params) (ram : Memory) : (State.powerOn p ram).cmd = 0 := rfl
@[simp] theorem powerOn_done (p : Params) (ram : Memory) : (State.powerOn p ram).done = false := rfl
@[simp] theorem powerOn_wrWhileBusy (p : Params) (ram : Memory) : (State.powerOn p ram).wrWhileBusy = false := rfl
@[simp] theorem powerOn_cmdOverrun (p : Params) (ram : Memory) : (State.powerOn p ram).cmdOverrun = false := rfl
@[simp] theorem powerOn_errCode (p : Params) (ram : Memory) : (State.powerOn p ram).errCode = .none := rfl
@[simp] theorem powerOn_errInfo (p : Params) (ram : Memory) : (State.powerOn p ram).errInfo = 0 := rfl
@[simp] theorem powerOn_errPos (p : Params) (ram : Memory) : (State.powerOn p ram).errPos = 0 := rfl
@[simp] theorem powerOn_inLen (p : Params) (ram : Memory) : (State.powerOn p ram).inLen = 0 := rfl
@[simp] theorem powerOn_decNbits (p : Params) (ram : Memory) : (State.powerOn p ram).decNbits = 0 := rfl
@[simp] theorem powerOn_outLen (p : Params) (ram : Memory) : (State.powerOn p ram).outLen = 0 := rfl
@[simp] theorem powerOn_outBits (p : Params) (ram : Memory) : (State.powerOn p ram).outBits = 0 := rfl
@[simp] theorem powerOn_decTail (p : Params) (ram : Memory) : (State.powerOn p ram).decTail = 0 := rfl
@[simp] theorem powerOn_rootValid (p : Params) (ram : Memory) : (State.powerOn p ram).rootValid = false := rfl
@[simp] theorem powerOn_rootIdx (p : Params) (ram : Memory) : (State.powerOn p ram).rootIdx = 0 := rfl
@[simp] theorem powerOn_nleaf (p : Params) (ram : Memory) : (State.powerOn p ram).nleaf = 0 := rfl
@[simp] theorem powerOn_nnode (p : Params) (ram : Memory) : (State.powerOn p ram).nnode = 0 := rfl
@[simp] theorem powerOn_ncodes (p : Params) (ram : Memory) : (State.powerOn p ram).ncodes = 0 := rfl
@[simp] theorem powerOn_maxlen (p : Params) (ram : Memory) : (State.powerOn p ram).maxlen = 0 := rfl
@[simp] theorem powerOn_mem (p : Params) (ram : Memory) : (State.powerOn p ram).mem = ram := rfl
@[simp] theorem powerOn_host (p : Params) (ram : Memory) : (State.powerOn p ram).host = [] := rfl
@[simp] theorem powerOn_hostLog (p : Params) (ram : Memory) : (State.powerOn p ram).hostLog = [] := rfl
@[simp] theorem powerOn_delay (p : Params) (ram : Memory) : (State.powerOn p ram).delay = 0 := rfl
@[simp] theorem powerOn_schedule (p : Params) (ram : Memory) : (State.powerOn p ram).schedule = [] := rfl
@[simp] theorem powerOn_draws (p : Params) (ram : Memory) : (State.powerOn p ram).draws = 0 := rfl

/-! ### `failureActions` and `raise` (R10, R244): what no command's failure touches -/

@[simp] theorem failureActions_params (c : Option Instr) (s : State) : (failureActions c s).params = s.params := by
  unfold failureActions; split <;> rfl
@[simp] theorem failureActions_seq (c : Option Instr) (s : State) : (failureActions c s).seq = s.seq := by
  unfold failureActions; split <;> rfl
@[simp] theorem failureActions_irqEn (c : Option Instr) (s : State) : (failureActions c s).irqEn = s.irqEn := by
  unfold failureActions; split <;> rfl
@[simp] theorem failureActions_cmd (c : Option Instr) (s : State) : (failureActions c s).cmd = s.cmd := by
  unfold failureActions; split <;> rfl
@[simp] theorem failureActions_done (c : Option Instr) (s : State) : (failureActions c s).done = s.done := by
  unfold failureActions; split <;> rfl
@[simp] theorem failureActions_wrWhileBusy (c : Option Instr) (s : State) : (failureActions c s).wrWhileBusy = s.wrWhileBusy := by
  unfold failureActions; split <;> rfl
@[simp] theorem failureActions_cmdOverrun (c : Option Instr) (s : State) : (failureActions c s).cmdOverrun = s.cmdOverrun := by
  unfold failureActions; split <;> rfl
@[simp] theorem failureActions_errCode (c : Option Instr) (s : State) : (failureActions c s).errCode = s.errCode := by
  unfold failureActions; split <;> rfl
@[simp] theorem failureActions_errInfo (c : Option Instr) (s : State) : (failureActions c s).errInfo = s.errInfo := by
  unfold failureActions; split <;> rfl
@[simp] theorem failureActions_errPos (c : Option Instr) (s : State) : (failureActions c s).errPos = s.errPos := by
  unfold failureActions; split <;> rfl
@[simp] theorem failureActions_inLen (c : Option Instr) (s : State) : (failureActions c s).inLen = s.inLen := by
  unfold failureActions; split <;> rfl
@[simp] theorem failureActions_decNbits (c : Option Instr) (s : State) : (failureActions c s).decNbits = s.decNbits := by
  unfold failureActions; split <;> rfl
@[simp] theorem failureActions_rootValid (c : Option Instr) (s : State) : (failureActions c s).rootValid = s.rootValid := by
  unfold failureActions; split <;> rfl
@[simp] theorem failureActions_rootIdx (c : Option Instr) (s : State) : (failureActions c s).rootIdx = s.rootIdx := by
  unfold failureActions; split <;> rfl
@[simp] theorem failureActions_nleaf (c : Option Instr) (s : State) : (failureActions c s).nleaf = s.nleaf := by
  unfold failureActions; split <;> rfl
@[simp] theorem failureActions_nnode (c : Option Instr) (s : State) : (failureActions c s).nnode = s.nnode := by
  unfold failureActions; split <;> rfl
@[simp] theorem failureActions_host (c : Option Instr) (s : State) : (failureActions c s).host = s.host := by
  unfold failureActions; split <;> rfl
@[simp] theorem failureActions_hostLog (c : Option Instr) (s : State) : (failureActions c s).hostLog = s.hostLog := by
  unfold failureActions; split <;> rfl
@[simp] theorem failureActions_delay (c : Option Instr) (s : State) : (failureActions c s).delay = s.delay := by
  unfold failureActions; split <;> rfl
@[simp] theorem failureActions_schedule (c : Option Instr) (s : State) : (failureActions c s).schedule = s.schedule := by
  unfold failureActions; split <;> rfl
@[simp] theorem raise_params (c : Option Instr) (e : Raise) (s : State) : (raise c e s).params = s.params := by
  rw [raise, complete_params, failureActions_params]
@[simp] theorem raise_seq (c : Option Instr) (e : Raise) (s : State) : (raise c e s).seq = .idle := rfl
@[simp] theorem raise_irqEn (c : Option Instr) (e : Raise) (s : State) : (raise c e s).irqEn = s.irqEn := by
  rw [raise, complete_irqEn, failureActions_irqEn]
@[simp] theorem raise_cmd (c : Option Instr) (e : Raise) (s : State) : (raise c e s).cmd = s.cmd := by
  rw [raise, complete_cmd, failureActions_cmd]
@[simp] theorem raise_done (c : Option Instr) (e : Raise) (s : State) : (raise c e s).done = true := rfl
@[simp] theorem raise_wrWhileBusy (c : Option Instr) (e : Raise) (s : State) : (raise c e s).wrWhileBusy = s.wrWhileBusy := by
  rw [raise, complete_wrWhileBusy, failureActions_wrWhileBusy]
@[simp] theorem raise_cmdOverrun (c : Option Instr) (e : Raise) (s : State) : (raise c e s).cmdOverrun = s.cmdOverrun := by
  rw [raise, complete_cmdOverrun, failureActions_cmdOverrun]
@[simp] theorem raise_errCode (c : Option Instr) (e : Raise) (s : State) : (raise c e s).errCode = e.code := by
  rw [raise, complete_errCode, failureActions_errCode]
@[simp] theorem raise_errInfo (c : Option Instr) (e : Raise) (s : State) : (raise c e s).errInfo = e.info := by
  rw [raise, complete_errInfo, failureActions_errInfo]
@[simp] theorem raise_errPos (c : Option Instr) (e : Raise) (s : State) : (raise c e s).errPos = e.pos := by
  rw [raise, complete_errPos, failureActions_errPos]
@[simp] theorem raise_inLen (c : Option Instr) (e : Raise) (s : State) : (raise c e s).inLen = s.inLen := by
  rw [raise, complete_inLen, failureActions_inLen]
@[simp] theorem raise_decNbits (c : Option Instr) (e : Raise) (s : State) : (raise c e s).decNbits = s.decNbits := by
  rw [raise, complete_decNbits, failureActions_decNbits]
@[simp] theorem raise_rootValid (c : Option Instr) (e : Raise) (s : State) : (raise c e s).rootValid = s.rootValid := by
  rw [raise, complete_rootValid, failureActions_rootValid]
@[simp] theorem raise_rootIdx (c : Option Instr) (e : Raise) (s : State) : (raise c e s).rootIdx = s.rootIdx := by
  rw [raise, complete_rootIdx, failureActions_rootIdx]
@[simp] theorem raise_nleaf (c : Option Instr) (e : Raise) (s : State) : (raise c e s).nleaf = s.nleaf := by
  rw [raise, complete_nleaf, failureActions_nleaf]
@[simp] theorem raise_nnode (c : Option Instr) (e : Raise) (s : State) : (raise c e s).nnode = s.nnode := by
  rw [raise, complete_nnode, failureActions_nnode]
@[simp] theorem raise_host (c : Option Instr) (e : Raise) (s : State) : (raise c e s).host = s.host := by
  rw [raise, complete_host, failureActions_host]
@[simp] theorem raise_hostLog (c : Option Instr) (e : Raise) (s : State) : (raise c e s).hostLog = s.hostLog := by
  rw [raise, complete_hostLog, failureActions_hostLog]
@[simp] theorem raise_delay (c : Option Instr) (e : Raise) (s : State) : (raise c e s).delay = s.delay := by
  rw [raise, complete_delay, failureActions_delay]
@[simp] theorem raise_schedule (c : Option Instr) (e : Raise) (s : State) : (raise c e s).schedule = s.schedule := by
  rw [raise, complete_schedule, failureActions_schedule]

/-! ### `raise` by command: the whole state it leaves (R244) -/

theorem raise_output (c : Instr) (e : Raise) (s : State) (h : c = .encode ∨ c = .decode ∨ c = .decodeAll) :
    raise (some c) e s =
      { s with
        seq := .idle, done := true, errCode := e.code, errInfo := e.info, errPos := e.pos
        outLen := 0, outBits := 0, decTail := 0
        mem := scrambleRam s.params s.draws .outBuf s.mem, draws := s.draws + 1 } := by
  rcases h with rfl | rfl | rfl <;> rfl

theorem raise_genCodes (e : Raise) (s : State) :
    raise (some .genCodes) e s =
      { s with
        seq := .idle, done := true, errCode := e.code, errInfo := e.info, errPos := e.pos
        ncodes := 0, maxlen := 0
        mem := clearRam s.params .codeVal (clearRam s.params .codeLen s.mem) } := rfl

theorem raise_buildTree (e : Raise) (s : State) :
    raise (some .buildTree) e s =
      { s with seq := .idle, done := true, errCode := e.code, errInfo := e.info, errPos := e.pos } := rfl

theorem raise_illegal (e : Raise) (s : State) :
    raise none e s =
      { s with seq := .idle, done := true, errCode := e.code, errInfo := e.info, errPos := e.pos } := rfl

/-! ### `accept` and `softReset` by SEQ (R33, R271) -/

theorem accept_busy (v : Word) (s : State) (h : s.seq = .busy) : accept v s = { s with cmdOverrun := true } := by
  unfold accept; rw [h]

theorem accept_idle (v : Word) (s : State) (h : s.seq = .idle) :
    accept v s =
      { s with
        cmd := v, done := false, errCode := .none, errInfo := 0, errPos := 0, seq := .busy
        delay := s.schedule.headD 0, schedule := s.schedule.tail } := by
  unfold accept; rw [h]

theorem softReset_idle (s : State) (h : s.seq = .idle) : softReset s = resetRegisters s := by
  unfold softReset; rw [h]

theorem softReset_busy (s : State) (h : s.seq = .busy) :
    softReset s =
      resetRegisters
        { s with mem := scrambleRams s.params s.draws (writeRams (latched s)) s.mem, draws := s.draws + 1 } := by
  unfold softReset; rw [h]

end Sys2Proof.Machine
end

