-- ==== Sys2Proof/Laws/Commands.lean ====
section
/-! SUPPORT. One induction for each loop of the commands: what every write of the loop keeps of memory, the loop keeps
(40_tree_builder.md R131; 41_code_table.md R152; 42_encoder_packer.md R170, R171; 43_decoder_unpacker.md R190, R191). -/

namespace Sys2Proof.Machine

variable {q : Memory → Prop}

/-! ## BUILD_TREE writes NODE words -/

theorem seedLeaves_mem (hq : ∀ m i w, q m → q (setNode m i w)) (m : Memory) (ps : List Byte) (b : Builder)
    (hb : q b.mem) : q (seedLeaves m ps b).mem := by
  induction ps generalizing b with
  | nil => exact hb
  | cons y ps ih => exact ih _ (hq _ _ _ hb)

theorem mergeNodes_mem (hq : ∀ m i w, q m → q (setNode m i w)) (k : Nat) (b : Builder) (hb : q b.mem) :
    q (mergeNodes k b).mem := by
  induction k generalizing b with
  | zero => exact hb
  | succ k ih =>
    unfold mergeNodes
    split
    · exact hb
    · split
      · exact hb
      · exact ih _ (hq _ _ _ hb)

theorem built_mem (hq : ∀ m i w, q m → q (setNode m i w)) (p : Params) (m : Memory) (hm : q (clearRam p .node m)) :
    q (built p m).mem :=
  mergeNodes_mem hq _ _ (seedLeaves_mem hq _ _ _ hm)

/-! ## GEN_CODES writes code table entries -/

theorem record_mem (hl : ∀ m y v, q m → q (setCodeLen m y v)) (hv : ∀ m y v, q m → q (setCodeVal m y v)) (t : Table)
    (y : Byte) (d v : Nat) (ht : q t.mem) : q (t.record y d v).mem :=
  hv _ _ _ (hl _ _ _ ht)

theorem genWalk_mem (hl : ∀ m y v, q m → q (setCodeLen m y v)) (hv : ∀ m y v, q m → q (setCodeVal m y v)) (m : Memory)
    (k : Nat) (st : List Visit) (t : Table) {u : Table} (h : genWalk m k st t = .ok u) (ht : q t.mem) : q u.mem := by
  induction k generalizing st t with
  | zero =>
    cases st with
    | nil => injection h with h; subst h; exact ht
    | cons v st => simp [genWalk] at h
  | succ k ih =>
    cases st with
    | nil => injection h with h; subst h; exact ht
    | cons v st =>
      simp only [genWalk] at h
      split at h
      · cases h
      split at h
      · split at h
        · cases h
        · exact ih _ _ h (record_mem hl hv _ _ _ _ ht)
      · split at h
        · exact ih _ _ h ht
        · cases h

/-- The error a walk ends with is one of the five of GEN_CODES (R152, R242). -/
theorem genWalk_error (m : Memory) (k : Nat) (st : List Visit) (t : Table) {e : Raise}
    (h : genWalk m k st t = .error e) :
    ∃ c i pos, e = .invalidTree c i pos ∧ c ∈ [Subcause.visits, .depth, .dupSymbol, .badTag] := by
  induction k generalizing st t with
  | zero =>
    cases st with
    | nil => cases h
    | cons v st => injection h with h; subst h; exact ⟨_, _, _, rfl, by decide⟩
  | succ k ih =>
    cases st with
    | nil => cases h
    | cons v st =>
      simp only [genWalk] at h
      split at h
      · injection h with h; subst h; exact ⟨_, _, _, rfl, by decide⟩
      split at h
      · split at h
        · injection h with h; subst h; exact ⟨_, _, _, rfl, by decide⟩
        · exact ih _ _ h
      · split at h
        · exact ih _ _ h
        · injection h with h; subst h; exact ⟨_, _, _, rfl, by decide⟩

theorem genTable_mem (hl : ∀ m y v, q m → q (setCodeLen m y v)) (hv : ∀ m y v, q m → q (setCodeVal m y v)) (m : Memory)
    (b : Bool) (r : NodeIdx) {u : Table} (h : genTable m b r = .ok u) (hm : q m) : q u.mem := by
  unfold genTable at h
  dsimp only at h
  split at h
  · cases h
  split at h
  · injection h with h; subst h; exact record_mem hl hv _ _ _ _ hm
  · exact genWalk_mem hl hv _ _ _ _ h hm

theorem genTable_error (m : Memory) (b : Bool) (r : NodeIdx) {e : Raise} (h : genTable m b r = .error e) :
    (b = false ∧ e = .invalidTree .noRoot 0 0) ∨
    (b = true ∧ ∃ c i pos, e = .invalidTree c i pos ∧ c ∈ [Subcause.visits, .depth, .dupSymbol, .badTag]) := by
  unfold genTable at h
  dsimp only at h
  split at h
  · rename_i hb
    injection h with h
    exact Or.inl ⟨by simpa using hb, h.symm⟩
  · rename_i hb
    split at h
    · cases h
    · exact Or.inr ⟨by simpa using hb, genWalk_error _ _ _ _ h⟩

/-! ## ENCODE writes OUT_BUF bytes -/

theorem packBit_mem {p : Params} (hq : ∀ m j v, q m → q (setOutByte p m j v)) {b : Bool} {j : Nat} {k k' : Packer}
    (h : packBit p b j k = .ok k') (hk : q k.mem) : q k'.mem := by
  unfold packBit at h
  dsimp only at h
  split at h
  · cases h
  · split at h
    · injection h with h; subst h; exact hq _ _ _ hk
    · injection h with h; subst h; exact hk

theorem packFlush_mem {p : Params} (hq : ∀ m j v, q m → q (setOutByte p m j v)) {k : Packer} (hk : q k.mem) :
    q (packFlush p k).mem := by
  unfold packFlush
  split
  · exact hk
  · exact hq _ _ _ hk

theorem packCode_mem {p : Params} (hq : ∀ m j v, q m → q (setOutByte p m j v)) {v : CodeVal} {j : Nat} {n : Nat}
    {k k' : Packer} (h : packCode p v j n k = .ok k') (hk : q k.mem) : q k'.mem := by
  induction n generalizing k with
  | zero => injection h with h; subst h; exact hk
  | succ n ih =>
    simp only [packCode] at h
    split at h
    · cases h
    · rename_i k1 h1; exact ih h (packBit_mem hq h1 hk)

theorem encodeBytes_mem {p : Params} (hq : ∀ m j v, q m → q (setOutByte p m j v)) {m : Memory} {n j : Nat}
    {k k' : Packer} (h : encodeBytes p m n j k = .ok k') (hk : q k.mem) : q k'.mem := by
  induction n generalizing j k with
  | zero => injection h with h; subst h; exact hk
  | succ n ih =>
    simp only [encodeBytes] at h
    split at h
    · cases h
    · split at h
      · cases h
      · rename_i k1 h1; exact ih h (packCode_mem hq h1 hk)

theorem encodeRun_mem {p : Params} (hq : ∀ m j v, q m → q (setOutByte p m j v)) {m : Memory} {n : Nat} {k : Packer}
    (h : encodeRun p m n = .ok k) (hm : q m) : q k.mem := by
  unfold encodeRun at h
  split at h
  · cases h
  · split at h
    · cases h
    · rename_i k1 h1
      injection h with h
      subst h
      exact packFlush_mem hq (encodeBytes_mem hq h1 hm)

/-! ## DECODE and DECODE.ALL write OUT_BUF bytes -/

theorem emitSymbol_mem {p : Params} (hq : ∀ m j v, q m → q (setOutByte p m j v)) {r : NodeIdx} {y : Byte} {pos : Nat}
    {d d' : Decoder} (h : emitSymbol p r y pos d = .ok d') (hd : q d.mem) : q d'.mem := by
  unfold emitSymbol at h
  split at h
  · cases h
  · injection h with h; subst h; exact hq _ _ _ hd

/-- The child of the cursor word that bit `b` selects. -/
def childAt (m : Memory) (i : NodeIdx) (b : Bool) : NodeIdx := if b then nodeRight (node m i) else nodeLeft (node m i)

/-- Everything one bit of a successful decode can do (R190). -/
theorem decodeStep_cases {p : Params} {m : Memory} {r : NodeIdx} {pos : Nat} {b : Bool} {d d' : Decoder}
    (h : decodeStep p m r pos b d = .ok d') :
    (isLeaf (node m d.cur) = true ∧ b = false ∧ emitSymbol p d.cur (nodeSym (node m d.cur)) pos d = .ok d') ∨
    (isLeaf (node m d.cur) = false ∧ isInt (node m d.cur) = true ∧ isLeaf (node m (childAt m d.cur b)) = true ∧
      emitSymbol p r (nodeSym (node m (childAt m d.cur b))) pos d = .ok d') ∨
    (isLeaf (node m d.cur) = false ∧ isInt (node m d.cur) = true ∧ isLeaf (node m (childAt m d.cur b)) = false ∧
      isInt (node m (childAt m d.cur b)) = true ∧ d' = { d with cur := childAt m d.cur b, tail := d.tail + 1 }) := by
  unfold decodeStep at h
  change (if isLeaf (node m d.cur) = true then _ else if isInt (node m d.cur) = true then
    if isLeaf (node m (childAt m d.cur b)) = true then emitSymbol p r (nodeSym (node m (childAt m d.cur b))) pos d
    else if isInt (node m (childAt m d.cur b)) = true then
      Except.ok { d with cur := childAt m d.cur b, tail := d.tail + 1 } else _ else _) = _ at h
  generalize childAt m d.cur b = c at h ⊢
  cases h1 : isLeaf (node m d.cur) <;> rw [h1] at h
  · rw [if_neg (by decide)] at h
    split at h
    · rename_i h2
      split at h
      · rename_i h3; exact Or.inr (Or.inl ⟨rfl, h2, h3, h⟩)
      · rename_i h3
        split at h
        · rename_i h4
          injection h with h
          exact Or.inr (Or.inr ⟨rfl, h2, by simpa using h3, h4, h.symm⟩)
        · cases h
    · cases h
  · rw [if_pos rfl] at h
    cases b
    · exact Or.inl ⟨rfl, rfl, h⟩
    · cases h

theorem decodeStep_mem {p : Params} (hq : ∀ m j v, q m → q (setOutByte p m j v)) {m : Memory} {r : NodeIdx} {pos : Nat}
    {b : Bool} {d d' : Decoder} (h : decodeStep p m r pos b d = .ok d') (hd : q d.mem) : q d'.mem := by
  obtain ⟨_, _, h⟩ | ⟨_, _, _, h⟩ | ⟨_, _, _, _, rfl⟩ := decodeStep_cases h
  · exact emitSymbol_mem hq h hd
  · exact emitSymbol_mem hq h hd
  · exact hd

theorem decodeBits_mem {p : Params} (hq : ∀ m j v, q m → q (setOutByte p m j v)) {m : Memory} {r : NodeIdx}
    {n pos : Nat} {d d' : Decoder} (h : decodeBits p m r n pos d = .ok d') (hd : q d.mem) : q d'.mem := by
  induction n generalizing pos d with
  | zero => injection h with h; subst h; exact hd
  | succ n ih =>
    simp only [decodeBits] at h
    split at h
    · cases h
    · rename_i d1 h1; exact ih h (decodeStep_mem hq h1 hd)

theorem decodeRun_mem {s : State} (hq : ∀ m j v, q m → q (setOutByte s.params m j v)) {n : Nat} {d : Decoder}
    (h : decodeRun s n = .ok d) (hs : q s.mem) : q d.mem := by
  unfold decodeRun at h
  split at h
  · cases h
  split at h
  · cases h
  split at h
  · cases h
  · exact decodeBits_mem hq h hs

/-! ## The counts that reach registers -/

/-- A bit is packed only while it fits: the count of bits stays within 8 x OUT_CAP (R170). -/
theorem packBit_len {p : Params} {b : Bool} {j : Nat} {k k' : Packer} (h : packBit p b j k = .ok k') :
    k'.len = k.len + 1 ∧ k'.len ≤ 8 * p.outCap := by
  unfold packBit at h
  dsimp only at h
  split at h
  · cases h
  · rename_i hc
    split at h <;> (injection h with h; subst h; exact ⟨rfl, by simp only at *; omega⟩)

theorem packCode_len {p : Params} {v : CodeVal} {j n : Nat} {k k' : Packer} (h : packCode p v j n k = .ok k')
    (hk : k.len ≤ 8 * p.outCap) : k'.len = k.len + n ∧ k'.len ≤ 8 * p.outCap := by
  induction n generalizing k with
  | zero => injection h with h; subst h; exact ⟨rfl, hk⟩
  | succ n ih =>
    simp only [packCode] at h
    split at h
    · cases h
    · rename_i k1 h1
      obtain ⟨h2, h3⟩ := packBit_len h1
      obtain ⟨h4, h5⟩ := ih h h3
      exact ⟨by omega, h5⟩

theorem encodeBytes_len {p : Params} {m : Memory} {n j : Nat} {k k' : Packer} (h : encodeBytes p m n j k = .ok k')
    (hk : k.len ≤ 8 * p.outCap) : k'.len ≤ 8 * p.outCap := by
  induction n generalizing j k with
  | zero => injection h with h; subst h; exact hk
  | succ n ih =>
    simp only [encodeBytes] at h
    split at h
    · cases h
    · split at h
      · cases h
      · rename_i k1 h1; exact ih h (packCode_len h1 hk).2

theorem packFlush_len (p : Params) (k : Packer) : (packFlush p k).len = k.len := by
  unfold packFlush; split <;> rfl

theorem encodeRun_len {p : Params} {m : Memory} {n : Nat} {k : Packer} (h : encodeRun p m n = .ok k) :
    k.len ≤ 8 * p.outCap := by
  unfold encodeRun at h
  split at h
  · cases h
  · split at h
    · cases h
    · rename_i k1 h1
      injection h with h
      subst h
      rw [packFlush_len]
      exact encodeBytes_len h1 (Nat.zero_le _)

/-- One bit decoded: one symbol more and no tail, or the tail one longer (R190). -/
theorem decodeStep_counts {p : Params} {m : Memory} {r : NodeIdx} {pos : Nat} {b : Bool} {d d' : Decoder}
    (h : decodeStep p m r pos b d = .ok d') :
    (d'.optr = d.optr + 1 ∧ d'.tail = 0 ∧ d.optr < p.outCap) ∨ (d'.optr = d.optr ∧ d'.tail = d.tail + 1) := by
  have he : ∀ {i y}, emitSymbol p i y pos d = .ok d' → d'.optr = d.optr + 1 ∧ d'.tail = 0 ∧ d.optr < p.outCap := by
    intro i y h
    unfold emitSymbol at h
    split at h
    · cases h
    · injection h with h; subst h; exact ⟨rfl, rfl, by omega⟩
  obtain ⟨_, _, h⟩ | ⟨_, _, _, h⟩ | ⟨_, _, _, _, rfl⟩ := decodeStep_cases h
  · exact Or.inl (he h)
  · exact Or.inl (he h)
  · exact Or.inr ⟨rfl, rfl⟩

theorem decodeBits_counts {p : Params} {m : Memory} {r : NodeIdx} {n pos : Nat} {d d' : Decoder}
    (h : decodeBits p m r n pos d = .ok d') (ho : d.optr ≤ p.outCap) :
    d'.optr ≤ p.outCap ∧ d'.tail ≤ d.tail + n ∧ d'.optr ≤ d.optr + n := by
  induction n generalizing pos d with
  | zero => injection h with h; subst h; exact ⟨ho, Nat.le_refl _, Nat.le_refl _⟩
  | succ n ih =>
    simp only [decodeBits] at h
    split at h
    · cases h
    · rename_i d1 h1
      obtain ⟨a1, a2, a3⟩ | ⟨a1, a2⟩ := decodeStep_counts h1
      · obtain ⟨b1, b2, b3⟩ := ih h (by omega); omega
      · obtain ⟨b1, b2, b3⟩ := ih h (by omega); omega

theorem decodeRun_counts {s : State} {n : Nat} {d : Decoder} (h : decodeRun s n = .ok d) :
    d.optr ≤ s.params.outCap ∧ d.tail ≤ n ∧ n ≤ 8 * s.inLen.toNat ∧ s.inLen.toNat ≤ s.params.inCap := by
  unfold decodeRun at h
  split at h
  · cases h
  split at h
  · cases h
  split at h
  · cases h
  · obtain ⟨h1, h2, h3⟩ := decodeBits_counts h (Nat.zero_le _)
    exact ⟨h1, by simpa using h2, by omega, by omega⟩

end Sys2Proof.Machine
end

