-- ==== Sys2Proof/Laws/Decoder.lean ====
section
/-! SUPPORT. The decoder: one bit and many, over an arena that holds a tree (43_decoder_unpacker.md R190 to R192), and
decoding the code of a leaf (R193). -/

namespace Sys2Proof.Machine

/-! ## Trees, one bit at a time -/

/-- What one bit makes of the subtree at the cursor: the symbol it completes, if any, and the subtree it moves to; none
for a 1 bit at a lone leaf (R190). -/
def HuffmanTree.bit (root : HuffmanTree) : HuffmanTree → Bool → Option (Option Byte × HuffmanTree)
  | .leaf y, b => if b then none else some (some y, .leaf y)
  | .node l r, b =>
    match (if b then r else l) with
    | .leaf y => some (some y, root)
    | .node l' r' => some (none, .node l' r')

/-- What a bit string makes of a subtree at the cursor and a tail: the symbols, the subtree, the tail. -/
def HuffmanTree.run (root : HuffmanTree) : HuffmanTree → Nat → List Bool → Option (List Byte × HuffmanTree × Nat)
  | c, tail, [] => some ([], c, tail)
  | c, tail, b :: bs =>
    match root.bit c b with
    | none => none
    | some (some y, c') => (HuffmanTree.run root c' 0 bs).map (fun r => (y :: r.1, r.2))
    | some (none, c') => HuffmanTree.run root c' (tail + 1) bs

theorem HuffmanTree.decodeFrom_eq (root c : HuffmanTree) (tail : Nat) (bs : List Bool) :
    root.decodeFrom c tail bs = (root.run c tail bs).map (fun r => (r.1, r.2.2)) := by
  induction bs generalizing c tail with
  | nil => cases c <;> rfl
  | cons b bs ih =>
    cases c with
    | leaf y =>
      cases b
      · simp [HuffmanTree.decodeFrom, HuffmanTree.run, HuffmanTree.bit, ih, Function.comp_def]
      · rfl
    | node l r =>
      simp only [HuffmanTree.decodeFrom, HuffmanTree.run, HuffmanTree.bit]
      generalize (if b = true then r else l) = x
      cases x with
      | leaf y => simp [ih, Function.comp_def]
      | node l' r' => exact ih _ _

theorem HuffmanTree.run_append (root c : HuffmanTree) (tail : Nat) (xs ys : List Bool) :
    root.run c tail (xs ++ ys) =
      (root.run c tail xs).bind (fun r => (root.run r.2.1 r.2.2 ys).map (fun q => (r.1 ++ q.1, q.2))) := by
  induction xs generalizing c tail with
  | nil =>
    simp only [HuffmanTree.run, List.nil_append, Option.bind_some]
    cases root.run c tail ys <;> rfl
  | cons b xs ih =>
    simp only [List.cons_append, HuffmanTree.run]
    cases root.bit c b with
    | none => rfl
    | some r =>
      obtain ⟨o, c'⟩ := r
      cases o with
      | none => exact ih _ _
      | some y =>
        dsimp only
        rw [ih]
        cases root.run c' 0 xs with
        | none => rfl
        | some q =>
          simp only [Option.map_some, Option.bind_some]
          cases root.run q.2.1 q.2.2 ys <;> rfl

/-! ## The decoder over an arena that holds a tree -/

/-- One bit (R190). -/
theorem decodeStep_tree {p : Params} {m : Memory} {r : NodeIdx} {root c : HuffmanTree} (hr : root.Represents m r)
    {d : Decoder} (hc : c.Represents m d.cur) (pos : Nat) (b : Bool) :
    (root.bit c b = none → decodeStep p m r pos b d = .error (.invalidTree .missingChild d.cur pos)) ∧
    (∀ c', root.bit c b = some (none, c') →
      ∃ i, decodeStep p m r pos b d = .ok { d with cur := i, tail := d.tail + 1 } ∧ c'.Represents m i) ∧
    (∀ y c', root.bit c b = some (some y, c') →
      (d.optr < p.outCap → ∃ i, decodeStep p m r pos b d =
        .ok ⟨i, 0, d.optr + 1, setOutByte p d.mem d.optr y⟩ ∧ c'.Represents m i) ∧
      (p.outCap ≤ d.optr → decodeStep p m r pos b d = .error (.outOverflow p pos))) := by
  have emit : ∀ (i : NodeIdx) (y : Byte) (c' : HuffmanTree), c'.Represents m i →
      (d.optr < p.outCap → ∃ i', emitSymbol p i y pos d =
        .ok ⟨i', 0, d.optr + 1, setOutByte p d.mem d.optr y⟩ ∧ c'.Represents m i') ∧
      (p.outCap ≤ d.optr → emitSymbol p i y pos d = .error (.outOverflow p pos)) := by
    intro i y c' h
    unfold emitSymbol
    exact ⟨fun h1 => ⟨i, by rw [if_neg (by omega)], h⟩, fun h1 => by rw [if_pos h1]⟩
  cases c with
  | leaf y =>
    obtain ⟨h1, h2⟩ := hc
    cases b
    · refine ⟨nofun, nofun, fun y' c' h => ?_⟩
      obtain ⟨rfl, rfl⟩ : y = y' ∧ HuffmanTree.leaf y = c' := by simpa [HuffmanTree.bit] using h
      have e : decodeStep p m r pos false d = emitSymbol p d.cur y pos d := by
        simp only [decodeStep, h1, h2, if_true, Bool.false_eq_true, if_false]
      rw [e]
      exact emit _ _ _ ⟨h1, h2⟩
    · refine ⟨fun _ => ?_, nofun, nofun⟩
      simp only [decodeStep, h1, if_true]
  | node l r' =>
    obtain ⟨h1, h2, h3⟩ := hc
    have hx : (if b then r' else l).Represents m (childAt m d.cur b) := by
      unfold childAt
      cases b
      · exact h2
      · exact h3
    have e : decodeStep p m r pos b d =
        if isLeaf (node m (childAt m d.cur b)) = true then
          emitSymbol p r (nodeSym (node m (childAt m d.cur b))) pos d
        else if isInt (node m (childAt m d.cur b)) = true then
          .ok { d with cur := childAt m d.cur b, tail := d.tail + 1 }
        else .error (.invalidTree .badTag (childAt m d.cur b) pos) := by
      simp only [decodeStep, isLeaf_eq_false_of_isInt h1, h1, Bool.false_eq_true, if_false, if_true]
      rfl
    rw [e]
    simp only [HuffmanTree.bit]
    generalize (if b = true then r' else l) = x at hx ⊢
    cases x with
    | leaf y =>
      obtain ⟨g1, g2⟩ := hx
      rw [if_pos g1, g2]
      refine ⟨nofun, nofun, fun y' c' h => ?_⟩
      obtain ⟨rfl, rfl⟩ : y = y' ∧ root = c' := by simpa using h
      exact emit _ _ _ hr
    | node l' r'' =>
      rw [isLeaf_eq_false_of_isInt hx.1, if_neg Bool.false_ne_true, if_pos hx.1]
      refine ⟨nofun, fun c' h => ?_, nofun⟩
      obtain rfl : HuffmanTree.node l' r'' = c' := by simpa using h
      exact ⟨_, rfl, hx⟩

/-- The bits of IN_BUF from bit `pos` on. -/
def inBitsFrom (p : Params) (m : Memory) (pos n : Nat) : List Bool := (List.range' pos n).map (inBit p m)

theorem inBitsFrom_zero (p : Params) (m : Memory) (n : Nat) : inBitsFrom p m 0 n = inBits p m n := by
  unfold inBitsFrom inBits
  rw [List.range_eq_range']

theorem inBits_succ (p : Params) (m : Memory) (n : Nat) : inBits p m (n + 1) = inBits p m n ++ [inBit p m n] := by
  unfold inBits
  rw [List.range_succ, List.map_append]
  rfl

@[simp] theorem inBits_length (p : Params) (m : Memory) (n : Nat) : (inBits p m n).length = n := by simp [inBits]

/-- The loop over the bits, cut in two. -/
theorem decodeBits_add (p : Params) (m : Memory) (r : NodeIdx) (a b pos : Nat) (d : Decoder) :
    decodeBits p m r (a + b) pos d = (decodeBits p m r a pos d).bind (decodeBits p m r b (pos + a)) := by
  induction a generalizing pos d with
  | zero => rw [Nat.zero_add]; rfl
  | succ a ih =>
    rw [show a + 1 + b = (a + b) + 1 by omega]
    simp only [decodeBits]
    split
    · rfl
    · rw [ih, show pos + 1 + a = pos + (a + 1) by omega]

/-! ## The decoder over any arena -/

/-- What the first bit of a walk does, to the walk and to the decoder: it emits a symbol and returns to the root, or it
moves to an internal child. -/
theorem arenaDecode_cons {m : Memory} {r cur : NodeIdx} (hc : isLeaf (node m cur) = true → cur = r) {tail : Nat} {b : Bool}
    {bs : List Bool} {res : List Byte × NodeIdx × Nat}
    (h : arenaDecode (node m) r cur tail (b :: bs) = some res) :
    (∃ y q, arenaDecode (node m) r r 0 bs = some q ∧ res = (y :: q.1, q.2) ∧
      ∀ (p : Params) (pos : Nat) (d : Decoder), d.cur = cur → decodeStep p m r pos b d = emitSymbol p r y pos d) ∨
    (∃ c, isInt (node m c) = true ∧ arenaDecode (node m) r c (tail + 1) bs = some res ∧
      ∀ (p : Params) (pos : Nat) (d : Decoder), d.cur = cur →
        decodeStep p m r pos b d = .ok { d with cur := c, tail := d.tail + 1 }) := by
  simp only [arenaDecode] at h
  generalize hx : (if b = true then nodeRight (node m cur) else nodeLeft (node m cur)) = c at h
  have out : ∀ {y : Byte}, (arenaDecode (node m) r r 0 bs).map (fun q => (y :: q.1, q.2)) = some res →
      ∃ q, arenaDecode (node m) r r 0 bs = some q ∧ res = (y :: q.1, q.2) := by
    intro y h
    obtain ⟨q, h1, h2⟩ := Option.map_eq_some_iff.mp h
    exact ⟨q, h1, h2.symm⟩
  split at h
  · rename_i hl
    split at h
    · cases h
    · rename_i hb
      obtain ⟨q, h1, h2⟩ := out h
      refine Or.inl ⟨_, q, h1, h2, fun p pos d hd => ?_⟩
      have hr := hc hl
      subst hr
      simp only [decodeStep, hd, hl, if_true, if_neg hb]
  · rename_i hl
    split at h
    · rename_i hi
      split at h
      · rename_i hlc
        obtain ⟨q, h1, h2⟩ := out h
        refine Or.inl ⟨_, q, h1, h2, fun p pos d hd => ?_⟩
        simp only [decodeStep, hd, hx, if_neg hl, if_pos hi, if_pos hlc]
      · rename_i hlc
        split at h
        · rename_i hic
          refine Or.inr ⟨c, hic, h, fun p pos d hd => ?_⟩
          simp only [decodeStep, hd, hx, if_neg hl, if_pos hi, if_neg hlc, if_pos hic]
        · cases h
    · cases h

theorem arenaDecode_append (nd : NodeIdx → Word) (r cur : NodeIdx) (tail : Nat) (xs ys : List Bool) :
    arenaDecode nd r cur tail (xs ++ ys) = (arenaDecode nd r cur tail xs).bind
      (fun a => (arenaDecode nd r a.2.1 a.2.2 ys).map (fun q => (a.1 ++ q.1, q.2))) := by
  induction xs generalizing cur tail with
  | nil =>
    simp only [arenaDecode, List.nil_append, Option.bind_some]
    cases arenaDecode nd r cur tail ys <;> rfl
  | cons b xs ih =>
    have em : ∀ y : Byte, (arenaDecode nd r r 0 (xs ++ ys)).map (fun q => (y :: q.1, q.2)) =
        ((arenaDecode nd r r 0 xs).map (fun q => (y :: q.1, q.2))).bind
          (fun a => (arenaDecode nd r a.2.1 a.2.2 ys).map (fun q => (a.1 ++ q.1, q.2))) := by
      intro y
      rw [ih]
      cases arenaDecode nd r r 0 xs with
      | none => rfl
      | some a => simp only [Option.bind_some, Option.map_some, Option.map_map]; rfl
    simp only [List.cons_append, arenaDecode, em]
    generalize (if b = true then nodeRight (nd cur) else nodeLeft (nd cur)) = c
    cases isLeaf (nd cur) with
    | true => cases b <;> rfl
    | false =>
      cases isInt (nd cur) with
      | false => rfl
      | true =>
        cases isLeaf (nd c) with
        | true => rfl
        | false =>
          cases isInt (nd c) with
          | true => exact ih c (tail + 1)
          | false => rfl

/-- Many bits (R190, R191): when the walk meets no broken word, the symbols go to OUT_BUF in order, if they fit. -/
theorem decodeBits_arena {p : Params} {m : Memory} {r : NodeIdx} {d : Decoder}
    (hc : isLeaf (node m d.cur) = true → d.cur = r) (n pos : Nat) {out : List Byte} {cur : NodeIdx} {tail : Nat}
    (h : arenaDecode (node m) r d.cur d.tail (inBitsFrom p m pos n) = some (out, cur, tail))
    (hf : d.optr + out.length ≤ p.outCap) :
    ∃ d', decodeBits p m r n pos d = .ok d' ∧ d'.cur = cur ∧ (isLeaf (node m cur) = true → cur = r) ∧ d'.tail = tail ∧
      d'.optr = d.optr + out.length ∧
      ∀ a, readByte d'.mem a = if 0x20000 + d.optr ≤ a ∧ a < 0x20000 + d.optr + out.length
        then out.getD (a - 0x20000 - d.optr) 0 else readByte d.mem a := by
  induction n generalizing d pos out with
  | zero =>
    obtain ⟨rfl, rfl, rfl⟩ : [] = out ∧ d.cur = cur ∧ d.tail = tail := by simpa [inBitsFrom, arenaDecode] using h
    refine ⟨d, rfl, rfl, hc, rfl, rfl, fun a => ?_⟩
    rw [if_neg (by simp)]
  | succ n ih =>
    rw [show inBitsFrom p m pos (n + 1) = inBit p m pos :: inBitsFrom p m (pos + 1) n from rfl] at h
    rcases arenaDecode_cons hc h with ⟨y, ⟨out1, cur1, tail1⟩, h1, h2, h3⟩ | ⟨c, hi, h1, h3⟩
    · obtain ⟨rfl, rfl, rfl⟩ : out = y :: out1 ∧ cur = cur1 ∧ tail = tail1 := by simpa using h2
      rw [List.length_cons] at hf
      have e1 : decodeStep p m r pos (inBit p m pos) d = .ok ⟨r, 0, d.optr + 1, setOutByte p d.mem d.optr y⟩ := by
        rw [h3 p pos d rfl, emitSymbol, if_neg (by omega)]
      obtain ⟨d', e2, g1, g2, g3, g4, g5⟩ :=
        ih (d := ⟨r, 0, d.optr + 1, setOutByte p d.mem d.optr y⟩) (fun _ => rfl) (pos + 1) h1 (by simp only; omega)
      refine ⟨d', by simp only [decodeBits, e1, e2], g1, g2, g3, by rw [g4, List.length_cons]; simp only; omega, ?_⟩
      intro a
      simp only at g5
      rw [g5, List.length_cons, readByte_setOutByte]
      by_cases ha : a = 0x20000 + d.optr
      · rw [if_neg (by omega), if_pos (by omega), if_pos (by omega), show a - 0x20000 - d.optr = 0 by omega,
          List.getD_cons_zero]
      · by_cases ha2 : 0x20000 + d.optr ≤ a ∧ a < 0x20000 + d.optr + (out1.length + 1)
        · rw [if_pos (by omega), if_pos ha2, show a - 0x20000 - d.optr = (a - 0x20000 - (d.optr + 1)) + 1 by omega,
            List.getD_cons_succ]
        · rw [if_neg (by omega), if_neg ha2, if_neg (by omega)]
    · have e1 := h3 p pos d rfl
      obtain ⟨d', e2, g⟩ := ih (d := { d with cur := c, tail := d.tail + 1 })
        (fun hl => by rw [isLeaf_eq_false_of_isInt hi] at hl; cases hl) (pos + 1) h1 hf
      exact ⟨d', by simp only [decodeBits, e1, e2], g⟩

/-- On an arena that holds a tree, the walk is the tree's. -/
theorem arenaDecode_tree {m : Memory} {r : NodeIdx} {root : HuffmanTree} (hr : root.Represents m r) {c c' : HuffmanTree}
    {cur : NodeIdx} (hc : c.Represents m cur) (hl : isLeaf (node m cur) = true → cur = r) {tail tail' : Nat}
    {bs : List Bool} {out : List Byte} (h : root.run c tail bs = some (out, c', tail')) :
    ∃ cur', arenaDecode (node m) r cur tail bs = some (out, cur', tail') ∧ c'.Represents m cur' := by
  induction bs generalizing c cur tail out with
  | nil =>
    obtain ⟨rfl, rfl, rfl⟩ : [] = out ∧ c = c' ∧ tail = tail' := by simpa [HuffmanTree.run] using h
    exact ⟨cur, rfl, hc⟩
  | cons b bs ih =>
    have emit : ∀ {y : Byte} {c1 : HuffmanTree}, c1.Represents m r →
        (root.run c1 0 bs).map (fun q => (y :: q.1, q.2)) = some (out, c', tail') →
        ∃ cur', (arenaDecode (node m) r r 0 bs).map (fun q => (y :: q.1, q.2)) = some (out, cur', tail') ∧
          c'.Represents m cur' := by
      intro y c1 h1 h2
      obtain ⟨⟨out1, c2, t2⟩, h3, h4⟩ := Option.map_eq_some_iff.mp h2
      obtain ⟨rfl, rfl, rfl⟩ : y :: out1 = out ∧ c2 = c' ∧ t2 = tail' := by simpa using h4
      obtain ⟨cur', g1, g2⟩ := ih h1 (fun _ => rfl) h3
      exact ⟨cur', by rw [g1]; rfl, g2⟩
    rw [HuffmanTree.run] at h
    simp only [arenaDecode]
    cases c with
    | leaf y =>
      obtain ⟨h1, h2⟩ := hc
      have hcur := hl h1
      subst hcur
      cases b
      · simp only [h1, if_true, Bool.false_eq_true, if_false, h2]
        exact emit (c1 := .leaf y) ⟨h1, h2⟩ h
      · cases h
    | node l rt =>
      obtain ⟨h1, h2, h3⟩ := hc
      have hx : (if b then rt else l).Represents m (if b then nodeRight (node m cur) else nodeLeft (node m cur)) := by
        cases b
        · exact h2
        · exact h3
      simp only [isLeaf_eq_false_of_isInt h1, h1, Bool.false_eq_true, if_false, if_true]
      simp only [HuffmanTree.bit] at h
      generalize (if b = true then rt else l) = x at hx h
      generalize (if b = true then nodeRight (node m cur) else nodeLeft (node m cur)) = i at hx ⊢
      cases x with
      | leaf y =>
        simp only [hx.1, if_true, hx.2]
        exact emit hr h
      | node l' r' =>
        simp only [isLeaf_eq_false_of_isInt hx.1, hx.1, Bool.false_eq_true, if_false, if_true]
        exact ih hx (fun h' => by rw [isLeaf_eq_false_of_isInt hx.1] at h'; cases h') h

/-- Many bits over an arena that holds a tree, from the root. -/
theorem decodeBits_tree {p : Params} {m : Memory} {r : NodeIdx} {root : HuffmanTree} (hr : root.Represents m r)
    {c' : HuffmanTree} {d : Decoder} (hd : d.cur = r) (n pos : Nat) {out : List Byte} {tail : Nat}
    (h : root.run root d.tail (inBitsFrom p m pos n) = some (out, c', tail)) (hf : d.optr + out.length ≤ p.outCap) :
    ∃ d', decodeBits p m r n pos d = .ok d' ∧ c'.Represents m d'.cur ∧ d'.tail = tail ∧ d'.optr = d.optr + out.length ∧
      ∀ a, readByte d'.mem a = if 0x20000 + d.optr ≤ a ∧ a < 0x20000 + d.optr + out.length
        then out.getD (a - 0x20000 - d.optr) 0 else readByte d.mem a := by
  obtain ⟨cur', h1, h2⟩ := arenaDecode_tree hr (cur := d.cur) (by rw [hd]; exact hr) (fun _ => hd) h
  obtain ⟨d', g1, g2, -, g3⟩ := decodeBits_arena (fun _ => hd) n pos h1 hf
  exact ⟨d', g1, by rw [g2]; exact h2, g3⟩

/-! ## Decoding codes -/

/-- The path of a leaf below a cursor brings out its symbol, from wherever the tail stands. -/
theorem HuffmanTree.run_path (root l r : HuffmanTree) (tail : Nat) {y : Byte} {c : List Bool}
    (h : (y, c) ∈ (HuffmanTree.node l r).leaves) : root.run (.node l r) tail c = some ([y], root, 0) := by
  induction c generalizing l r tail with
  | nil => simp [HuffmanTree.leaves] at h
  | cons b c ih =>
    have h' : (y, c) ∈ (if b then r else l).leaves := by
      simp only [HuffmanTree.leaves, List.mem_append, List.mem_map, Prod.mk.injEq, List.cons.injEq] at h
      obtain ⟨x, hx, h1, h2, h3⟩ | ⟨x, hx, h1, h2, h3⟩ := h
      · subst h2; rw [← h1, ← h3]; exact hx
      · subst h2; rw [← h1, ← h3]; exact hx
    simp only [HuffmanTree.run, HuffmanTree.bit]
    generalize (if b = true then r else l) = x at h' ⊢
    cases x with
    | leaf z =>
      obtain ⟨rfl, rfl⟩ : y = z ∧ c = [] := by simpa [HuffmanTree.leaves] using h'
      rfl
    | node l' r' => exact ih l' r' _ h'

/-- The code of a symbol brings out the symbol (R193). -/
theorem HuffmanTree.run_code (T : HuffmanTree) {y : Byte} {c : List Bool} (h : (y, c) ∈ T.codes) :
    T.run T 0 c = some ([y], T, 0) := by
  cases T with
  | leaf z =>
    obtain ⟨rfl, rfl⟩ : y = z ∧ c = [false] := by simpa [HuffmanTree.codes] using h
    rfl
  | node l r => exact HuffmanTree.run_path _ l r 0 h

/-- The codes of a byte sequence bring out the sequence (R193). -/
theorem HuffmanTree.run_codes (T : HuffmanTree) (code : Byte → List Bool) (bs : List Byte)
    (h : ∀ y ∈ bs, (y, code y) ∈ T.codes) : T.run T 0 (bs.flatMap code) = some (bs, T, 0) := by
  induction bs with
  | nil => rfl
  | cons y bs ih =>
    rw [List.flatMap_cons, HuffmanTree.run_append, HuffmanTree.run_code T (h y (List.mem_cons_self ..))]
    simp only [Option.bind_some, ih (fun z hz => h z (List.mem_cons_of_mem _ hz)), Option.map_some]
    rfl

end Sys2Proof.Machine
end

