-- ==== Sys2Proof/Laws/Encoder.lean ====
section
/-! SUPPORT. The packer and the encoder: what packing a bit, a code and an input makes of OUT_BUF (42_encoder_packer.md
R170 to R172; 00_scope.md R9). -/

namespace Sys2Proof.Machine

/-! ## A packed byte, bit by bit -/

/-- Bit i of byte k of a packed BitStream is bit 8k + 7 - i of the stream (R9). -/
theorem packedByte_getLsbD (bits : List Bool) (k : Nat) {i : Nat} (hi : i < 8) :
    (packedByte bits k).getLsbD i = bits.getD (8 * k + (7 - i)) false := by
  unfold packedByte
  simp only [BitVec.getLsbD_append, BitVec.getLsbD_ofBool]
  interval_cases i <;> simp

theorem getD_snoc (bits : List Bool) (b : Bool) (n : Nat) :
    (bits ++ [b]).getD n false = if n < bits.length then bits.getD n false else if n = bits.length then b else false := by
  simp only [List.getD_eq_getElem?_getD]
  split
  · rename_i h; rw [List.getElem?_append_left h]
  · rename_i h
    rw [List.getElem?_append_right (by omega)]
    split
    · rename_i e; simp [e]
    · rw [List.getElem?_eq_none (by simp; omega)]
      rfl

/-- A whole byte of a stream does not change when a bit is added at its end. -/
theorem packedByte_snoc (bits : List Bool) (b : Bool) {k : Nat} (h : 8 * k + 8 ≤ bits.length) :
    packedByte (bits ++ [b]) k = packedByte bits k := by
  apply BitVec.eq_of_getLsbD_eq
  intro i hi
  rw [packedByte_getLsbD _ _ hi, packedByte_getLsbD _ _ hi, getD_snoc, if_pos (by omega)]

/-! ## The packer -/

/-- The packer after the bits `bits`, with memory `m` at its start: the whole bytes are in OUT_BUF, the others of them
in the accumulator, nothing else has changed (R56, R170). -/
structure Packed (p : Params) (m : Memory) (bits : List Bool) (k : Packer) : Prop where
  len : k.len = bits.length
  fits : bits.length ≤ 8 * p.outCap
  acnt : k.acnt = bits.length % 8
  acc : ∀ i, i < 8 → k.acc.getLsbD i = (decide (i < k.acnt) && bits.getD (bits.length - 1 - i) false)
  mem : ∀ a, readByte k.mem a =
    if 0x20000 ≤ a ∧ a < 0x20000 + bits.length / 8 then packedByte bits (a - 0x20000) else readByte m a

theorem Packed.init (p : Params) (m : Memory) : Packed p m [] (Packer.init m) where
  len := rfl
  fits := Nat.zero_le _
  acnt := rfl
  acc := fun i _ => by simp [Packer.init]
  mem := fun a => by rw [if_neg (by simp)]; rfl

/-- The accumulator with one bit shifted in. -/
theorem shiftIn_getLsbD (acc : Byte) (b : Bool) {i : Nat} (hi : i < 8) :
    ((acc <<< 1) ||| (BitVec.ofBool b).setWidth 8).getLsbD i = if i = 0 then b else acc.getLsbD (i - 1) := by
  simp only [BitVec.getLsbD_or, BitVec.getLsbD_shiftLeft, BitVec.getLsbD_setWidth, BitVec.getLsbD_ofBool]
  by_cases h : i = 0
  · subst h; simp
  · simp [h, hi, show ¬ i < 1 by omega]

/-- `pack_bit` (R170): the bit is added while it fits, and OUT_OVERFLOW is raised when it does not. -/
theorem packBit_spec {p : Params} {m : Memory} {bits : List Bool} {k : Packer} (h : Packed p m bits k) (b : Bool) (j : Nat) :
    (bits.length < 8 * p.outCap → ∃ k', packBit p b j k = .ok k' ∧ Packed p m (bits ++ [b]) k') ∧
    (8 * p.outCap ≤ bits.length → packBit p b j k = .error (.outOverflow p j)) := by
  have hl := h.len
  have ha := h.acnt
  refine ⟨fun hf => ?_, fun hf => ?_⟩
  · unfold packBit
    dsimp only
    rw [if_neg (by omega)]
    have hacc : ∀ i, i < 8 → i ≤ k.acnt → ((k.acc <<< 1) ||| (BitVec.ofBool b).setWidth 8).getLsbD i =
        (bits ++ [b]).getD (bits.length - i) false := by
      intro i hi hik
      rw [shiftIn_getLsbD _ _ hi, getD_snoc]
      by_cases h0 : i = 0
      · subst h0; simp
      · rw [if_neg h0, h.acc _ (by omega), decide_eq_true (by omega), Bool.true_and, if_pos (by omega)]
        congr 1
        omega
    split
    · rename_i h8
      refine ⟨_, rfl, ⟨by simp [hl], by simp; omega, by simp; omega, fun i _ => by simp, fun a => ?_⟩⟩
      have e : (k.len + 1) / 8 - 1 = bits.length / 8 := by omega
      rw [readByte_setOutByte, h.mem, List.length_append, List.length_singleton, e]
      by_cases ha1 : a = 0x20000 + bits.length / 8
      · rw [if_pos (by omega), if_pos (by omega)]
        apply BitVec.eq_of_getLsbD_eq
        intro i hi
        rw [hacc i hi (by omega), packedByte_getLsbD _ _ hi]
        congr 1
        omega
      · rw [if_neg (by omega)]
        split
        · rw [if_pos (by omega), packedByte_snoc bits b (by omega)]
        · rw [if_neg (by omega)]
    · rename_i h8
      refine ⟨_, rfl, ⟨by simp [hl], by simp; omega, by simp; omega, fun i hi => ?_, fun a => ?_⟩⟩
      · dsimp only
        by_cases hik : i ≤ k.acnt
        · rw [hacc i hi hik, decide_eq_true (by omega), Bool.true_and]
          congr 1
          simp
        · rw [shiftIn_getLsbD _ _ hi, if_neg (by omega), h.acc _ (by omega), decide_eq_false (by omega),
            decide_eq_false (by omega)]
          rfl
      · dsimp only
        rw [h.mem, List.length_append, List.length_singleton, show (bits.length + 1) / 8 = bits.length / 8 by omega]
        split
        · rw [packedByte_snoc bits b (by omega)]
        · rfl
  · unfold packBit
    dsimp only
    rw [if_pos (by omega)]

/-- The loop of one code (R171). -/
theorem packCode_spec {p : Params} {m : Memory} {bits : List Bool} {k : Packer} (h : Packed p m bits k) (v : CodeVal)
    (j n : Nat) :
    (bits.length + n ≤ 8 * p.outCap → ∃ k', packCode p v j n k = .ok k' ∧ Packed p m (bits ++ codeBits v n) k') ∧
    (8 * p.outCap < bits.length + n → packCode p v j n k = .error (.outOverflow p j)) := by
  induction n generalizing bits k with
  | zero =>
    refine ⟨fun _ => ⟨k, rfl, by simpa [codeBits] using h⟩, fun hf => ?_⟩
    have := h.fits
    omega
  | succ n ih =>
    obtain ⟨h1, h2⟩ := packBit_spec h (v.getLsbD n) j
    by_cases hb : bits.length < 8 * p.outCap
    · obtain ⟨k1, e1, hk1⟩ := h1 hb
      obtain ⟨h3, h4⟩ := ih hk1
      rw [List.length_append, List.length_singleton] at h3 h4
      refine ⟨fun hf => ?_, fun hf => ?_⟩
      · obtain ⟨k2, e2, hk2⟩ := h3 (by omega)
        refine ⟨k2, by simp only [packCode, e1, e2], ?_⟩
        rwa [List.append_assoc] at hk2
      · simp only [packCode, e1, h4 (by omega)]
    · refine ⟨fun hf => absurd hf (by omega), fun _ => ?_⟩
      simp only [packCode, h2 (by omega)]

/-- `pack_flush` (R170): the last byte is padded with zeros on the right. -/
theorem packFlush_spec {p : Params} {m : Memory} {bits : List Bool} {k : Packer} (h : Packed p m bits k) :
    (packFlush p k).len = bits.length ∧ ∀ a, readByte (packFlush p k).mem a =
      if 0x20000 ≤ a ∧ a < 0x20000 + (bits.length + 7) / 8 then packedByte bits (a - 0x20000) else readByte m a := by
  have hl := h.len
  have ha := h.acnt
  have hf := h.fits
  unfold packFlush
  split
  · refine ⟨hl, fun a => ?_⟩
    rw [h.mem, show (bits.length + 7) / 8 = bits.length / 8 by omega]
  · refine ⟨hl, fun a => ?_⟩
    dsimp only
    rw [readByte_setOutByte, h.mem, hl]
    by_cases ha1 : a = 0x20000 + bits.length / 8
    · rw [if_pos (by omega), if_pos (by omega)]
      apply BitVec.eq_of_getLsbD_eq
      intro i hi
      rw [packedByte_getLsbD _ _ hi, BitVec.getLsbD_shiftLeft]
      by_cases hc : i < 8 - k.acnt
      · rw [List.getD_eq_default _ _ (by omega)]
        simp [hc]
      · rw [h.acc _ (by omega), decide_eq_true hi, decide_eq_false hc,
          decide_eq_true (show i - (8 - k.acnt) < k.acnt by omega), Bool.not_false]
        simp only [Bool.true_and]
        congr 1
        omega
    · rw [if_neg (by omega)]
      split
      · rw [if_pos (by omega)]
      · rw [if_neg (by omega)]

/-! ## The encoder -/

/-- The loop over the input, cut in two. -/
theorem encodeBytes_add (p : Params) (m : Memory) (a b j : Nat) (k : Packer) :
    encodeBytes p m (a + b) j k = (encodeBytes p m a j k).bind (encodeBytes p m b (j + a)) := by
  induction a generalizing j k with
  | zero => rw [Nat.zero_add]; rfl
  | succ a ih =>
    rw [show a + 1 + b = (a + b) + 1 by omega]
    simp only [encodeBytes]
    split
    · rfl
    · split
      · rfl
      · rw [ih, show j + 1 + a = j + (a + 1) by omega]

/-- The bytes of IN_BUF from index j on. -/
def inBytesFrom (p : Params) (m : Memory) (j n : Nat) : List Byte := (List.range' j n).map (inByte p m)

theorem inBytesFrom_zero (p : Params) (m : Memory) (n : Nat) : inBytesFrom p m 0 n = inBytes p m n := by
  unfold inBytesFrom inBytes
  rw [List.range_eq_range']

theorem inBytes_succ (p : Params) (m : Memory) (n : Nat) : inBytes p m (n + 1) = inBytes p m n ++ [inByte p m n] := by
  unfold inBytes
  rw [List.range_succ, List.map_append]
  rfl

theorem bitStream_append (m : Memory) (a b : List Byte) : bitStream m (a ++ b) = bitStream m a ++ bitStream m b := by
  unfold bitStream
  exact List.flatMap_append

/-- The loop over the input (R171): with a code for every byte and room for every bit, the packer takes the BitStream
of the bytes. -/
theorem encodeBytes_spec {p : Params} {m m0 : Memory} {bits : List Bool} {k : Packer} (h : Packed p m0 bits k) (j n : Nat)
    (hc : ∀ i, j ≤ i → i < j + n → codeLen m (inByte p m i) ≠ 0)
    (hf : (bits ++ bitStream m (inBytesFrom p m j n)).length ≤ 8 * p.outCap) :
    ∃ k', encodeBytes p m n j k = .ok k' ∧ Packed p m0 (bits ++ bitStream m (inBytesFrom p m j n)) k' := by
  induction n generalizing j bits k with
  | zero => exact ⟨k, rfl, by simpa [inBytesFrom, bitStream] using h⟩
  | succ n ih =>
    have e : inBytesFrom p m j (n + 1) = inByte p m j :: inBytesFrom p m (j + 1) n := rfl
    have e2 : bitStream m (inBytesFrom p m j (n + 1)) =
        codeOf m (inByte p m j) ++ bitStream m (inBytesFrom p m (j + 1) n) := by rw [e]; rfl
    rw [e2, ← List.append_assoc] at hf ⊢
    have hf1 : bits.length + (codeLen m (inByte p m j)).toNat ≤ 8 * p.outCap := by
      rw [List.length_append, List.length_append, codeOf_length] at hf
      omega
    obtain ⟨k1, e1, hk1⟩ := (packCode_spec h (codeVal m (inByte p m j)) j _).1 hf1
    obtain ⟨k2, e2, hk2⟩ := ih hk1 (j + 1) (fun i h1 h2 => hc i (by omega) (by omega)) hf
    refine ⟨k2, ?_, hk2⟩
    simp only [encodeBytes, if_neg (hc j (by omega) (by omega)), e1, e2]

end Sys2Proof.Machine
end

