-- ==== Sys2Proof/Laws/HostBus.lean ====
section
/-! SUPPORT. What the host's accesses can do: the byte lanes (20_memory.md R74), reads (R71), every shape of a write
(R72, R76), the soft reset (70_reset_and_hazards.md R271) and one host statement (30_encoding.md R120, R121). -/

namespace Sys2Proof.Machine

/-! ## Byte lanes -/

/-- Bit i of a word of byte lanes. -/
theorem lanes_getLsbD (g : Nat → Byte) (k i : Nat) (hi : i < 32) :
    (lanes g k).getLsbD i = (g (4 * k + i / 8)).getLsbD (i % 8) := by
  unfold lanes
  simp only [BitVec.getLsbD_append]
  by_cases h1 : i < 8
  · rw [if_pos (by omega), if_pos (by omega), if_pos h1, show i / 8 = 0 by omega, show i % 8 = i by omega]; rfl
  by_cases h2 : i < 16
  · rw [if_pos (by omega), if_pos (by omega), if_neg h1, show i / 8 = 1 by omega, show i % 8 = i - 8 by omega]
  by_cases h3 : i < 24
  · rw [if_pos (by omega), if_neg (by omega), show i / 8 = 2 by omega]; congr 1; omega
  · rw [if_neg (by omega), show i / 8 = 3 by omega]; congr 1; omega

/-- A byte lane of a word (R74). -/
theorem lanes_extract (g : Nat → Byte) (k : Nat) {j : Nat} (hj : j < 4) :
    (lanes g k).extractLsb' (8 * j) 8 = g (4 * k + j) := by
  apply BitVec.eq_of_getLsbD_eq
  intro i hi
  rw [BitVec.getLsbD_extractLsb', lanes_getLsbD _ _ _ (by omega), decide_eq_true hi, Bool.true_and]
  rw [show (8 * j + i) / 8 = j by omega, show (8 * j + i) % 8 = i by omega]

/-- Lanes look at four bytes. -/
theorem lanes_congr {g g' : Nat → Byte} {k} (h : ∀ j, j / 4 = k → g j = g' j) : lanes g k = lanes g' k := by
  unfold lanes
  rw [h _ (by omega), h (4*k+2) (by omega), h (4*k+1) (by omega), h (4*k) (by omega)]

theorem inByte_writeInBuf (p : Params) (k : Nat) (v : Word) (m : Memory) (j : Nat) :
    inByte p (writeInBuf p k v m) j = if j < p.inCap ∧ j / 4 = k then lane v (j % 4) else inByte p m j := by
  unfold writeInBuf
  rw [inByte_setInByte, inByte_setInByte, inByte_setInByte, inByte_setInByte]
  split_ifs <;> first | omega | rfl | (congr 1; omega)

theorem readByte_writeInBuf_outside (p k v m) {a : Nat} (h : a / 4 ≠ 0x4000 + k) :
    readByte (writeInBuf p k v m) a = readByte m a := by
  unfold writeInBuf
  rw [readByte_setInByte, readByte_setInByte, readByte_setInByte, readByte_setInByte,
    if_neg (by omega), if_neg (by omega), if_neg (by omega), if_neg (by omega)]

theorem Memory.wf_writeInBuf {m : Memory} (h : Memory.wf m = true) (p : Params) (k : Nat) (v : Word) :
    Memory.wf (writeInBuf p k v m) = true :=
  Memory.wf_setInByte (Memory.wf_setInByte (Memory.wf_setInByte (Memory.wf_setInByte h _ _ _) _ _ _) _ _ _) _ _ _

theorem Memory.resides_writeInBuf {p : Params} {m : Memory} (h : Memory.resides p m = true) (k : Nat) (v : Word) :
    Memory.resides p (writeInBuf p k v m) = true :=
  Memory.resides_setInByte (Memory.resides_setInByte (Memory.resides_setInByte (Memory.resides_setInByte h _ _) _ _) _ _) _ _

/-! ## Reads -/

/-- The bits of STATUS (R27). -/
theorem statusWord_bits (s : State) :
    (statusWord s).getLsbD 0 = s.busy ∧ (statusWord s).getLsbD 1 = s.done ∧ (statusWord s).getLsbD 2 = s.err ∧
    (statusWord s).getLsbD 3 = s.wrWhileBusy ∧ (statusWord s).getLsbD 4 = s.cmdOverrun ∧ (statusWord s).toNat < 32 := by
  unfold statusWord
  cases s.busy <;> cases s.done <;> cases s.err <;> cases s.wrWhileBusy <;> cases s.cmdOverrun <;> decide

/-- Registers do not read memory. -/
theorem readReg_congr {s t : State} (h : t = { s with mem := t.mem }) (r : Reg) : readReg t r = readReg s r := by
  rw [h]; cases r <;> rfl

/-- A word depends on its own four bytes alone. -/
theorem readTarget_congr {s t : State} (h : t = { s with mem := t.mem }) {off : Offset}
    (hm : ∀ a, a / 4 = off.toNat / 4 → readByte t.mem a = readByte s.mem a) :
    readTarget t (target off) = readTarget s (target off) := by
  have hp : t.params = s.params := by rw [h]
  rcases target_cases off with ⟨r, h', e⟩ | ⟨y, h', e⟩ | ⟨y, h', e⟩ | ⟨y, h', e⟩ | ⟨y, k, hk, h', e⟩ | ⟨k, hk, h', e⟩ |
      ⟨k, hk, h', e⟩ | ⟨h', e⟩ <;> rw [e] <;> simp only [readTarget]
  · exact readReg_congr h r
  · unfold freq; rw [readLE_congr fun b h1 h2 => hm b (by unfold freqAddr at h1 h2; omega)]
  · unfold node; rw [readLE_congr fun b h1 h2 => hm b (by unfold nodeAddr at h1 h2; omega)]
  · unfold codeLen; rw [hm _ (by unfold codeLenAddr; omega)]
  · unfold codeValWord; rw [readLE_congr fun b h1 h2 => hm b (by unfold codeValAddr at h1 h2; omega)]
  · rw [hp]
    refine lanes_congr fun j hj => ?_
    unfold inByte inBufAddr; rw [hm _ (by omega)]
  · rw [hp]
    refine lanes_congr fun j hj => ?_
    unfold outByte outBufAddr; rw [hm _ (by omega)]

/-- Registers below 0x28 and the capacities lie in no write set (R78). -/
theorem inWriteSet_reg (p c) (r : Reg) (h : r.index < 10 ∨ 18 ≤ r.index) : inWriteSet p c (.reg r) = false := by
  rcases c with _ | i
  · rfl
  · cases i <;> cases r <;> first | rfl | (exfalso; revert h; decide)

/-- Those registers read their stored value at every moment. -/
theorem memRead_reg {off : Offset} (r : Reg) (h : off.toNat / 4 = r.index) (hr : r.index < 10 ∨ 18 ≤ r.index) (s) :
    memRead s off = readReg s r := by
  rw [memRead_stored (by rw [target_reg r h]; exact inWriteSet_reg _ _ r hr), target_reg r h]; rfl

/-- A word of the OUT_BUF window with no byte below OUT_CAP reads 0 at every moment (R52, R71, R78). -/
theorem memRead_beyondOutBuf {s : State} {off : Offset} {k : Nat} (h : target off = .outBuf k) (hk : s.params.outCap ≤ 4 * k) :
    memRead s off = 0 := by
  have hw : inWriteSet s.params (latched s) (target off) = false := by
    rw [h]
    simp [inWriteSet]
    omega
  rw [memRead_stored hw, h]
  have hz : ∀ j, j / 4 = k → outByte s.params s.mem j = 0 := fun j hj => if_neg (by omega)
  simp only [readTarget, lanes_congr (g' := fun _ => 0) hz]
  show (0#8 ++ (0#8 ++ (0#8 ++ 0#8)) : Word) = 0
  decide

/-! ## Writes -/

theorem memWrite_cmd {off : Offset} (h : off.toNat / 4 = 3) (v s) : memWrite off v s = accept v s := by
  rw [memWrite_busyWritable (by rw [target_reg .cmd h]; rfl), target_reg .cmd h]; rfl

theorem memWrite_ctrl {off : Offset} (h : off.toNat / 4 = 2) (v s) : memWrite off v s = writeCtrl v s := by
  rw [memWrite_busyWritable (by rw [target_reg .ctrl h]; rfl), target_reg .ctrl h]; rfl

theorem memWrite_status {off : Offset} (h : off.toNat / 4 = 4) (v s) : memWrite off v s = writeStatus v s := by
  rw [memWrite_busyWritable (by rw [target_reg .status h]; rfl), target_reg .status h]; rfl

/-- Only acceptance leaves IDLE (R32). -/
theorem writeTarget_seq (v s) (x) (h : s.seq = .idle) (hc : x ≠ .reg .cmd) : (writeTarget v s x).seq = .idle := by
  cases x with
  | reg r => 
    cases r <;> first | exact h | skip
    · show (writeCtrl v s).seq = _; unfold writeCtrl; split
      · rw [softReset_idle s h]; rfl
      · exact h
    · exact absurd rfl hc
  | _ => exact h

/-- Everything a write to the window can do. -/
theorem memWrite_shape (off : Offset) (v : Word) (s : State) :
    (∃ b, memWrite off v s = { s with wrWhileBusy := b }) ∨ (off.toNat / 4 = 3 ∧ memWrite off v s = accept v s) ∨
    (off.toNat / 4 = 2 ∧ v.getLsbD 31 = true ∧ memWrite off v s = softReset s) ∨
    (off.toNat / 4 = 2 ∧ v.getLsbD 31 = false ∧ memWrite off v s = { s with irqEn := v.getLsbD 0 }) ∨
    (memWrite off v s = writeStatus v s) ∨
    (s.seq = .idle ∧ ∃ a b c d m, 
      memWrite off v s = { s with inLen := a, decNbits := b, rootValid := c, rootIdx := d, mem := m } ∧
      (∀ x, x / 4 ≠ off.toNat / 4 → readByte m x = readByte s.mem x) ∧
      (Memory.wf s.mem = true → Memory.wf m = true) ∧
      (Memory.resides s.params s.mem = true → Memory.resides s.params m = true)) := by
  unfold memWrite
  split
  · exact Or.inl ⟨_, rfl⟩
  rename_i hh
  have hidle : busyWritable (target off) = false → s.seq = .idle := by
    intro h; rw [h] at hh
    rw [← busy_false]; simpa using hh
  have six : ∀ {P₁ P₂ P₃ P₄ P₅ P₆ : Prop}, P₆ → P₁ ∨ P₂ ∨ P₃ ∨ P₄ ∨ P₅ ∨ P₆ := fun h =>
    Or.inr (Or.inr (Or.inr (Or.inr (Or.inr h))))
  rcases target_cases off with ⟨r, h', e⟩ | ⟨y, h', e⟩ | ⟨y, h', e⟩ | ⟨y, h', e⟩ | ⟨y, k, hk, h', e⟩ | ⟨k, hk, h', e⟩ |
      ⟨k, hk, h', e⟩ | ⟨h', e⟩ <;> rw [e]
  · cases r
    case cmd => exact Or.inr (Or.inl ⟨h', rfl⟩)
    case ctrl =>
      cases hv : v.getLsbD 31 with
      | true =>
        have hw : writeTarget v s (.reg .ctrl) = softReset s := by simp only [writeTarget, writeCtrl, hv, if_pos]
        exact Or.inr (Or.inr (Or.inl ⟨h', rfl, hw⟩))
      | false =>
        have hw : writeTarget v s (.reg .ctrl) = { s with irqEn := v.getLsbD 0 } := by
          simp only [writeTarget, writeCtrl, hv, if_neg Bool.false_ne_true]
        exact Or.inr (Or.inr (Or.inr (Or.inl ⟨h', rfl, hw⟩)))
    case status => exact Or.inr (Or.inr (Or.inr (Or.inr (Or.inl rfl))))
    case inLen => exact six ⟨hidle (by rw [e]; rfl), _, _, _, _, _, rfl, fun _ _ => rfl, id, id⟩
    case decNbits => exact six ⟨hidle (by rw [e]; rfl), _, _, _, _, _, rfl, fun _ _ => rfl, id, id⟩
    case root => exact six ⟨hidle (by rw [e]; rfl), _, _, _, _, _, rfl, fun _ _ => rfl, id, id⟩
    all_goals exact Or.inl ⟨_, rfl⟩
  · exact six ⟨hidle (by rw [e]; rfl), _, _, _, _, _, rfl,
      fun a ha => readByte_writeLE_outside _ _ (by unfold freqAddr; omega),
      fun h => Memory.wf_setFreq h _ _, fun h => Memory.resides_setFreq h _ _⟩
  · exact six ⟨hidle (by rw [e]; rfl), _, _, _, _, _, rfl,
      fun a ha => readByte_writeLE_outside _ _ (by unfold nodeAddr; omega),
      fun h => Memory.wf_setNode h _ _, fun h => Memory.resides_setNode h _ _⟩
  · exact six ⟨hidle (by rw [e]; rfl), _, _, _, _, _, rfl,
      fun a ha => readByte_writeByte_other _ _ (by unfold codeLenAddr; omega),
      fun h => Memory.wf_setCodeLen h _ _, fun h => Memory.resides_setCodeLen h _ _⟩
  · exact six ⟨hidle (by rw [e]; rfl), _, _, _, _, _, rfl,
      fun a ha => readByte_writeLE_outside _ _ (by unfold codeValAddr; omega),
      fun h => Memory.wf_setCodeValWord h _ _ _, fun h => Memory.resides_setCodeValWord h _ hk _⟩
  · exact six ⟨hidle (by rw [e]; rfl), _, _, _, _, _, rfl,
      fun a ha => readByte_writeInBuf_outside _ _ _ _ (by omega),
      fun hm => Memory.wf_writeInBuf hm _ _ _, fun hm => Memory.resides_writeInBuf hm _ _⟩
  · exact Or.inl ⟨_, rfl⟩
  · exact Or.inl ⟨_, rfl⟩

/-- Everything a soft reset can do: the registers as after power-on; memory kept outside the RAMs of an abandoned
command's write set. -/
theorem softReset_shape (s : State) : ∃ mem n,
    softReset s = { State.powerOn s.params mem with
      host := s.host, hostLog := s.hostLog, schedule := s.schedule, draws := n } ∧
    (s.seq = .idle → mem = s.mem) ∧
    (∀ a, (∀ r ∈ writeRams (latched s), r.owns s.params a = false) → readByte mem a = readByte s.mem a) ∧
    (Memory.wf s.mem = true → Memory.wf mem = true) ∧
    (Memory.resides s.params s.mem = true → Memory.resides s.params mem = true) := by
  cases hs : s.seq with
  | idle => rw [softReset_idle s hs]; exact ⟨s.mem, s.draws, rfl, fun _ => rfl, fun _ _ => rfl, id, id⟩
  | busy =>
    rw [softReset_busy s hs]
    have h1 := readByte_scrambleRams_outside s.params s.draws (writeRams (latched s)) s.mem
    have h2 := fun h => Memory.wf_scrambleRams (m := s.mem) h s.params s.draws (writeRams (latched s))
    have h3 := fun h => Memory.resides_scrambleRams (p := s.params) (m := s.mem) h s.draws (writeRams (latched s))
    generalize scrambleRams s.params s.draws (writeRams (latched s)) s.mem = mem at h1 h2 h3 ⊢
    exact ⟨mem, s.draws + 1, rfl, nofun, h1, h2, h3⟩

/-! ## One host statement -/

/-- Everything a read can do: the log and the count of draws. -/
theorem hostRead_shape (off : Offset) (s : State) :
    ∃ v n, hostRead off s = { s with hostLog := v :: s.hostLog, draws := n } := ⟨_, _, rfl⟩

/-- Everything WAIT can do: one read, after which it stays or leaves. -/
theorem hostTurn_wait {s : State} {rest : List HostStmt} (h : s.host = .wait :: rest) :
    ∃ l, hostTurn s = hostRead statusOffset (s.tick l) := by
  unfold hostTurn
  rw [h]
  dsimp only
  generalize (memRead s statusOffset).getLsbD 0 = b
  cases b
  · exact ⟨_, if_neg Bool.false_ne_true⟩
  · exact ⟨_, if_pos rfl⟩

theorem hostTurn_nil {s : State} (h : s.host = []) : hostTurn s = s := by
  unfold hostTurn
  rw [h]

theorem hostTurn_access {s : State} {a : BusAccess} {rest : List HostStmt} (h : s.host = .access a :: rest) :
    hostTurn s = busAccess a (s.tick rest) := by
  unfold hostTurn
  rw [h]

theorem busAccess_read {s : State} {addr : Nat} {off : Offset} (h : offsetOf? s.params addr = some off) :
    busAccess (.read addr) s = hostRead off s := by
  rw [busAccess, h]

theorem busAccess_write {s : State} {addr : Nat} {off : Offset} (v : Word) (h : offsetOf? s.params addr = some off) :
    busAccess (.write addr v) s = memWrite off v s := by
  rw [busAccess, h]

/-- An access outside the window does nothing (log entry 6). -/
theorem busAccess_outside {s : State} {addr : Nat} (h : offsetOf? s.params addr = none) (v : Word) :
    busAccess (.read addr) s = s ∧ busAccess (.write addr v) s = s := by
  constructor <;> rw [busAccess, h]

/-- Everything a host statement can do: bookkeeping alone, or a write to the window. -/
theorem hostTurn_cases (s : State) :
    (∃ l d n lg, hostTurn s = { s with host := l, delay := d, draws := n, hostLog := lg }) ∨
    ∃ a v rest off, s.host = .access (.write a v) :: rest ∧ offsetOf? s.params a = some off ∧
      hostTurn s = memWrite off v (s.tick rest) := by
  have read : ∀ off l, ∃ l' d n lg, hostRead off (s.tick l) =
      { s with host := l', delay := d, draws := n, hostLog := lg } := by
    intro off l
    obtain ⟨v, n, e⟩ := hostRead_shape off (s.tick l)
    exact ⟨l, s.delay - 1, n, v :: s.hostLog, e⟩
  cases hh : s.host with
  | nil => exact Or.inl ⟨s.host, s.delay, s.draws, s.hostLog, hostTurn_nil hh⟩
  | cons st rest =>
    cases st with
    | wait =>
      obtain ⟨l, e⟩ := hostTurn_wait hh
      rw [e]
      exact Or.inl (read _ _)
    | access a =>
      have stay : ∃ l d n lg, s.tick rest = { s with host := l, delay := d, draws := n, hostLog := lg } :=
        ⟨rest, s.delay - 1, s.draws, s.hostLog, rfl⟩
      rw [hostTurn_access hh]
      cases a with
      | read addr =>
        cases ho : offsetOf? (s.tick rest).params addr with
        | none => rw [(busAccess_outside ho 0).1]; exact Or.inl stay
        | some off => rw [busAccess_read ho]; exact Or.inl (read _ _)
      | write addr v =>
        cases ho : offsetOf? (s.tick rest).params addr with
        | none => rw [(busAccess_outside ho v).2]; exact Or.inl stay
        | some off => exact Or.inr ⟨addr, v, rest, off, rfl, ho, busAccess_write v ho⟩

/-- A write while BUSY ends the command or leaves it running, its time unchanged. -/
theorem memWrite_busy_cases (off : Offset) (v : Word) (s : State) (h : s.seq = .busy) :
    (memWrite off v s).seq = .idle ∨
      ((memWrite off v s).seq = .busy ∧ (memWrite off v s).delay = s.delay ∧ (memWrite off v s).host = s.host) := by
  unfold memWrite
  split
  · exact Or.inr ⟨h, rfl, rfl⟩
  · rename_i hh
    rw [(busy_eq s).mpr h] at hh
    simp only [Bool.true_and, Bool.not_eq_true', Bool.not_eq_false] at hh
    rcases (busyWritable_iff _).mp hh with e | e | e <;> rw [e]
    · right; simp only [writeTarget]; rw [accept_busy v s h]; exact ⟨h, rfl, rfl⟩
    · simp only [writeTarget, writeCtrl]; split
      · obtain ⟨mem, n, e, _⟩ := softReset_shape s
        exact Or.inl (by rw [e]; rfl)
      · exact Or.inr ⟨h, rfl, rfl⟩
    · exact Or.inr ⟨h, rfl, rfl⟩

end Sys2Proof.Machine
end

