-- ==== Sys2Proof/Laws/Optimal.lean ====
section
/-! SUPPORT. Why the greedy merge gives the least weighted code length (40_tree_builder.md R133): the Kraft inequality
of a prefix-free code, and one merge of the two least weights. -/

namespace Sys2Proof.Machine

/-! ## Lists of (weight, length) -/

/-- The weighted length of an assignment of lengths to weights. -/
def lenCost (P : List (Nat × Nat)) : Nat := (P.map (fun p => p.1 * p.2)).sum

/-- The Kraft sum in units of 2^-L. -/
def kraftSum (L : Nat) (P : List (Nat × Nat)) : Nat := (P.map (fun p => 2 ^ (L - p.2))).sum

/-- The Kraft inequality of the lengths, at some level that no length passes. -/
def Kraft (P : List (Nat × Nat)) : Prop := ∃ L, (∀ p ∈ P, p.2 ≤ L) ∧ kraftSum L P ≤ 2 ^ L

@[simp] theorem lenCost_nil : lenCost [] = 0 := rfl

@[simp] theorem lenCost_cons (p : Nat × Nat) (P : List (Nat × Nat)) : lenCost (p :: P) = p.1 * p.2 + lenCost P := by
  simp [lenCost]

@[simp] theorem kraftSum_nil (L : Nat) : kraftSum L [] = 0 := rfl

@[simp] theorem kraftSum_cons (L : Nat) (p : Nat × Nat) (P : List (Nat × Nat)) :
    kraftSum L (p :: P) = 2 ^ (L - p.2) + kraftSum L P := by
  simp [kraftSum]

theorem lenCost_perm {P Q : List (Nat × Nat)} (h : P.Perm Q) : lenCost P = lenCost Q := (h.map _).sum_eq

theorem kraftSum_perm (L : Nat) {P Q : List (Nat × Nat)} (h : P.Perm Q) : kraftSum L P = kraftSum L Q := (h.map _).sum_eq

/-- Units of 2^-(L + k). -/
theorem kraftSum_scale {L : Nat} (k : Nat) {P : List (Nat × Nat)} (h : ∀ p ∈ P, p.2 ≤ L) :
    kraftSum (L + k) P = kraftSum L P * 2 ^ k := by
  induction P with
  | nil => simp
  | cons p P ih =>
    rw [kraftSum_cons, kraftSum_cons, ih (fun q hq => h q (List.mem_cons_of_mem _ hq)), Nat.add_mul, ← Nat.pow_add]
    have := h p (List.mem_cons_self ..)
    rw [show L + k - p.2 = L - p.2 + k by omega]

theorem Kraft.perm {P Q : List (Nat × Nat)} (h : P.Perm Q) : Kraft P → Kraft Q := by
  rintro ⟨L, h1, h2⟩
  exact ⟨L, fun p hp => h1 p (h.mem_iff.mpr hp), by rwa [← kraftSum_perm L h]⟩

/-- The level does not matter. -/
theorem Kraft.at {P : List (Nat × Nat)} (h : Kraft P) (L : Nat) (hL : ∀ p ∈ P, p.2 ≤ L) : kraftSum L P ≤ 2 ^ L := by
  obtain ⟨M, h1, h2⟩ := h
  rcases Nat.le_total L M with hl | hl
  · obtain ⟨k, rfl⟩ := Nat.exists_eq_add_of_le hl
    rw [kraftSum_scale k hL, Nat.pow_add] at h2
    exact Nat.le_of_mul_le_mul_right h2 (Nat.two_pow_pos k)
  · obtain ⟨k, rfl⟩ := Nat.exists_eq_add_of_le hl
    rw [kraftSum_scale k h1, Nat.pow_add]
    exact Nat.mul_le_mul_right _ h2

/-! ## One merge of the two least weights -/

/-- Give a least weight the greatest length of the list. -/
theorem exchange (a la : Nat) (R : List (Nat × Nat)) (hmin : ∀ p ∈ R, a ≤ p.1) :
    ∃ la' R', (R'.map Prod.fst) = R.map Prod.fst ∧ (∀ p ∈ R', p.2 ≤ la') ∧
      (la' :: R'.map Prod.snd).Perm (la :: R.map Prod.snd) ∧
      lenCost ((a, la') :: R') ≤ lenCost ((a, la) :: R) := by
  induction R generalizing la with
  | nil => exact ⟨la, [], rfl, by simp, List.Perm.refl _, Nat.le_refl _⟩
  | cons p R ih =>
    obtain ⟨w, l⟩ := p
    have hw := hmin (w, l) (List.mem_cons_self ..)
    dsimp only at hw
    have hR : ∀ p ∈ R, a ≤ p.1 := fun p hp => hmin p (List.mem_cons_of_mem _ hp)
    rcases Nat.le_total l la with hl | hl
    · obtain ⟨la', R', h1, h2, h3, h4⟩ := ih la hR
      have hla : la ≤ la' := by
        have : la ∈ la' :: R'.map Prod.snd := h3.mem_iff.mpr (List.mem_cons_self ..)
        rcases List.mem_cons.mp this with e | hm
        · omega
        · obtain ⟨q, hq, rfl⟩ := List.mem_map.mp hm; exact h2 q hq
      refine ⟨la', (w, l) :: R', by simp [h1], ?_, ?_, ?_⟩
      · intro q hq
        rcases List.mem_cons.mp hq with rfl | hq
        · dsimp only; omega
        · exact h2 q hq
      · simp only [List.map_cons]
        exact (List.Perm.swap ..).trans ((h3.cons l).trans (List.Perm.swap ..))
      · simp only [lenCost_cons] at h4 ⊢
        omega
    · obtain ⟨la', R', h1, h2, h3, h4⟩ := ih l hR
      have hla : l ≤ la' := by
        have : l ∈ la' :: R'.map Prod.snd := h3.mem_iff.mpr (List.mem_cons_self ..)
        rcases List.mem_cons.mp this with e | hm
        · omega
        · obtain ⟨q, hq, rfl⟩ := List.mem_map.mp hm; exact h2 q hq
      refine ⟨la', (w, la) :: R', by simp [h1], ?_, ?_, ?_⟩
      · intro q hq
        rcases List.mem_cons.mp hq with rfl | hq
        · dsimp only; omega
        · exact h2 q hq
      · simp only [List.map_cons]
        exact (List.Perm.swap ..).trans ((h3.cons la))
      · simp only [lenCost_cons] at h4 ⊢
        obtain ⟨d, rfl⟩ := Nat.exists_eq_add_of_le hl
        obtain ⟨e, rfl⟩ := Nat.exists_eq_add_of_le hw
        have : (a + e) * la + a * (la + d) ≤ a * la + (a + e) * (la + d) := by nlinarith [Nat.zero_le (e * d)]
        omega

theorem kraftSum_lengths (L : Nat) {P Q : List (Nat × Nat)} (h : (P.map Prod.snd).Perm (Q.map Prod.snd)) :
    kraftSum L P = kraftSum L Q := by
  have := (h.map (fun l => 2 ^ (L - l))).sum_eq
  rwa [List.map_map, List.map_map] at this

theorem Kraft.of_lengths {P Q : List (Nat × Nat)} (h : (P.map Prod.snd).Perm (Q.map Prod.snd)) (hk : Kraft P) : Kraft Q := by
  obtain ⟨L, h1, h2⟩ := hk
  refine ⟨L, fun p hp => ?_, by rwa [← kraftSum_lengths L h]⟩
  obtain ⟨q, hq, e⟩ := List.mem_map.mp (h.mem_iff.mpr (List.mem_map.mpr ⟨p, hp, rfl⟩))
  rw [← e]; exact h1 q hq

/-- Merging the two least weights: an assignment for the weights before gives one for the weights after, that costs
less by at least the merged weight. -/
theorem kraft_merge {a b : Nat} {W : List Nat} {P : List (Nat × Nat)} (hP : (P.map Prod.fst).Perm (a :: b :: W))
    (hab : a ≤ b) (hb : ∀ w ∈ W, b ≤ w) (hk : Kraft P) :
    ∃ P', (P'.map Prod.fst).Perm ((a + b) :: W) ∧ Kraft P' ∧ lenCost P' + (a + b) ≤ lenCost P := by
  -- take the two least weights to the front
  have front : ∀ {Q : List (Nat × Nat)} {w : Nat} {V : List Nat}, (Q.map Prod.fst).Perm (w :: V) →
      ∃ l Q', Q.Perm ((w, l) :: Q') ∧ (Q'.map Prod.fst).Perm V := by
    intro Q w V h
    have hw : w ∈ Q.map Prod.fst := h.mem_iff.mpr (List.mem_cons_self ..)
    obtain ⟨⟨w', l⟩, hp, rfl⟩ := List.mem_map.mp hw
    have hQ := List.perm_cons_erase hp
    exact ⟨l, Q.erase (w', l), hQ, ((hQ.map Prod.fst).symm.trans h).cons_inv⟩
  obtain ⟨la, P1, p1, q1⟩ := front hP
  obtain ⟨lb, R, p2, q2⟩ := front q1
  have hR : ∀ p ∈ R, b ≤ p.1 := fun p hp => hb _ (q2.mem_iff.mp (List.mem_map.mpr ⟨p, hp, rfl⟩))
  have p3 : P.Perm ((a, la) :: (b, lb) :: R) := p1.trans (p2.cons _)
  have k3 : Kraft ((a, la) :: (b, lb) :: R) := hk.perm p3
  rw [lenCost_perm p3]
  -- give them the two greatest lengths
  obtain ⟨la', R1, f1, m1, n1, c1⟩ := exchange a la ((b, lb) :: R) (fun p hp => by
    rcases List.mem_cons.mp hp with rfl | hp
    · exact hab
    · exact Nat.le_trans hab (hR p hp))
  cases R1 with
  | nil => simp at f1
  | cons q R2 =>
    obtain ⟨b', lb2⟩ := q
    simp only [List.map_cons, List.cons.injEq] at f1
    obtain ⟨rfl, f1⟩ := f1
    have hR2 : ∀ p ∈ R2, b' ≤ p.1 := by
      intro p hp
      have : p.1 ∈ R.map Prod.fst := by rw [← f1]; exact List.mem_map.mpr ⟨p, hp, rfl⟩
      obtain ⟨q, hq, e⟩ := List.mem_map.mp this
      rw [← e]; exact hR q hq
    have k4 : Kraft ((a, la') :: (b', lb2) :: R2) := Kraft.of_lengths (P := (a, la) :: (b', lb) :: R) n1.symm k3
    obtain ⟨lb', R3, f2, m2, n2, c2⟩ := exchange b' lb2 R2 hR2
    have k5 : Kraft ((a, la') :: (b', lb') :: R3) := Kraft.of_lengths (P := (a, la') :: (b', lb2) :: R2) (n2.symm.cons la') k4
    have hlb : lb' ≤ la' := by
      have : lb' ∈ lb2 :: R2.map Prod.snd := n2.mem_iff.mp (List.mem_cons_self ..)
      rcases List.mem_cons.mp this with e | hm
      · have := m1 (b', lb2) (List.mem_cons_self ..); dsimp only at this; omega
      · obtain ⟨q, hq, e⟩ := List.mem_map.mp hm
        have := m1 q (List.mem_cons_of_mem _ hq); omega
    have hO : ∀ p ∈ (b', lb') :: R3, p.2 ≤ lb' := by
      intro p hp
      rcases List.mem_cons.mp hp with rfl | hp
      · exact Nat.le_refl _
      · exact m2 p hp
    have k6 := k5.at la' (fun p hp => by
      rcases List.mem_cons.mp hp with rfl | hp
      · exact Nat.le_refl _
      · exact Nat.le_trans (hO p hp) hlb)
    obtain ⟨d, rfl⟩ := Nat.exists_eq_add_of_le hlb
    rw [kraftSum_cons, kraftSum_scale d hO, Nat.pow_add, Nat.sub_self, Nat.pow_zero] at k6
    have k7 : kraftSum lb' ((b', lb') :: R3) < 2 ^ lb' :=
      Nat.lt_of_mul_lt_mul_right (a := 2 ^ d) (by omega)
    rw [kraftSum_cons, Nat.sub_self, Nat.pow_zero] at k7
    cases lb' with
    | zero => simp at k7
    | succ l =>
      refine ⟨(a + b', l) :: R3, ?_, ⟨l + 1, ?_, ?_⟩, ?_⟩
      · simp only [List.map_cons]
        rw [f2, f1]
        exact q2.cons _
      · intro p hp
        rcases List.mem_cons.mp hp with rfl | hp
        · dsimp only; omega
        · exact m2 p hp
      · rw [kraftSum_cons, show l + 1 - l = 1 by omega]
        omega
      · simp only [lenCost_cons] at c1 c2 ⊢
        have e1 : a * (l + 1 + d) = a * l + a + a * d := by ring
        have e2 : b' * (l + 1) = b' * l + b' := by ring
        have e3 : (a + b') * l = a * l + b' * l := by ring
        omega

/-! ## The Kraft inequality of a prefix-free code -/

theorem kraft_words (L : Nat) (C : List (List Bool)) (hl : ∀ c ∈ C, c.length ≤ L)
    (hp : C.Pairwise (fun c d => ¬ c <+: d ∧ ¬ d <+: c)) : (C.map (fun c => 2 ^ (L - c.length))).sum ≤ 2 ^ L := by
  induction L generalizing C with
  | zero =>
    -- every word is empty, so there is at most one
    cases C with
    | nil => simp
    | cons c C =>
      cases C with
      | nil => simp
      | cons d C =>
        have h1 : c = [] := List.eq_nil_of_length_eq_zero (by have := hl c (by simp); omega)
        have h2 := (List.pairwise_cons.mp hp).1 d (by simp)
        rw [h1] at h2
        exact absurd List.nil_prefix h2.1
  | succ L ih =>
    by_cases he : [] ∈ C
    · obtain ⟨s, t, rfl⟩ := List.append_of_mem he
      rw [List.pairwise_append, List.pairwise_cons] at hp
      have hs : s = [] := List.eq_nil_iff_forall_not_mem.mpr
        (fun x hx => (hp.2.2 x hx [] (by simp)).2 List.nil_prefix)
      have ht : t = [] := List.eq_nil_iff_forall_not_mem.mpr (fun x hx => (hp.2.1.1 x hx).1 List.nil_prefix)
      simp [hs, ht]
    · -- split by the first bit
      let tails : Bool → List (List Bool) := fun b => C.filterMap (fun c =>
        match c with
        | [] => none
        | x :: xs => if x = b then some xs else none)
      have hmem : ∀ b xs, xs ∈ tails b ↔ (b :: xs) ∈ C := by
        intro b xs
        simp only [tails, List.mem_filterMap]
        constructor
        · rintro ⟨c, hc, e⟩
          cases c with
          | nil => cases e
          | cons x ys =>
            dsimp only at e
            split at e
            · rename_i hx; subst hx; injection e with e; subst e; exact hc
            · cases e
        · intro h
          exact ⟨b :: xs, h, by simp⟩
      have hpw : ∀ b, (tails b).Pairwise (fun c d => ¬ c <+: d ∧ ¬ d <+: c) := by
        intro b
        refine List.Pairwise.filterMap _ ?_ hp
        intro c d hcd xs hx ys hy
        cases c with
        | nil => cases hx
        | cons x xs' =>
          cases d with
          | nil => cases hy
          | cons y ys' =>
            dsimp only at hx hy
            split at hx
            · split at hy
              · rename_i h1 h2
                injection hx with hx; injection hy with hy
                subst hx hy h1 h2
                simpa [List.cons_prefix_cons] using hcd
              · cases hy
            · cases hx
      have hsum : ∀ D : List (List Bool), [] ∉ D → (D.map (fun c => 2 ^ (L + 1 - c.length))).sum =
          ((D.filterMap (fun c => match c with | [] => none | x :: xs => if x = false then some xs else none)).map
            (fun c => 2 ^ (L - c.length))).sum +
          ((D.filterMap (fun c => match c with | [] => none | x :: xs => if x = true then some xs else none)).map
            (fun c => 2 ^ (L - c.length))).sum := by
        intro D hD
        induction D with
        | nil => rfl
        | cons c D ihD =>
          have := ihD (fun h => hD (List.mem_cons_of_mem _ h))
          cases c with
          | nil => exact absurd (List.mem_cons_self ..) hD
          | cons x xs =>
            rw [List.map_cons, List.sum_cons, this, List.length_cons, Nat.add_sub_add_right]
            cases x
            · simp; omega
            · simp; omega
      rw [hsum C he]
      have b0 := ih (tails false) (fun c hc => by
        have := hl _ ((hmem false c).mp hc); rw [List.length_cons] at this; omega) (hpw false)
      have b1 := ih (tails true) (fun c hc => by
        have := hl _ ((hmem true c).mp hc); rw [List.length_cons] at this; omega) (hpw true)
      simp only [tails] at b0 b1
      rw [Nat.pow_succ]
      omega

/-- A prefix-free assignment of words to distinct symbols meets the Kraft inequality. -/
theorem kraft_of_code {α : Type} (ps : List α) (w : α → Nat) (c : α → List Bool) (hn : ps.Nodup)
    (hp : ∀ y ∈ ps, ∀ z ∈ ps, y ≠ z → ¬ c y <+: c z) : Kraft (ps.map (fun y => (w y, (c y).length))) := by
  obtain ⟨L, hL⟩ : ∃ L, ∀ y ∈ ps, (c y).length ≤ L := by
    clear hn hp
    induction ps with
    | nil => exact ⟨0, by simp⟩
    | cons y ps ih =>
      obtain ⟨L, hL⟩ := ih
      refine ⟨max L (c y).length, fun z hz => ?_⟩
      rcases List.mem_cons.mp hz with rfl | hz
      · exact Nat.le_max_right ..
      · exact Nat.le_trans (hL z hz) (Nat.le_max_left ..)
  refine ⟨L, fun p hp => ?_, ?_⟩
  · obtain ⟨y, hy, rfl⟩ := List.mem_map.mp hp
    exact hL y hy
  · have := kraft_words L (ps.map c) (fun d hd => by
        obtain ⟨y, hy, rfl⟩ := List.mem_map.mp hd; exact hL y hy)
      (by
        rw [List.pairwise_map]
        exact hn.imp_of_mem (fun {y z} hy hz hne => ⟨hp y hy z hz hne, hp z hz y hy hne.symm⟩))
    rw [List.map_map] at this
    unfold kraftSum
    rw [List.map_map]
    exact this

end Sys2Proof.Machine
end

