-- ==== Sys2Proof/Laws/PerInstr.lean ====
section
/-! SUPPORT. What holds of every command as syntax, command by command (30_encoding.md R101, R102, R109). -/

namespace Sys2Proof.Laws.Legal

/-- The command's word is legal, keeps bits 31:9 at 0, has bit 8 set for DECODE.ALL alone, and holds OP in bits 7:0. -/
def Statement (i : Instr) : Prop :=
  i.wf = true ∧ (encode i).toNat < 2 ^ 9 ∧ ((encode i).getLsbD 8 = true ↔ i = .decodeAll) ∧
    (encode i).extractLsb' 0 8 = i.fields.op

theorem nop : Statement .nop := by unfold Statement; decide

theorem clrFreq : Statement .clrFreq := by unfold Statement; decide

theorem buildTree : Statement .buildTree := by unfold Statement; decide

theorem genCodes : Statement .genCodes := by unfold Statement; decide

theorem encode : Statement .encode := by unfold Statement; decide

theorem decode : Statement .decode := by unfold Statement; decide

theorem decodeAll : Statement .decodeAll := by unfold Statement; decide

theorem clrTree : Statement .clrTree := by unfold Statement; decide

theorem clrCodes : Statement .clrCodes := by unfold Statement; decide

end Sys2Proof.Laws.Legal
end

