-- ==== Sys2Proof/Laws/Step.lean ====
section
/-! SUPPORT. Everything a step can do (10_state.md R34; 20_memory.md R81), and what every command leaves alone. -/

namespace Sys2Proof.Machine

/-- A step with a next state ran the latched command, an illegal word, or a host statement. -/
theorem step_cases {s t : State} (h : step s = .next t) :
    (s.coreTurn = true ∧ ∃ i, decode s.cmd = .ok i ∧ exec i s = .next t) ∨
    (s.coreTurn = true ∧ ∃ e, decode s.cmd = .error e ∧ t = raise none (.illegalCmd s.cmd) s) ∨
    (s.coreTurn = false ∧ t = hostTurn s) := by
  unfold step fetchWord at h
  split at h
  · rename_i hc
    split at h
    · rename_i i hd; exact Or.inl ⟨hc, i, hd, h⟩
    · rename_i e hd
      injection h with h
      exact Or.inr (Or.inl ⟨hc, e, hd, h.symm⟩)
  · rename_i hc
    injection h with h
    exact Or.inr (Or.inr ⟨by simpa using hc, h.symm⟩)

/-- One step, then the rest of a run. -/
theorem run_succ {s t : State} (h : step s = .next t) (k : Nat) :
    Host.Core.run Sys2Proof.core (k + 1) s = Host.Core.run Sys2Proof.core k t := by
  have h' : Sys2Proof.core.step s = .next t := h
  simp only [Host.Core.run, h']

/-- Everything a command can answer: a completion, of its success or of `raise`. -/
theorem exec_cases {i : Instr} {s t : State} (h : exec i s = .next t) :
    (∃ u, t = complete u ∧ u.params = s.params ∧ u.irqEn = s.irqEn ∧ u.errCode = s.errCode) ∨
    ∃ e, t = raise (some i) e s := by
  cases i <;> simp only [exec] at h
  case nop => injection h with h; exact Or.inl ⟨_, h.symm, rfl, rfl, rfl⟩
  case clrFreq => injection h with h; exact Or.inl ⟨_, h.symm, rfl, rfl, rfl⟩
  case clrTree => injection h with h; exact Or.inl ⟨_, h.symm, rfl, rfl, rfl⟩
  case clrCodes => injection h with h; exact Or.inl ⟨_, h.symm, rfl, rfl, rfl⟩
  case buildTree =>
    unfold execBuildTree at h
    dsimp only at h
    split at h <;> injection h with h
    · exact Or.inr ⟨_, h.symm⟩
    · exact Or.inl ⟨_, h.symm, rfl, rfl, rfl⟩
  case genCodes =>
    unfold execGenCodes at h
    split at h <;> injection h with h
    · exact Or.inl ⟨_, h.symm, rfl, rfl, rfl⟩
    · exact Or.inr ⟨_, h.symm⟩
  case encode =>
    unfold execEncode at h
    split at h <;> injection h with h
    · exact Or.inl ⟨_, h.symm, rfl, rfl, rfl⟩
    · exact Or.inr ⟨_, h.symm⟩
  case decode =>
    unfold execDecode at h
    split at h <;> injection h with h
    · exact Or.inl ⟨_, h.symm, rfl, rfl, rfl⟩
    · exact Or.inr ⟨_, h.symm⟩
  case decodeAll =>
    unfold execDecodeAll at h
    split at h <;> injection h with h
    · exact Or.inl ⟨_, h.symm, rfl, rfl, rfl⟩
    · exact Or.inr ⟨_, h.symm⟩

end Sys2Proof.Machine
end

