-- ==== Sys2Proof/Laws/TreeBuilder.lean ====
section
/-! SUPPORT. The queue and the merge of BUILD_TREE: `popmin` takes the least entry (40_tree_builder.md R130), and what
each round keeps true of the arena, the queue and the trees in it (R131, R132). -/

namespace Sys2Proof.Machine

/-! ## The priority order and `popmin` (R130) -/

theorem QEntry.before_iff (a b : QEntry) : a.before b = true ↔ pairLt a.wgt.toNat a.idx b.wgt.toNat b.idx := by
  unfold QEntry.before pairLt
  simp [BitVec.toNat_inj]

theorem pairLt_trans {w i w' i' w'' i'' : Nat} (h : pairLt w i w' i') (h' : pairLt w' i' w'' i'') : pairLt w i w'' i'' := by
  unfold pairLt at *
  omega

theorem QEntry.total (a b : QEntry) : a = b ∨ a.before b = true ∨ b.before a = true := by
  rw [QEntry.before_iff, QEntry.before_iff]
  unfold pairLt
  obtain ⟨w, i⟩ := a
  obtain ⟨v, j⟩ := b
  simp only [QEntry.mk.injEq, ← BitVec.toNat_inj]
  omega

theorem leastEntry_spec (e : QEntry) (es : List QEntry) :
    leastEntry e es ∈ e :: es ∧
      ∀ z ∈ e :: es, z = leastEntry e es ∨ (leastEntry e es).before z = true := by
  induction es generalizing e with
  | nil => exact ⟨List.mem_cons_self .., fun z hz => Or.inl (List.mem_singleton.mp hz)⟩
  | cons x xs ih =>
    obtain ⟨h1, h2⟩ := ih (if x.before e then x else e)
    have trans : ∀ {a b c : QEntry}, a.before b = true → b.before c = true → a.before c = true := by
      intro a b c h h'
      rw [QEntry.before_iff] at *
      exact pairLt_trans h h'
    have e0 : leastEntry e (x :: xs) = leastEntry (if x.before e then x else e) xs := rfl
    rw [e0]
    generalize leastEntry (if x.before e then x else e) xs = l at h1 h2
    by_cases hx : x.before e = true
    · rw [if_pos hx] at h1 h2
      refine ⟨?_, fun z hz => ?_⟩
      · rcases List.mem_cons.mp h1 with h | h
        · subst h; simp
        · simp [h]
      · rcases List.mem_cons.mp hz with h | h
        · subst h
          rcases h2 x (List.mem_cons_self ..) with h | h
          · exact Or.inr (h ▸ hx)
          · exact Or.inr (trans h hx)
        · exact h2 z h
    · rw [if_neg hx] at h1 h2
      refine ⟨?_, fun z hz => ?_⟩
      · rcases List.mem_cons.mp h1 with h | h
        · subst h; simp
        · simp [h]
      · rcases List.mem_cons.mp hz with h | h
        · subst h; exact h2 z (List.mem_cons_self ..)
        rcases List.mem_cons.mp h with h | h
        · subst h
          rcases QEntry.total e z with h' | h' | h'
          · subst h'; exact h2 e (List.mem_cons_self ..)
          · rcases h2 e (List.mem_cons_self ..) with h | h
            · exact Or.inr (h ▸ h')
            · exact Or.inr (trans h h')
          · exact absurd h' hx
        · exact h2 z (List.mem_cons_of_mem _ h)

/-- `popmin` (R130): the least entry by weight, then index, and the rest. -/
theorem popMin_spec {q : List QEntry} (hq : q ≠ []) :
    ∃ x q', popMin q = some (x, q') ∧ q.Perm (x :: q') ∧
      ∀ z ∈ q, z = x ∨ pairLt x.wgt.toNat x.idx z.wgt.toNat z.idx := by
  cases q with
  | nil => exact absurd rfl hq
  | cons e es =>
    obtain ⟨h1, h2⟩ := leastEntry_spec e es
    refine ⟨_, _, rfl, List.perm_cons_erase h1, fun z hz => ?_⟩
    rw [← QEntry.before_iff]
    exact h2 z hz

/-! ## Weights -/

/-- The weight of a tree: the sum of FREQ over its leaves (R13). -/
def HuffmanTree.weight (m : Memory) (T : HuffmanTree) : Nat := (T.symbols.map (fun y => (freq m y).toNat)).sum

theorem HuffmanTree.weight_node (m : Memory) (l r : HuffmanTree) :
    (HuffmanTree.node l r).weight m = l.weight m + r.weight m := by
  simp [HuffmanTree.weight, HuffmanTree.symbols_node]

/-- The weighted path length of a tree: FREQ times depth, over its leaves (R133). -/
def HuffmanTree.cost (m : Memory) (T : HuffmanTree) : Nat :=
  (T.leaves.map (fun x => (freq m x.1).toNat * x.2.length)).sum

theorem HuffmanTree.cost_leaf (m : Memory) (y : Byte) : (HuffmanTree.leaf y).cost m = 0 := by
  simp [HuffmanTree.cost, HuffmanTree.leaves]

theorem HuffmanTree.cost_node (m : Memory) (l r : HuffmanTree) :
    (HuffmanTree.node l r).cost m = l.cost m + r.cost m + (l.weight m + r.weight m) := by
  have h : ∀ (b : Bool) (xs : List (Byte × List Bool)),
      (xs.map (fun x => (freq m x.1).toNat * (b :: x.2).length)).sum =
        (xs.map (fun x => (freq m x.1).toNat * x.2.length)).sum + ((xs.map Prod.fst).map (fun y => (freq m y).toNat)).sum := by
    intro b xs
    induction xs with
    | nil => rfl
    | cons x xs ih =>
      rw [List.map_cons, List.sum_cons, ih, List.map_cons, List.map_cons, List.map_cons, List.sum_cons, List.sum_cons,
        List.length_cons, Nat.mul_add, Nat.mul_one]
      omega
  have h0 := h false l.leaves
  have h1 := h true r.leaves
  simp only [HuffmanTree.cost, HuffmanTree.leaves, HuffmanTree.weight, HuffmanTree.symbols, List.map_append,
    List.sum_append, List.map_map, Function.comp_def] at h0 h1 ⊢
  omega

/-- An arena whose internal nodes name lower indices. -/
def Descending (m : Memory) : Prop :=
  ∀ i, isInt (node m i) = true → (nodeLeft (node m i)).toNat < i.toNat ∧ (nodeRight (node m i)).toNat < i.toNat

theorem arenaWeight_fuel {m : Memory} (hm : Descending m) (k : Nat) (i : NodeIdx) (h : i.toNat < k) :
    arenaWeight m k i = arenaWeight m (i.toNat + 1) i := by
  induction k using Nat.strongRecOn generalizing i with
  | _ k ih =>
    obtain ⟨k, rfl⟩ : ∃ j, k = j + 1 := ⟨k - 1, by omega⟩
    simp only [arenaWeight]
    split
    · rename_i hi
      obtain ⟨h1, h2⟩ := hm i hi
      rw [ih k (by omega) _ (by omega), ih k (by omega) _ (by omega)]
      by_cases he : i.toNat = k
      · subst he
        rw [ih i.toNat (by omega) _ h1, ih i.toNat (by omega) _ h2]
      · rw [ih i.toNat (by omega) _ h1, ih i.toNat (by omega) _ h2]
    · rfl

/-- Nodes above `i` do not matter. -/
theorem arenaWeight_congr {m m' : Memory} (hm : Descending m) {n : Nat} (hn : ∀ i : NodeIdx, i.toNat < n → node m' i = node m i)
    (hf : ∀ y, freq m' y = freq m y) (k : Nat) (i : NodeIdx) (h : i.toNat < n) :
    arenaWeight m' k i = arenaWeight m k i := by
  induction k generalizing i with
  | zero => rfl
  | succ k ih =>
    simp only [arenaWeight]
    rw [hn i h, hf]
    split
    · rename_i hi
      obtain ⟨h1, h2⟩ := hm i hi
      rw [ih _ (by omega), ih _ (by omega)]
    · rfl

theorem HuffmanTree.Represents_congr {m m' : Memory} (hm : Descending m) {n : Nat}
    (hn : ∀ i : NodeIdx, i.toNat < n → Machine.node m' i = Machine.node m i) (T : HuffmanTree) {i : NodeIdx} (h : i.toNat < n)
    (hT : T.Represents m i) : T.Represents m' i := by
  induction T generalizing i with
  | leaf y => obtain ⟨h1, h2⟩ := hT; exact ⟨by rw [hn i h]; exact h1, by rw [hn i h]; exact h2⟩
  | node l r ihl ihr =>
    obtain ⟨h1, h2, h3⟩ := hT
    obtain ⟨d1, d2⟩ := hm i h1
    refine ⟨by rw [hn i h]; exact h1, ?_, ?_⟩
    · rw [hn i h]; exact ihl (by omega) h2
    · rw [hn i h]; exact ihr (by omega) h3

/-- A represented tree has its weight in the arena. -/
theorem HuffmanTree.weight_eq {m : Memory} (hm : Descending m) (T : HuffmanTree) {i : NodeIdx} (hT : T.Represents m i) :
    arenaWeight m (i.toNat + 1) i = T.weight m := by
  induction T generalizing i with
  | leaf y =>
    obtain ⟨h1, h2⟩ := hT
    have h3 : ¬ isInt (Machine.node m i) = true := fun h => by rw [isLeaf_eq_false_of_isInt h] at h1; cases h1
    rw [arenaWeight, if_neg h3, h2]
    simp [HuffmanTree.weight, HuffmanTree.symbols, HuffmanTree.leaves]
  | node l r ihl ihr =>
    obtain ⟨h1, h2, h3⟩ := hT
    obtain ⟨d1, d2⟩ := hm i h1
    rw [arenaWeight, if_pos h1, arenaWeight_fuel hm _ _ d1, arenaWeight_fuel hm _ _ d2, ihl h2, ihr h3,
      HuffmanTree.weight_node]

/-! ## The canonical words -/

theorem isLeaf_leafWord (y : Byte) : isLeaf (leafWord y) = true := by
  have := y.isLt
  rw [isLeaf_iff, leafWord_toNat]
  omega

theorem isInt_leafWord (y : Byte) : isInt (leafWord y) = false := by
  have := y.isLt
  rw [Bool.eq_false_iff, ne_eq, isInt_iff, leafWord_toNat]
  omega

theorem nodeSym_leafWord (y : Byte) : nodeSym (leafWord y) = y := by
  have := y.isLt
  apply BitVec.eq_of_toNat_eq
  rw [nodeSym_toNat, leafWord_toNat]
  omega

theorem isInt_internalWord (l r : NodeIdx) : isInt (internalWord l r) = true := by
  have := l.isLt
  have := r.isLt
  rw [isInt_iff, internalWord_toNat]
  omega

theorem nodeLeft_internalWord (l r : NodeIdx) : nodeLeft (internalWord l r) = l := by
  have := l.isLt
  have := r.isLt
  apply BitVec.eq_of_toNat_eq
  rw [nodeLeft_toNat, internalWord_toNat]
  omega

theorem nodeRight_internalWord (l r : NodeIdx) : nodeRight (internalWord l r) = r := by
  have := l.isLt
  have := r.isLt
  apply BitVec.eq_of_toNat_eq
  rw [nodeRight_toNat, internalWord_toNat]
  omega

/-! ## What a round keeps true -/

/-- No assignment of lengths to the symbols that meets the Kraft inequality costs less than what the merges so far cost
with some such assignment to the trees that are left (R133). -/
def NoCheaper (m : Memory) (ps : List Byte) (F : List (QEntry × HuffmanTree)) : Prop :=
  ∀ P : List (Nat × Nat), (P.map Prod.fst).Perm (ps.map (fun y => (freq m y).toNat)) → Kraft P →
    ∃ P', (P'.map Prod.fst).Perm (F.map (fun x => x.1.wgt.toNat)) ∧ Kraft P' ∧
      lenCost P' + (F.map (fun x => x.2.cost m)).sum ≤ lenCost P

/-- What holds of the builder between two rounds, with `n` leaves for the symbols `ps`, over the memory `m` at acceptance:
the arena up to `next`, the queue as the set of nodes without a parent, a tree with its exact weight for each entry of
the queue, and the order of every merge so far. -/
structure BuildInv (m : Memory) (ps : List Byte) (b : Builder) : Prop where
  freqs : ∀ y, freq b.mem y = freq m y
  lower : ps.length ≤ b.next
  size : b.next + b.queue.length = 2 * ps.length
  leaf : ∀ (i : NodeIdx) (h : i.toNat < ps.length), node b.mem i = leafWord (ps[i.toNat]'h)
  inner : ∀ i : NodeIdx, ps.length ≤ i.toNat → i.toNat < b.next → isInt (node b.mem i) = true ∧
    (nodeLeft (node b.mem i)).toNat < i.toNat ∧ (nodeRight (node b.mem i)).toNat < i.toNat ∧
    nodeLeft (node b.mem i) ≠ nodeRight (node b.mem i)
  empty : ∀ i : NodeIdx, b.next ≤ i.toNat → node b.mem i = 0
  nodup : (b.queue.map QEntry.idx).Nodup
  bound : ∀ e ∈ b.queue, e.idx < b.next
  orphan : ∀ j : NodeIdx, j.toNat < b.next → (j.toNat ∈ b.queue.map QEntry.idx ↔ ∀ k, ¬ childOf b.mem j k)
  parent : ∀ j k k' : NodeIdx, childOf b.mem j k → childOf b.mem j k' → k = k'
  forest : ∃ F : List (QEntry × HuffmanTree), (F.map Prod.fst).Perm b.queue ∧
    (F.flatMap (fun x => x.2.symbols)).Perm ps ∧ NoCheaper m ps F ∧
    ∀ x ∈ F, x.2.Represents b.mem (BitVec.ofNat 9 x.1.idx) ∧ x.1.wgt.toNat = x.2.weight m ∧
      x.2.depth + 1 ≤ x.2.symbols.length
  merged : ∀ i : NodeIdx, ps.length ≤ i.toNat → i.toNat < b.next →
    let w : NodeIdx → Nat := fun k => arenaWeight b.mem (k.toNat + 1) k
    let l := nodeLeft (node b.mem i)
    let r := nodeRight (node b.mem i)
    pairLt (w l) l.toNat (w r) r.toNat ∧
      ∀ j : NodeIdx, j.toNat < i.toNat → (∀ k : NodeIdx, k.toNat ≤ i.toNat → ¬ childOf b.mem j k) →
        pairLt (w r) r.toNat (w j) j.toNat

theorem isInt_zero : isInt 0 = false := by decide

theorem isInt_lower {m : Memory} {ps : List Byte} {b : Builder} (h : BuildInv m ps b) {i : NodeIdx}
    (hi : isInt (node b.mem i) = true) : ps.length ≤ i.toNat ∧ i.toNat < b.next := by
  by_contra hc
  rw [not_and_or] at hc
  obtain hc | hc := hc
  · rw [h.leaf i (by omega), isInt_leafWord] at hi; cases hi
  · rw [h.empty i (by omega), isInt_zero] at hi; cases hi

theorem BuildInv.descending {m : Memory} {ps : List Byte} {b : Builder} (h : BuildInv m ps b) : Descending b.mem := by
  intro i hi
  obtain ⟨h1, h2⟩ := isInt_lower h hi
  exact ⟨(h.inner i h1 h2).2.1, (h.inner i h1 h2).2.2.1⟩

/-- Take one element with a given image to the front of a list. -/
theorem perm_front {α β : Type} [DecidableEq α] {f : α → β} {F : List α} {a : β} {l : List β} (h : (F.map f).Perm (a :: l)) :
    ∃ p F', F.Perm (p :: F') ∧ f p = a ∧ (F'.map f).Perm l := by
  have ha : a ∈ F.map f := h.mem_iff.mpr (List.mem_cons_self ..)
  obtain ⟨p, hp, rfl⟩ := List.mem_map.mp ha
  have hF := List.perm_cons_erase hp
  exact ⟨p, F.erase p, hF, rfl, ((hF.map f).symm.trans h).cons_inv⟩

/-- The weights of some of the trees fit 40 bits: FREQ has 256 words of 32 bits (R131). -/
theorem weight_bound {m : Memory} {ps : List Byte} (hps : ps.length ≤ 256) :
    (ps.map (fun y => (freq m y).toNat)).sum < 2 ^ 40 := by
  have h : ∀ l : List Byte, (l.map (fun y => (freq m y).toNat)).sum ≤ l.length * (2 ^ 32 - 1) := by
    intro l
    induction l with
    | nil => simp
    | cons y l ih =>
      have := (freq m y).isLt
      rw [List.map_cons, List.sum_cons, List.length_cons, Nat.add_mul]
      omega
  have := h ps
  omega

theorem freq_setNode (m : Memory) (i : NodeIdx) (w : Word) (y : Byte) : freq (setNode m i w) y = freq m y :=
  freq_congr (fun _ _ h2 => readByte_setNode_outside _ _ _ (Or.inl h2)) y

/-- One round (R131). -/
theorem mergeNodes_round {m : Memory} {ps : List Byte} {b : Builder} (h : BuildInv m ps b) (hps : ps.length ≤ 256)
    (hq : 2 ≤ b.queue.length) (k : Nat) : ∃ b', mergeNodes (k + 1) b = mergeNodes k b' ∧ BuildInv m ps b' ∧
      b'.queue.length + 1 = b.queue.length := by
  obtain ⟨x, q, e1, p1, min1⟩ := popMin_spec (q := b.queue) (by intro h; rw [h] at hq; simp at hq)
  have hl1 := p1.length_eq
  rw [List.length_cons] at hl1
  obtain ⟨y, q', e2, p2, min2⟩ := popMin_spec (q := q) (by intro h; rw [h] at hl1; simp at hl1; omega)
  have hl2 := p2.length_eq
  rw [List.length_cons] at hl2
  have p3 : b.queue.Perm (x :: y :: q') := p1.trans (p2.cons x)
  have hsize := h.size
  have hlow := h.lower
  have hx : x ∈ b.queue := p3.mem_iff.mpr (List.mem_cons_self ..)
  have hy : y ∈ b.queue := p3.mem_iff.mpr (by simp)
  have hxb := h.bound x hx
  have hyb := h.bound y hy
  have hnd : ((x :: y :: q').map QEntry.idx).Nodup := (p3.map QEntry.idx).nodup_iff.mp h.nodup
  simp only [List.map_cons, List.nodup_cons, List.mem_cons, not_or] at hnd
  obtain ⟨⟨hxy, hxq⟩, hyq, hq'⟩ := hnd
  have hN : b.next < 512 := by omega
  -- the indices of the round as 9-bit indices
  let X : NodeIdx := BitVec.ofNat 9 x.idx
  let Y : NodeIdx := BitVec.ofNat 9 y.idx
  let N : NodeIdx := BitVec.ofNat 9 b.next
  have hX : X.toNat = x.idx := by simp only [X, BitVec.toNat_ofNat]; omega
  have hY : Y.toNat = y.idx := by simp only [Y, BitVec.toNat_ofNat]; omega
  have hNn : N.toNat = b.next := by simp only [N, BitVec.toNat_ofNat]; omega
  have hXY : X ≠ Y := fun e => hxy (by rw [← hX, ← hY, e])
  refine ⟨⟨setNode b.mem N (internalWord X Y), q' ++ [⟨x.wgt + y.wgt, b.next⟩], b.next + 1⟩,
    by simp only [mergeNodes, e1, e2, X, Y, N], ?_,
    by simp only [List.length_append, List.length_singleton]; omega⟩
  generalize hm' : setNode b.mem N (internalWord X Y) = m'
  have hnode : ∀ i, node m' i = if N = i then internalWord X Y else node b.mem i := by
    intro i; rw [← hm']; exact node_setNode _ _ _ _
  have hold : ∀ i : NodeIdx, i.toNat < b.next → node m' i = node b.mem i := by
    intro i hi; rw [hnode, if_neg (fun e => by rw [← e, hNn] at hi; omega)]
  have hnew : node m' N = internalWord X Y := by rw [hnode, if_pos rfl]
  have hfreq : ∀ z, freq m' z = freq b.mem z := by intro z; rw [← hm']; exact freq_setNode _ _ _ _
  have hdesc := h.descending
  have hchild : ∀ j k, childOf m' j k ↔ childOf b.mem j k ∨ (k = N ∧ (j = X ∨ j = Y)) := by
    intro j k
    by_cases hk : N = k
    · subst hk
      unfold childOf
      rw [hnew, isInt_internalWord, nodeLeft_internalWord, nodeRight_internalWord, h.empty N (by omega), isInt_zero]
      constructor
      · rintro ⟨-, e | e⟩
        · exact Or.inr ⟨rfl, Or.inl e.symm⟩
        · exact Or.inr ⟨rfl, Or.inr e.symm⟩
      · rintro (⟨h, -⟩ | ⟨-, e | e⟩)
        · cases h
        · exact ⟨rfl, Or.inl e.symm⟩
        · exact ⟨rfl, Or.inr e.symm⟩
    · unfold childOf
      rw [hnode, if_neg hk]
      exact ⟨Or.inl, fun hh => hh.elim id (fun hh => absurd hh.1.symm hk)⟩
  have hchild_old : ∀ j k, childOf b.mem j k → j.toNat < b.next ∧ k.toNat < b.next := by
    rintro j k ⟨hi, e⟩
    have := isInt_lower h hi
    have := hdesc k hi
    rcases e with e | e <;> rw [← e] <;> omega
  have hXo : ∀ k, ¬ childOf b.mem X k :=
    (h.orphan X (by omega)).mp (by rw [hX]; exact List.mem_map.mpr ⟨x, hx, rfl⟩)
  have hYo : ∀ k, ¬ childOf b.mem Y k :=
    (h.orphan Y (by omega)).mp (by rw [hY]; exact List.mem_map.mpr ⟨y, hy, rfl⟩)
  -- the forest
  obtain ⟨F, hF1, hF2, hF4, hF3⟩ := h.forest
  obtain ⟨⟨x', Tx⟩, F1, hG1, rfl, hG2⟩ := perm_front (hF1.trans p3)
  obtain ⟨⟨y', Ty⟩, F2, hG3, rfl, hG4⟩ := perm_front hG2
  have hG5 : F.Perm ((x', Tx) :: (y', Ty) :: F2) := hG1.trans (hG3.cons _)
  have hTx := hF3 _ (hG5.mem_iff.mpr (List.mem_cons_self ..))
  have hTy := hF3 _ (hG5.mem_iff.mpr (List.mem_cons_of_mem _ (List.mem_cons_self ..)))
  dsimp only at *
  have hsyms : (Tx.symbols ++ (Ty.symbols ++ F2.flatMap (fun x => x.2.symbols))).Perm ps := by
    have := (hG5.flatMap_right (fun x => x.2.symbols)).symm.trans hF2
    simpa using this
  have hw : (x'.wgt + y'.wgt).toNat = x'.wgt.toNat + y'.wgt.toNat := by
    have h1 := weight_bound (m := m) hps
    rw [← (hsyms.map (fun y => (freq m y).toNat)).sum_eq] at h1
    simp only [List.map_append, List.sum_append] at h1
    have h2 : x'.wgt.toNat = (Tx.symbols.map (fun y => (freq m y).toNat)).sum := hTx.2.1
    have h3 : y'.wgt.toNat = (Ty.symbols.map (fun y => (freq m y).toNat)).sum := hTy.2.1
    rw [BitVec.toNat_add, Nat.mod_eq_of_lt]
    omega
  have hwm : ∀ T : HuffmanTree, T.weight b.mem = T.weight m := by
    intro T; unfold HuffmanTree.weight; simp only [h.freqs]
  have haw : ∀ (i : NodeIdx) f, i.toNat < b.next → arenaWeight m' f i = arenaWeight b.mem f i :=
    fun i f hi => arenaWeight_congr hdesc hold hfreq f i hi
  -- the weight the arena gives an entry of the queue
  have hqw : ∀ e ∈ b.queue, ∀ j : NodeIdx, j.toNat = e.idx → arenaWeight b.mem (j.toNat + 1) j = e.wgt.toNat := by
    intro e he j hj
    obtain ⟨⟨e', T⟩, hm, rfl⟩ := List.mem_map.mp (hF1.mem_iff.mpr he)
    have hT := hF3 _ hm
    have ej : BitVec.ofNat 9 e'.idx = j := by
      apply BitVec.eq_of_toNat_eq
      have := j.isLt
      rw [BitVec.toNat_ofNat, ← hj]
      omega
    dsimp only at hT ⊢
    rw [ej] at hT
    rw [HuffmanTree.weight_eq hdesc T hT.1, hwm, hT.2.1]
  exact
    { freqs := fun z => by rw [hfreq]; exact h.freqs z
      lower := by dsimp only; omega
      size := by simp only [List.length_append, List.length_singleton]; omega
      leaf := fun i hi => by rw [hold i (by omega)]; exact h.leaf i hi
      inner := fun i h1 h2 => by
        dsimp only at h1 h2 ⊢
        by_cases hi : i.toNat < b.next
        · rw [hold i hi]; exact h.inner i h1 hi
        · have : i = N := BitVec.eq_of_toNat_eq (by omega)
          subst this
          rw [hnew, isInt_internalWord, nodeLeft_internalWord, nodeRight_internalWord]
          exact ⟨rfl, by omega, by omega, hXY⟩
      empty := fun i hi => by
        dsimp only at hi
        rw [hnode, if_neg (fun e => by rw [← e, hNn] at hi; omega)]
        exact h.empty i (by omega)
      nodup := by
        rw [List.map_append, List.nodup_append]
        refine ⟨hq', by simp, fun a ha c hc => ?_⟩
        simp only [List.map_cons, List.map_nil, List.mem_singleton] at hc
        obtain ⟨e, he, rfl⟩ := List.mem_map.mp ha
        have := h.bound e (p3.mem_iff.mpr (by simp [he]))
        omega
      bound := fun e he => by
        rw [List.mem_append, List.mem_singleton] at he
        obtain he | rfl := he
        · have := h.bound e (p3.mem_iff.mpr (by simp [he]))
          dsimp only
          omega
        · dsimp only; omega
      orphan := fun j hj => by
        dsimp only at hj ⊢
        rw [List.map_append, List.mem_append]
        simp only [List.map_cons, List.map_nil, List.mem_singleton]
        by_cases hjn : j = N
        · subst hjn
          refine ⟨fun _ k hk => ?_, fun _ => Or.inr hNn⟩
          rcases (hchild _ _).mp hk with hc | ⟨-, e | e⟩
          · have := hchild_old _ _ hc; omega
          · rw [e] at hNn; omega
          · rw [e] at hNn; omega
        · have hj' : j.toNat < b.next := by
            have : j.toNat ≠ b.next := fun e => hjn (BitVec.eq_of_toNat_eq (by omega))
            omega
          have ho := h.orphan j hj'
          rw [(p3.map QEntry.idx).mem_iff] at ho
          simp only [List.map_cons, List.mem_cons] at ho
          constructor
          · rintro (hm | e)
            · intro k hk
              rcases (hchild _ _).mp hk with hc | ⟨-, e | e⟩
              · exact ho.mp (Or.inr (Or.inr hm)) k hc
              · rw [e, hX] at hm; exact hxq hm
              · rw [e, hY] at hm; exact hyq hm
            · omega
          · intro hn
            left
            rcases ho.mpr (fun k hk => hn k ((hchild _ _).mpr (Or.inl hk))) with e | e | hm
            · exact absurd ((hchild _ _).mpr (Or.inr ⟨rfl, Or.inl (BitVec.eq_of_toNat_eq (e.trans hX.symm))⟩)) (hn N)
            · exact absurd ((hchild _ _).mpr (Or.inr ⟨rfl, Or.inr (BitVec.eq_of_toNat_eq (e.trans hY.symm))⟩)) (hn N)
            · exact hm
      parent := fun j k k' hk hk' => by
        rcases (hchild _ _).mp hk with hc | ⟨e, hj⟩ <;> rcases (hchild _ _).mp hk' with hc' | ⟨e', hj'⟩
        · exact h.parent j k k' hc hc'
        · rcases hj' with e | e <;> rw [e] at hc
          · exact absurd hc (hXo k)
          · exact absurd hc (hYo k)
        · rcases hj with e | e <;> rw [e] at hc'
          · exact absurd hc' (hXo k')
          · exact absurd hc' (hYo k')
        · rw [e, e']
      forest := by
        refine ⟨F2 ++ [(⟨x'.wgt + y'.wgt, b.next⟩, .node Tx Ty)], ?_, ?_, ?_, fun z hz => ?_⟩
        · rw [List.map_append]; exact hG4.append_right _
        · simp only [List.flatMap_append, List.flatMap_cons, List.flatMap_nil, List.append_nil, HuffmanTree.symbols_node]
          refine List.perm_append_comm.trans ?_
          rwa [List.append_assoc]
        · intro P hP hk
          obtain ⟨P1, g1, g2, g3⟩ := hF4 P hP hk
          have hle : ∀ {a b : QEntry}, (b = a ∨ pairLt a.wgt.toNat a.idx b.wgt.toNat b.idx) → a.wgt.toNat ≤ b.wgt.toNat := by
            rintro a b (rfl | hp)
            · exact Nat.le_refl _
            · unfold pairLt at hp; omega
          have hw2 : ∀ w ∈ F2.map (fun x => x.1.wgt.toNat), y'.wgt.toNat ≤ w := by
            intro w hw
            obtain ⟨z, hz, rfl⟩ := List.mem_map.mp hw
            refine hle (min2 z.1 (p2.mem_iff.mpr (List.mem_cons_of_mem _ (hG4.mem_iff.mp ?_))))
            exact List.mem_map.mpr ⟨z, hz, rfl⟩
          obtain ⟨P2, k1, k2, k3⟩ := kraft_merge (g1.trans (hG5.map (fun x => x.1.wgt.toNat))) (hle (min1 y' hy)) hw2 g2
          refine ⟨P2, ?_, k2, ?_⟩
          · rw [List.map_append]
            refine k1.trans ?_
            rw [← hw]
            exact (List.perm_append_singleton _ _).symm
          · rw [(hG5.map (fun x => x.2.cost m)).sum_eq] at g3
            simp only [List.map_cons, List.sum_cons] at g3
            simp only [List.map_append, List.sum_append, List.map_cons, List.map_nil, List.sum_cons, List.sum_nil,
              HuffmanTree.cost_node]
            have := hTx.2.1
            have := hTy.2.1
            omega
        · rw [List.mem_append, List.mem_singleton] at hz
          obtain hz | rfl := hz
          · obtain ⟨g1, g2, g3⟩ := hF3 z (hG5.mem_iff.mpr (by simp [hz]))
            have hb := h.bound z.1 (hF1.mem_iff.mp (List.mem_map.mpr ⟨z, hG5.mem_iff.mpr (by simp [hz]), rfl⟩))
            refine ⟨HuffmanTree.Represents_congr hdesc hold _ ?_ g1, g2, g3⟩
            rw [BitVec.toNat_ofNat]
            omega
          · dsimp only
            refine ⟨⟨?_, ?_, ?_⟩, ?_, ?_⟩
            · show isInt (node m' N) = true
              rw [hnew, isInt_internalWord]
            · show Tx.Represents m' (nodeLeft (node m' N))
              rw [hnew, nodeLeft_internalWord]
              exact HuffmanTree.Represents_congr hdesc hold _ (by omega) hTx.1
            · show Ty.Represents m' (nodeRight (node m' N))
              rw [hnew, nodeRight_internalWord]
              exact HuffmanTree.Represents_congr hdesc hold _ (by omega) hTy.1
            · rw [hw, HuffmanTree.weight_node, hTx.2.1, hTy.2.1]
            · rw [HuffmanTree.symbols_node, List.length_append, HuffmanTree.depth]
              have := hTx.2.2
              have := hTy.2.2
              omega
      merged := fun i h1 h2 => by
        dsimp only at h2 ⊢
        by_cases hi : i.toNat < b.next
        · obtain ⟨-, l1, l2, -⟩ := h.inner i h1 hi
          obtain ⟨g1, g2⟩ := h.merged i h1 hi
          rw [hold i hi, haw _ _ (by omega), haw _ _ (by omega)]
          refine ⟨g1, fun j hj hk => ?_⟩
          rw [haw j _ (by omega)]
          exact g2 j hj (fun k hki hc => hk k hki ((hchild _ _).mpr (Or.inl hc)))
        · obtain rfl : i = N := BitVec.eq_of_toNat_eq (by omega)
          rw [hnew, nodeLeft_internalWord, nodeRight_internalWord, haw X _ (by omega), haw Y _ (by omega),
            hqw x' hx X hX, hqw y' hy Y hY, hX, hY]
          refine ⟨(min1 y' hy).resolve_left (fun e => hxy (by rw [e])), fun j hj hk => ?_⟩
          rw [hNn] at hj
          have hjq : j.toNat ∈ b.queue.map QEntry.idx :=
            (h.orphan j hj).mpr (fun k hc => hk k (by have := hchild_old j k hc; omega) ((hchild _ _).mpr (Or.inl hc)))
          obtain ⟨e, he, hej⟩ := List.mem_map.mp hjq
          rw [haw j _ hj, hqw e he j hej.symm, ← hej]
          have hjX : e ≠ x' := fun e' => hk N (Nat.le_refl _)
            ((hchild _ _).mpr (Or.inr ⟨rfl, Or.inl (BitVec.eq_of_toNat_eq (by rw [hX, ← hej, e']))⟩))
          have hjY : e ≠ y' := fun e' => hk N (Nat.le_refl _)
            ((hchild _ _).mpr (Or.inr ⟨rfl, Or.inr (BitVec.eq_of_toNat_eq (by rw [hY, ← hej, e']))⟩))
          have heq : e ∈ q := (List.mem_cons.mp (p1.mem_iff.mp he)).resolve_left hjX
          exact (min2 e heq).resolve_left hjY }

/-- The merge: it ends with one element in the queue, and keeps the invariant (R131). -/
theorem mergeNodes_inv {m : Memory} {ps : List Byte} (hps : ps.length ≤ 256) (k : Nat) {b : Builder} (h : BuildInv m ps b)
    (hq : 1 ≤ b.queue.length) (hk : b.queue.length ≤ k + 1) :
    BuildInv m ps (mergeNodes k b) ∧ (mergeNodes k b).queue.length = 1 := by
  induction k generalizing b with
  | zero => exact ⟨h, by simp only [mergeNodes]; omega⟩
  | succ k ih =>
    by_cases h2 : 2 ≤ b.queue.length
    · obtain ⟨b', e, h', hl⟩ := mergeNodes_round h hps h2 k
      rw [e]
      exact ih h' (by omega) (by omega)
    · have h1 : b.queue.length = 1 := by omega
      obtain ⟨x, hx⟩ := List.length_eq_one_iff.mp h1
      have e : mergeNodes (k + 1) b = b := by simp [mergeNodes, hx, popMin, leastEntry]
      rw [e]
      exact ⟨h, h1⟩

/-! ## The seed -/

/-- The queue entry of a seeded leaf. -/
def seedEntry (m : Memory) (x : Byte × Nat) : QEntry := ⟨(freq m x.1).setWidth 40, x.2⟩

/-- Seeding (R131): one leaf and one entry for each symbol, in order. -/
theorem seedLeaves_spec (m : Memory) (ps : List Byte) (b : Builder) (h : b.next + ps.length ≤ 512) :
    (seedLeaves m ps b).next = b.next + ps.length ∧
    (seedLeaves m ps b).queue = b.queue ++ (ps.zipIdx b.next).map (seedEntry m) ∧
    (∀ i : NodeIdx, node (seedLeaves m ps b).mem i =
      if b.next ≤ i.toNat ∧ i.toNat < b.next + ps.length then leafWord (ps.getD (i.toNat - b.next) 0)
      else node b.mem i) := by
  induction ps generalizing b with
  | nil => exact ⟨rfl, by simp [seedLeaves], fun i => by rw [if_neg (by simp)]; rfl⟩
  | cons y ps ih =>
    rw [List.length_cons] at h
    obtain ⟨h1, h2, h3⟩ := ih
      ⟨setNode b.mem (BitVec.ofNat 9 b.next) (leafWord y), b.queue ++ [⟨(freq m y).setWidth 40, b.next⟩], b.next + 1⟩
      (by dsimp only; omega)
    dsimp only at h1 h2 h3
    refine ⟨by rw [seedLeaves, h1, List.length_cons]; omega, by
      rw [seedLeaves, h2, List.zipIdx_cons, List.map_cons, List.append_assoc]; rfl, fun i => ?_⟩
    rw [seedLeaves, h3, node_setNode, List.length_cons]
    have hi := i.isLt
    have hb : (BitVec.ofNat 9 b.next).toNat = b.next := by rw [BitVec.toNat_ofNat]; omega
    by_cases e : BitVec.ofNat 9 b.next = i
    · have e' : i.toNat = b.next := by rw [← e, hb]
      rw [if_neg (by omega), if_pos e, if_pos (by omega), e', Nat.sub_self, List.getD_cons_zero]
    · have e' : i.toNat ≠ b.next := fun h => e (BitVec.eq_of_toNat_eq (by omega))
      by_cases hc : b.next + 1 ≤ i.toNat ∧ i.toNat < b.next + 1 + ps.length
      · rw [if_pos hc, if_pos (by omega), show i.toNat - b.next = (i.toNat - (b.next + 1)) + 1 by omega,
          List.getD_cons_succ]
      · rw [if_neg hc, if_neg e, if_neg (by omega)]

theorem present_length_le (m : Memory) : (present m).length ≤ 256 := by
  have := List.length_filter_le (fun y => freq m y != 0) symbols
  rwa [symbols_length] at this

/-- The invariant holds after seeding. -/
theorem seeded_inv (p : Params) (m : Memory) :
    BuildInv m (present m) (seeded p m) ∧ (seeded p m).queue.length = (present m).length := by
  have hl := present_length_le m
  obtain ⟨h1, h2, h3⟩ := seedLeaves_spec m (present m) ⟨clearRam p .node m, [], 0⟩ (by dsimp only; omega)
  have hfr : ∀ y, freq (seedLeaves m (present m) ⟨clearRam p .node m, [], 0⟩).mem y = freq m y := by
    intro y
    refine seedLeaves_mem (q := fun m' => freq m' y = freq m y) (fun m' i w h => by rw [freq_setNode, h]) _ _ _ ?_
    refine freq_congr (fun a g1 g2 => ?_) y
    dsimp only
    rw [readByte_clearRam]
    simp [Ram.owns]
    omega
  unfold seeded
  generalize seedLeaves m (present m) ⟨clearRam p .node m, [], 0⟩ = b at h1 h2 h3 hfr
  generalize present m = ps at *
  simp only [Nat.zero_add, List.nil_append, Nat.zero_le, true_and, Nat.sub_zero, node_clearRam] at h1 h2 h3
  have hidx : b.queue.map QEntry.idx = List.range ps.length := by
    rw [h2, List.map_map, List.range_eq_range', ← List.zipIdx_map_snd 0 ps]
    rfl
  have hint : ∀ i, isInt (node b.mem i) = false := by
    intro i
    rw [h3]
    split
    · exact isInt_leafWord _
    · exact isInt_zero
  have hch : ∀ j k, ¬ childOf b.mem j k := fun j k h => by rw [childOf, hint] at h; cases h.1
  refine ⟨{
    freqs := hfr
    lower := by omega
    size := by rw [h1, h2]; simp; omega
    leaf := fun i hi => by rw [h3, if_pos hi, List.getD_eq_getElem _ _ hi]
    inner := fun i g1 g2 => by omega
    empty := fun i hi => by rw [h3, if_neg (by omega)]
    nodup := by rw [hidx]; exact List.nodup_range
    bound := fun e he => by
      have : e.idx ∈ b.queue.map QEntry.idx := List.mem_map.mpr ⟨e, he, rfl⟩
      rw [hidx, List.mem_range] at this
      omega
    orphan := fun j hj => by
      rw [hidx, List.mem_range]
      exact ⟨fun _ k => hch j k, fun _ => by omega⟩
    parent := fun j k k' h => absurd h (hch j k)
    forest := by
      refine ⟨ps.zipIdx.map (fun x => (seedEntry m x, .leaf x.1)), ?_, ?_, ?_, fun x hx => ?_⟩
      · rw [h2, List.map_map]
        exact List.Perm.refl _
      · rw [List.flatMap_map]
        have : ∀ l : List (Byte × Nat), l.flatMap (fun x => (HuffmanTree.leaf x.1).symbols) = l.map Prod.fst := by
          intro l
          induction l with
          | nil => rfl
          | cons x l ih => rw [List.flatMap_cons, ih]; rfl
        rw [this, List.zipIdx_map_fst]
      · intro P hP hk
        have e1 : (ps.zipIdx.map (fun x => (seedEntry m x, HuffmanTree.leaf x.1))).map (fun x => x.1.wgt.toNat) =
            ps.map (fun y => (freq m y).toNat) := by
          conv => rhs; rw [← List.zipIdx_map_fst 0 ps]
          rw [List.map_map, List.map_map]
          refine List.map_congr_left (fun x _ => ?_)
          have := (freq m x.1).isLt
          simp only [Function.comp_def, seedEntry, BitVec.toNat_setWidth]
          omega
        have e2 : ((ps.zipIdx.map (fun x => (seedEntry m x, HuffmanTree.leaf x.1))).map (fun x => x.2.cost m)).sum = 0 := by
          rw [List.map_map]
          exact List.sum_eq_zero (fun c hc => by
            obtain ⟨x, -, rfl⟩ := List.mem_map.mp hc
            exact HuffmanTree.cost_leaf m x.1)
        exact ⟨P, by rw [e1]; exact hP, hk, by rw [e2]; exact Nat.le_refl _⟩
      · obtain ⟨⟨y, i⟩, hi, rfl⟩ := List.mem_map.mp hx
        have hy := List.mem_zipIdx hi
        simp only [Nat.zero_le, Nat.zero_add, true_and, Nat.sub_zero] at hy
        obtain ⟨hlt, hy⟩ := hy
        have hn : (BitVec.ofNat 9 i).toNat = i := by rw [BitVec.toNat_ofNat]; omega
        have hnode : node b.mem (BitVec.ofNat 9 i) = leafWord y := by
          rw [h3, hn, if_pos hlt, List.getD_eq_getElem _ _ hlt, ← hy]
        refine ⟨⟨?_, ?_⟩, ?_, Nat.le_refl _⟩
        · dsimp only [seedEntry]; rw [hnode, isLeaf_leafWord]
        · dsimp only [seedEntry]; rw [hnode, nodeSym_leafWord]
        · have := (freq m y).isLt
          simp only [seedEntry, HuffmanTree.weight, HuffmanTree.symbols, HuffmanTree.leaves, List.map_cons, List.map_nil,
            List.sum_cons, List.sum_nil, BitVec.toNat_setWidth]
          omega
    merged := fun i g1 g2 => by omega }, ?_⟩
  rw [h2]
  simp

/-- The finished arena (R131, R132): the invariant, with every node written and one entry in the queue. -/
theorem built_inv (p : Params) {m : Memory} (hn : 1 ≤ (present m).length) :
    BuildInv m (present m) (built p m) ∧ (built p m).next = 2 * (present m).length - 1 ∧
      ∃ e, (built p m).queue = [e] ∧ e.idx = 2 * (present m).length - 2 := by
  obtain ⟨h1, h2⟩ := seeded_inv p m
  obtain ⟨h3, h4⟩ := mergeNodes_inv (present_length_le m) (present m).length h1 (by omega) (by omega)
  change BuildInv m (present m) (built p m) at h3
  change (built p m).queue.length = 1 at h4
  have hs := h3.size
  have hl := present_length_le m
  obtain ⟨e, he⟩ := List.length_eq_one_iff.mp h4
  refine ⟨h3, by omega, e, he, ?_⟩
  -- the last node written is no node's child, so it is the one in the queue
  have hN : (BitVec.ofNat 9 ((built p m).next - 1) : NodeIdx).toNat = (built p m).next - 1 := by
    rw [BitVec.toNat_ofNat]; omega
  have ho := (h3.orphan (BitVec.ofNat 9 ((built p m).next - 1)) (by omega)).mpr (fun k hk => by
    obtain ⟨hi, hk⟩ := hk
    have h5 := isInt_lower h3 hi
    have h6 := h3.descending k hi
    rcases hk with e | e <;> rw [e] at h6 <;> omega)
  rw [he, hN] at ho
  simp only [List.map_cons, List.map_nil, List.mem_singleton] at ho
  omega

/-- The built tree costs no more than any assignment of lengths to the present symbols that meets the Kraft inequality
(R133). -/
theorem built_optimal (p : Params) {m : Memory} (hn : 1 ≤ (present m).length) :
    ∃ T : HuffmanTree, T.Represents (built p m).mem (BitVec.ofNat 9 (built p m).root) ∧ T.symbols.Perm (present m) ∧
      ∀ P : List (Nat × Nat), (P.map Prod.fst).Perm ((present m).map (fun y => (freq m y).toNat)) → Kraft P →
        T.cost m ≤ lenCost P := by
  obtain ⟨h, -, e, he, -⟩ := built_inv p hn
  obtain ⟨F, hF1, hF2, hF4, hF3⟩ := h.forest
  rw [he] at hF1
  obtain ⟨x, rfl⟩ := List.length_eq_one_iff.mp (show F.length = 1 by simpa using hF1.length_eq)
  have hx : x.1 = e := by simpa using hF1
  refine ⟨x.2, ?_, by simpa using hF2, fun P hP hk => ?_⟩
  · have := (hF3 x (List.mem_singleton_self _)).1
    rwa [Builder.root, he, ← hx]
  · obtain ⟨P', -, -, h3⟩ := hF4 P hP hk
    simp only [List.map_cons, List.map_nil, List.sum_cons, List.sum_nil] at h3
    omega

end Sys2Proof.Machine
end

