-- ==== Sys2Proof/Tests/Slice0.lean ====
section
/-! SUPPORT. Tests: ill-formed command words, decoding, one step per instruction on the spec's vectors
(95_test_vectors.md), and for each obligation with hypotheses a state and operands that meet them. -/

namespace Sys2Proof.Tests

open Sys2Proof.Machine

/-! ## Helpers -/

/-- The outcome is a next state of which `q` holds. -/
def holds (r : Result) (q : State → Bool) : Bool :=
  match r with
  | .next t => q t
  | .refused _ => false

/-- Memory with the given FREQ words. -/
def freqs (l : List (Byte × Word)) : Memory := l.foldl (fun m x => setFreq m x.1 x.2) []

/-- Memory with the given NODE words, from index 0 on, added. -/
def nodes (l : List Word) (m : Memory) : Memory :=
  l.zipIdx.foldl (fun m x => setNode m (BitVec.ofNat 9 x.2) x.1) m

/-- Memory with the given codes (symbol, length, value) added. -/
def codes (l : List (Byte × Byte × CodeVal)) (m : Memory) : Memory :=
  l.foldl (fun m x => setCodeVal (setCodeLen m x.1 x.2.1) x.1 x.2.2) m

/-- Memory with the given bytes at the start of IN_BUF added. -/
def input (p : Params) (l : List Byte) (m : Memory) : Memory :=
  l.zipIdx.foldl (fun m x => setInByte p m x.2 x.1) m

/-- Buffers of `i` and `o` bytes. -/
def caps (i o : Fin 65536) : Params := ⟨0, i - 1, o - 1⟩

/-- An idle block with buffers of 16 bytes. -/
def rig (m : Memory) : State := State.powerOn (caps 16 16) m

/-- The block with ROOT valid at `i`. -/
def rooted (i : NodeIdx) (s : State) : State := { s with rootValid := true, rootIdx := i }

/-- The block with IN_BUF, IN_LEN and DEC_NBITS set. -/
def fed (l : List Byte) (n : Word) (s : State) : State :=
  { s with mem := input s.params l s.mem, inLen := BitVec.ofNat 17 l.length, decNbits := n }

/-- The block BUSY with the command word `c`, `d` host statements before its completion. -/
def busyWith (c : Word) (d : Nat) (s : State) : State := { s with seq := .busy, cmd := c, delay := d }

/-- The tree of V1: A, B, C with weights 1, 2, 3. -/
def nodesV1 : List Word := [0x40000041, 0x40000042, 0x40000043, 0x80010000, 0x80030002]

/-- The codes of V1. -/
def codesV1 : List (Byte × Byte × CodeVal) := [(0x41, 2, 2), (0x42, 2, 3), (0x43, 1, 0)]

/-- The tree of V1 as a term. -/
def treeV1 : HuffmanTree := .node (.leaf 0x43) (.node (.leaf 0x41) (.leaf 0x42))

/-- The tree of V5: A, B, C, D with equal weights. -/
def nodesV5 : List Word :=
  [0x40000041, 0x40000042, 0x40000043, 0x40000044, 0x80010000, 0x80030002, 0x80050004]

/-- The tree of V5 as a term. -/
def treeV5 : HuffmanTree := .node (.node (.leaf 0x41) (.leaf 0x42)) (.node (.leaf 0x43) (.leaf 0x44))

/-- The arena of V14: the right child of node 4 is node 7, an empty word. -/
def nodesV14 : List Word := [0x40000041, 0x40000042, 0x40000043, 0x80010000, 0x80070002]

/-- The arena of V17: the tree of V9, and node 511 above it with itself as its right child. -/
def nodeV17 (i : NodeIdx) : Word :=
  if i = 511 then 0x81FF01FE
  else if i.toNat < 256 then 0x40000000 + BitVec.ofNat 32 i.toNat
  else internalWord (BitVec.ofNat 9 (2 * (i.toNat - 256))) (BitVec.ofNat 9 (2 * (i.toNat - 256) + 1))

/-- Memory with the first `k` NODE words of an arena written. -/
def arenaUpTo (nd : NodeIdx → Word) : Nat → Memory
  | 0 => []
  | k + 1 => setNode (arenaUpTo nd k) (BitVec.ofNat 9 k) (nd (BitVec.ofNat 9 k))

theorem node_arenaUpTo (nd : NodeIdx → Word) (k : Nat) (i : NodeIdx) (h : i.toNat < k) : node (arenaUpTo nd k) i = nd i := by
  induction k with
  | zero => omega
  | succ k ih =>
    rw [arenaUpTo, node_setNode]
    split
    · rename_i e; rw [e]
    · rename_i e
      refine ih (Nat.lt_of_le_of_ne (by omega) fun h' => e ?_)
      rw [← h', BitVec.ofNat_toNat, BitVec.setWidth_eq]

/-- "ABBCCC". -/
def abbccc : List Byte := [0x41, 0x42, 0x42, 0x43, 0x43, 0x43]

/-! ## Ill-formed command words (R101, R102, R109) -/

theorem test_wf_rsvd : (⟨1, 0, false, 0x00⟩ : CmdFields).rsvdOk = false ∧ (⟨1, 0, false, 0x00⟩ : CmdFields).wf = false := by
  decide

theorem test_wf_frsv : (⟨0, 1, false, 0x05⟩ : CmdFields).frsvOk = false ∧ (⟨0, 1, false, 0x05⟩ : CmdFields).wf = false := by
  decide

theorem test_wf_all : (⟨0, 0, true, 0x04⟩ : CmdFields).allOk = false ∧ (⟨0, 0, true, 0x04⟩ : CmdFields).wf = false := by
  decide

theorem test_wf_op : (⟨0, 0, false, 0x08⟩ : CmdFields).opOk = false ∧ (⟨0, 0, false, 0x08⟩ : CmdFields).wf = false := by
  decide

/-! ## Decoding: RSVD, FRSV, ALL and OP written out in bits from R101 and R109 -/

theorem test_decode_nop : decode (0b0000000000000000#16 ++ 0b0000000#7 ++ 0b0#1 ++ 0b00000000#8) = .ok .nop := by decide

theorem test_decode_clrFreq : decode (0b0000000000000000#16 ++ 0b0000000#7 ++ 0b0#1 ++ 0b00000001#8) = .ok .clrFreq := by
  decide

theorem test_decode_buildTree : decode (0b0000000000000000#16 ++ 0b0000000#7 ++ 0b0#1 ++ 0b00000010#8) = .ok .buildTree := by
  decide

theorem test_decode_genCodes : decode (0b0000000000000000#16 ++ 0b0000000#7 ++ 0b0#1 ++ 0b00000011#8) = .ok .genCodes := by
  decide

theorem test_decode_encode : decode (0b0000000000000000#16 ++ 0b0000000#7 ++ 0b0#1 ++ 0b00000100#8) = .ok .encode := by
  decide

theorem test_decode_decode : decode (0b0000000000000000#16 ++ 0b0000000#7 ++ 0b0#1 ++ 0b00000101#8) = .ok .decode := by
  decide

theorem test_decode_decodeAll : decode (0b0000000000000000#16 ++ 0b0000000#7 ++ 0b1#1 ++ 0b00000101#8) = .ok .decodeAll := by
  decide

theorem test_decode_clrTree : decode (0b0000000000000000#16 ++ 0b0000000#7 ++ 0b0#1 ++ 0b00000110#8) = .ok .clrTree := by
  decide

theorem test_decode_clrCodes : decode (0b0000000000000000#16 ++ 0b0000000#7 ++ 0b0#1 ++ 0b00000111#8) = .ok .clrCodes := by
  decide

/-- V49, V50: illegal words. -/
theorem test_decode_illegal :
    decode 0x00000008 = .error .unknownOp ∧ decode 0x00010000 = .error .reservedBits ∧
    decode 0x00000100 = .error .reservedFlags ∧ decode 0x00000101 = .error .reservedFlags ∧
    decode 0x00000205 = .error .reservedFlags ∧ decode 0x80000000 = .error .reservedBits ∧
    decode 0x000000FF = .error .unknownOp := by
  decide

/-- V49: the word 0x00000008 completes with ILLEGAL_CMD and the word in ERR_INFO. -/
theorem test_illegal :
    holds (step (busyWith 0x00000008 0 (rig [])))
      (fun t => t.errCode == .illegalCmd && t.errInfo == 0x00000008 && statusWord t == 0x00000006) = true := by
  decide

/-! ## One step per command -/

/-- V45: NOP from reset. -/
theorem test_nop : holds (step (State.reset.withFetchWord 32 0)) (fun t => statusWord t == 0x00000002) = true := by decide

/-- V46: CLR_FREQ clears FREQ and no NODE word. -/
theorem test_clrFreq :
    holds (execClrFreq (rig (nodes nodesV1 (freqs [(0x41, 1), (0xFF, 7)]))))
      (fun t => freq t.mem 0x41 == 0 && freq t.mem 0xFF == 0 && node t.mem 4 == 0x80030002) = true := by
  decide

/-- V6: on equal weights the lower index is popped first. -/
theorem test_buildTree_tie :
    holds (execBuildTree (rig (freqs [(0x41, 1), (0x42, 1), (0x43, 2)])))
      (fun t => node t.mem 3 == 0x80010000 && node t.mem 4 == 0x80030002 && readReg t .root == 0x80000004) = true := by
  decide

/-- V11: a merged weight of 33 bits. -/
theorem test_buildTree_wide :
    holds (execBuildTree (rig (freqs [(0x01, 0xFFFFFFFF), (0x02, 0xFFFFFFFF), (0x03, 1)])))
      (fun t => node t.mem 3 == 0x80000002 && node t.mem 4 == 0x80030001 && t.nnode == 5) = true := by
  decide

/-- V1: the codes of A, B, C. -/
theorem test_genCodes :
    holds (execGenCodes (rooted 4 (rig (nodes nodesV1 []))))
      (fun t => codeOf t.mem 0x41 == [true, false] && codeOf t.mem 0x42 == [true, true] && codeOf t.mem 0x43 == [false] &&
        t.ncodes == 3 && t.maxlen == 2) = true := by
  decide

/-- V14: the right child of the root is no node. -/
theorem test_genCodes_badTag :
    holds (execGenCodes (rooted 4 (rig (nodes nodesV14 []))))
      (fun t => t.errCode == .invalidTree && t.errInfo == 0x02000007 && t.errPos == 1 && codeLen t.mem 0x43 == 0) = true := by
  decide

set_option maxRecDepth 4000 in
/-- V1: "ABBCCC" is packed to 0xBC 0x00. -/
theorem test_encode :
    holds (execEncode (fed abbccc 0 (rig (codes codesV1 []))))
      (fun t => outByte t.params t.mem 0 == 0xBC && outByte t.params t.mem 1 == 0x00 && t.outLen == 2 && t.outBits == 9) =
      true := by
  decide

set_option maxRecDepth 4000 in
/-- V21: with one byte of OUT_BUF the ninth bit, from byte 5, has no room. -/
theorem test_encode_overflow :
    holds (execEncode (fed abbccc 0 (State.powerOn (caps 16 1) (codes codesV1 []))))
      (fun t => t.errCode == .outOverflow && t.errInfo == 1 && t.errPos == 5 && t.outLen == 0) = true := by
  decide

/-- V34: 7 bits of V5's stream leave one bit over. -/
theorem test_decode :
    holds (execDecode (fed [0x1B] 7 (rooted 6 (rig (nodes nodesV5 [])))))
      (fun t => outBytes t.params t.mem 3 == [0x41, 0x42, 0x43] && t.outLen == 3 && t.outBits == 6 && t.decTail == 1) =
      true := by
  decide

/-- V28: a lone leaf meets a 1 bit at bit 1. -/
theorem test_decode_missingChild :
    holds (execDecode (fed [0x40] 2 (rooted 0 (rig (nodes [0x40000061] [])))))
      (fun t => t.errCode == .invalidTree && t.errInfo == 0x03000000 && t.errPos == 1 && t.outLen == 0) = true := by
  decide

/-- V35: the padding of "D" decodes to three more A. -/
theorem test_decodeAll :
    holds (execDecodeAll (fed [0xC0] 2 (rooted 6 (rig (nodes nodesV5 [])))))
      (fun t => outBytes t.params t.mem 4 == [0x44, 0x41, 0x41, 0x41] && t.outLen == 4 && t.decTail == 0) = true := by
  decide

/-- V44: IN_LEN above IN_CAP. -/
theorem test_decodeAll_range :
    holds (execDecodeAll { State.powerOn (caps 4 4) [] with inLen := 5 })
      (fun t => t.errCode == .paramRange && t.errInfo == 1 && t.errPos == 0) = true := by
  decide

set_option maxRecDepth 4000 in
/-- V47: CLR_TREE clears NODE, ROOT, NLEAF and NNODE and keeps the code table. -/
theorem test_clrTree :
    holds (execClrTree { rooted 4 (rig (codes codesV1 (nodes nodesV1 []))) with nleaf := 3, nnode := 5 })
      (fun t => node t.mem 4 == 0 && readReg t .root == 0 && t.nleaf == 0 && t.nnode == 0 && codeLen t.mem 0x41 == 2) =
      true := by
  decide

set_option maxRecDepth 4000 in
/-- V48: CLR_CODES. -/
theorem test_clrCodes :
    holds (execClrCodes { rig (codes codesV1 (nodes nodesV1 [])) with ncodes := 3, maxlen := 2 })
      (fun t => codeLen t.mem 0x42 == 0 && codeVal t.mem 0x42 == 0 && t.ncodes == 0 && t.maxlen == 0 &&
        node t.mem 4 == 0x80030002) = true := by
  decide

/-! ## Host accesses -/

/-- V57, V59: ROOT and CODE_LEN keep only the bits they store. -/
theorem test_write_masks :
    memRead (memWrite 0x00034 0xFFFFFFFF (rig [])) 0x00034 = 0x800001FF ∧
    memRead (memWrite 0x01104 0x12345678 (rig [])) 0x01104 = 0x00000078 := by
  decide

/-- V53: ACK clears DONE and not ERR. -/
theorem test_ack :
    statusWord (memWrite 0x00010 0x0000001A { rig [] with done := true, errCode := .illegalCmd }) = 0x00000004 := by
  decide

/-- V60: a soft reset leaves IRQ_EN 0 although bit 0 is 1. -/
theorem test_softReset :
    memRead (memWrite 0x00008 0x80000001 { rooted 4 (rig (nodes nodesV1 [])) with done := true }) 0x00008 = 0 ∧
    memRead (memWrite 0x00008 0x80000001 { rooted 4 (rig (nodes nodesV1 [])) with done := true }) 0x00034 = 0 ∧
    node (memWrite 0x00008 0x80000001 (rig (nodes nodesV1 []))).mem 4 = 0x80030002 := by
  decide

/-- P6: a second CMD write while BUSY is dropped and sets CMD_OVERRUN. -/
theorem test_overrun :
    (memWrite 0x0000C 0x00000001 (busyWith 0x00000000 1 (rig []))).cmd = 0 ∧
    statusWord (memWrite 0x0000C 0x00000001 (busyWith 0x00000000 1 (rig []))) = 0x00000011 := by
  decide

/-- P4, statement 5: the second word of `WRB 0x10000, "0110100111"`. -/
theorem test_wrb :
    (progWRB (caps 16 16) 0x10000 [0x30, 0x31, 0x31, 0x30, 0x31, 0x30, 0x30, 0x31, 0x31, 0x31]).drop 1 =
      [.access (.write 0x10004 0x31303031), .access (.write 0x10008 0x00003131)] := by
  decide

/-! ## Witnesses: states and operands that meet the hypotheses of the obligations -/

/-- A block BUSY with a DECODE.ALL, three host statements before its completion and one left. -/
def waiting : State := { busyWith 0x00000105 3 (rig []) with host := [.wait] }

/-- An idle block whose host writes `v` at bus address `a` next. -/
def writing (a : Nat) (v : Word) : State := { rig [] with host := [.access (.write a v)] }

/-- StepRunsLatchedCommand: no delay left, no host statement left, and the two forms of the host's turn. -/
theorem witness_stepRuns :
    ((busyWith 0x00000105 0 waiting).seq = .busy ∧ (busyWith 0x00000105 0 waiting).delay = 0 ∧
      decode (busyWith 0x00000105 0 waiting).cmd = .ok .decodeAll) ∧
    ({ waiting with host := [] }.seq = .busy ∧ { waiting with host := [] }.host = []) ∧
    (rig []).seq = .idle ∧ (waiting.delay ≠ 0 ∧ waiting.host ≠ []) ∧
    decode (BitVec.ofNat 32 7) = .ok .clrCodes := by
  decide

/-- IllegalWordCompletes: OP 0x08 and a reserved bit. -/
theorem witness_illegalWord :
    (busyWith 0x00000008 0 (rig [])).seq = .busy ∧ (busyWith 0x00000008 0 (rig [])).delay = 0 ∧
    (busyWith 0x00000008 0 (rig [])).cmd ∉ ([0, 1, 2, 3, 4, 5, 0x105, 6, 7] : List Word) ∧
    (busyWith 0x80000000 4 (rig [])).host = [] ∧
    (busyWith 0x80000000 4 (rig [])).cmd ∉ ([0, 1, 2, 3, 4, 5, 0x105, 6, 7] : List Word) := by
  decide

/-- IdleKeepsState. -/
theorem witness_idle : (rig []).seq = .idle ∧ (rig []).host = [] := by decide

/-- EveryCommandEnds. -/
theorem witness_busy : waiting.seq = .busy ∧ waiting.delay = 3 := by decide

/-- SeqTransitions: into BUSY by acceptance, and out of it by completion and by a soft reset. -/
theorem witness_seqTransitions :
    (writing 0x0000C 5).seq = .idle ∧ holds (step (writing 0x0000C 5)) (fun t => t.seq == .busy) = true ∧
    holds (step { waiting with delay := 0 }) (fun t => t.seq == .idle) = true ∧
    holds (step { waiting with host := (writing 0x00008 0x80000000).host }) (fun t => t.seq == .idle) = true := by
  decide

/-- HostAccessRaisesNoError: an idle and a busy block whose host has the turn. -/
theorem witness_hostTurn : (writing 0x00008 0x80000000).seq = .idle ∧ (waiting.delay ≠ 0 ∧ waiting.host ≠ []) := by decide

/-- CmdWriteIsAcceptance: the first and the last byte of the word. -/
theorem witness_cmdWrite :
    ((0x0000C : Offset).toNat / 4 = 3 ∧ (0x0000F : Offset).toNat / 4 = 3) ∧ waiting.seq = .busy ∧ (rig []).seq = .idle := by
  decide

/-- StatusRegister, WritesWhileBusy, SoftReset: each word at its first and last byte, and words beside them. -/
theorem witness_busyWords :
    ((0x00010 : Offset).toNat / 4 = 4 ∧ (0x00013 : Offset).toNat / 4 = 4) ∧
    ((0x00008 : Offset).toNat / 4 = 2 ∧ (0x0000B : Offset).toNat / 4 = 2) ∧
    ((0x00007 : Offset).toNat / 4 ∉ [2, 3, 4] ∧ (0x00014 : Offset).toNat / 4 ∉ [2, 3, 4] ∧
      (0x3FFFF : Offset).toNat / 4 ∉ [2, 3, 4]) ∧
    (0x7FFFFFFF : Word).getLsbD 31 = false ∧ (0x80000001 : Word).getLsbD 31 = true := by
  decide

/-- StatusRegister, InterruptOutput: steps that complete a command and an illegal word, and raise DONE. -/
theorem witness_completions :
    ((busyWith 0x00000105 0 waiting).seq = .busy ∧ (busyWith 0x00000105 0 waiting).done = false ∧
      holds (step (busyWith 0x00000105 0 waiting)) (fun t => t.done) = true) ∧
    (busyWith 0x80000000 4 (rig [])).seq = .busy ∧ (busyWith 0x80000000 4 (rig [])).host = [] ∧
      holds (step { busyWith 0x80000000 4 (rig []) with irqEn := true }) (fun t => t.done && t.irq) = true := by
  decide

/-- WordsReadTheirState: an idle state, a busy one outside the write set of its command, the registers at their
last byte, and the first and the last word of FREQ, NODE, CODE_LEN, CODE_VAL, IN_BUF and OUT_BUF; for the ends of the
reserved ranges see witness_reserved. -/
theorem witness_readMap :
    (rig []).seq ≠ .busy ∧ waiting.seq = .busy ∧ ¬ tableWriteSet waiting.params waiting.cmd ((0x007FF : Offset).toNat / 4) ∧
    (0x00400 : Offset).toNat / 4 = (0x00400 + 4 * (0 : Byte).toNat) / 4 ∧
    (0x007FF : Offset).toNat / 4 = (0x00400 + 4 * (255 : Byte).toNat) / 4 ∧
    (0x00800 : Offset).toNat / 4 = (0x00800 + 4 * (0 : NodeIdx).toNat) / 4 ∧
    (0x00FFF : Offset).toNat / 4 = (0x00800 + 4 * (511 : NodeIdx).toNat) / 4 ∧
    (0x01000 : Offset).toNat / 4 = (0x01000 + 4 * (0 : Byte).toNat) / 4 ∧
    (0x013FF : Offset).toNat / 4 = (0x01000 + 4 * (255 : Byte).toNat) / 4 ∧
    (0x02000 : Offset).toNat / 4 = (0x02000 + 32 * (0 : Byte).toNat + 4 * 0) / 4 ∧
    (0x03FFF : Offset).toNat / 4 = (0x02000 + 32 * (255 : Byte).toNat + 4 * 7) / 4 ∧
    (0x10000 : Offset).toNat / 4 = (0x10000 + 4 * 0) / 4 ∧ (0x1FFFF : Offset).toNat / 4 = (0x10000 + 4 * 0x3FFF) / 4 ∧
    (0x20000 : Offset).toNat / 4 = (0x20000 + 4 * 0) / 4 ∧ (0x2FFFF : Offset).toNat / 4 = (0x20000 + 4 * 0x3FFF) / 4 ∧
    ((0x00003 : Offset).toNat / 4 = 0x00 / 4 ∧ (0x00007 : Offset).toNat / 4 = 0x04 / 4 ∧
      (0x00011 : Offset).toNat / 4 = 0x10 / 4 ∧ (0x0004B : Offset).toNat / 4 = 0x48 / 4 ∧
      (0x0004F : Offset).toNat / 4 = 0x4C / 4) ∧
    (0x00017 : Offset).toNat / 4 = 0x14 / 4 ∧ { rig [] with errCode := .paramRange }.errCode = .paramRange := by
  unfold tableWriteSet
  decide

/-- WordsReadTheirState: byte 1 of OUT_BUF in lane 1, and word 1 of a code value, as R52 and R50 place them. -/
theorem test_readMap :
    memRead (rig (setOutByte (caps 16 16) [] 1 0xAB)) 0x20000 = 0x0000AB00 ∧
    memRead (rig (setCodeVal [] 2 0x123456789)) 0x02044 = 0x00000001 := by
  decide

/-- ReservedOffsets, WriteChangesOnlyItsWord, WordsReadTheirState: both ends of each range. -/
theorem witness_reserved :
    (0x00050 ≤ (0x00050 : Offset).toNat ∧ (0x003FF : Offset).toNat ≤ 0x003FF) ∧
    (0x01400 ≤ (0x01400 : Offset).toNat ∧ (0x01FFF : Offset).toNat ≤ 0x01FFF) ∧
    (0x04000 ≤ (0x04000 : Offset).toNat ∧ (0x0FFFF : Offset).toNat ≤ 0x0FFFF) ∧
    (0x30000 ≤ (0x30000 : Offset).toNat ∧ (0x3FFFF : Offset).toNat ≤ 0x3FFFF) := by
  decide

/-- WrittenWordReadsBack, WriteChangesOnlyItsWord: both ends of each other range, and each register. -/
theorem witness_ranges :
    (0x00400 ≤ (0x00400 : Offset).toNat ∧ (0x007FF : Offset).toNat < 0x00800) ∧
    (0x00800 ≤ (0x00800 : Offset).toNat ∧ (0x00FFF : Offset).toNat < 0x01000) ∧
    (0x01000 ≤ (0x01000 : Offset).toNat ∧ (0x013FF : Offset).toNat < 0x01400) ∧
    (0x02000 ≤ (0x02000 : Offset).toNat ∧ (0x03FFF : Offset).toNat < 0x04000) ∧
    (0x10000 ≤ (0x10000 : Offset).toNat ∧ (0x1FFFF : Offset).toNat < 0x20000) ∧
    (0x20000 ≤ (0x20000 : Offset).toNat ∧ (0x2FFFF : Offset).toNat < 0x30000) ∧
    (0x00037 : Offset).toNat / 4 = 0x34 / 4 ∧ (0x00020 : Offset).toNat / 4 = 0x20 / 4 ∧
    (0x00024 : Offset).toNat / 4 = 0x24 / 4 ∧ (0x00008 : Offset).toNat / 4 = 0x08 / 4 ∧
    (0x0004F : Offset).toNat / 4 ∈ [0, 1, 5, 6, 7, 10, 11, 12, 14, 15, 16, 17, 18, 19] ∧
    (0x00404 : Offset).toNat / 4 ≠ (0x00400 : Offset).toNat / 4 := by
  decide

/-- ReadsAndRepeatedWritesAreIdempotent: memory in canonical form, a word other than CMD, no soft reset. -/
theorem witness_repeatedWrite :
    Memory.wf (nodes nodesV1 []) = true ∧ (0x00800 : Offset).toNat / 4 ≠ 3 ∧ (1 : Word).getLsbD 31 = false := by
  decide

/-- ReadsWhileBusy: the last word of OUT_BUF and OUT_LEN in the write set of DECODE.ALL; the first and the last word
beyond OUT_CAP, IN_BUF and MAXLEN outside it. -/
theorem witness_writeSet :
    waiting.seq = .busy ∧ (0x00044 : Offset).toNat / 4 ≠ 4 ∧
    (0x20000 + waiting.params.outCap ≤ 4 * ((0x20010 : Offset).toNat / 4) ∧ (0x2FFFF : Offset).toNat < 0x30000) ∧
    tableWriteSet waiting.params waiting.cmd ((0x2000F : Offset).toNat / 4) ∧
    tableWriteSet waiting.params waiting.cmd ((0x00028 : Offset).toNat / 4) ∧
    ¬ tableWriteSet waiting.params waiting.cmd ((0x20010 : Offset).toNat / 4) ∧
    ¬ tableWriteSet waiting.params waiting.cmd ((0x2FFFF : Offset).toNat / 4) ∧
    ¬ tableWriteSet waiting.params waiting.cmd ((0x1FFFF : Offset).toNat / 4) ∧
    ¬ tableWriteSet waiting.params waiting.cmd ((0x00044 : Offset).toNat / 4) := by
  unfold tableWriteSet
  rw [show waiting.params.outCap = 16 from rfl]
  refine ⟨?_, ?_, ?_, ?_, ?_, ?_, ?_, ?_, ?_⟩ <;> decide

/-- R52, R78: while DECODE.ALL runs, the word after the last byte of OUT_BUF reads 0; a word that OUT_CAP = 13 cuts is
unspecified. -/
theorem test_read_beyondOutBuf :
    memRead waiting 0x20010 = 0 ∧ unspecifiedRead waiting 0x2000C = true ∧
    unspecifiedRead { waiting with params := caps 16 13 } 0x2000F = true ∧
    unspecifiedRead { waiting with params := caps 16 12 } 0x2000F = false := by
  decide

/-- ConstantRegisters, StepKeepsInv: a step with a next state, of the host and of the core. -/
theorem witness_step :
    holds (step (writing 0x00400 7)) (fun t => freq t.mem 0 == 7) = true ∧
    holds (step { waiting with delay := 0 }) (fun t => t.done) = true := by
  decide

/-- InterruptOutput. -/
theorem witness_interrupt :
    (rig []).seq = .idle ∧ (0x0000001A : Word).getLsbD 1 = true ∧ (0x80000000 : Word).getLsbD 31 = true := by
  decide

/-- WaitPollsStatus, idle and busy. -/
theorem witness_wait :
    { rig [] with host := [.wait] }.host = .wait :: [] ∧ (rig []).seq = .idle ∧ waiting.host = .wait :: [] ∧
    waiting.seq = .busy ∧ waiting.delay ≠ 0 := by
  decide

/-- BusAddressIsBasePlusOffset: the addresses next to the window. -/
theorem witness_outside :
    0x3FFFF < (⟨1, 15, 15⟩ : Params).base ∧ (⟨1, 15, 15⟩ : Params).base + 0x40000 ≤ 0x80000 := by
  decide

/-- WrbLoadsInBuf: as many bytes as IN_BUF holds. -/
theorem witness_wrb : (rig []).seq = .idle ∧ (List.replicate 16 (0x5A : Byte)).length ≤ (rig []).params.inCap := by decide

/-- PowerOnReset: the first and last register offsets of its range. -/
theorem witness_powerOn :
    0x00008 ≤ (0x00008 : Offset).toNat ∧ (0x00008 : Offset).toNat < 0x00048 ∧ (0x00047 : Offset).toNat < 0x00048 := by
  decide

/-- SoftReset: a byte outside the write set of the abandoned command. -/
theorem witness_softReset :
    waiting.seq = .busy ∧ (rig []).seq = .idle ∧ ¬ tableWriteSet waiting.params waiting.cmd (0x1FFFF / 4) ∧
    ¬ tableWriteSet waiting.params waiting.cmd (0x20010 / 4) := by
  unfold tableWriteSet
  decide

/-- InvAtReset: contents in canonical form, at the first and the last byte that exist. -/
theorem witness_ramContents :
    Memory.wf [(0x400, 1), (0x2000F, 0xFF)] = true ∧ Memory.resides (caps 16 16) [(0x400, 1), (0x2000F, 0xFF)] = true := by
  decide

/-- StepKeepsInv: an idle and a busy state with the invariant. -/
theorem witness_inv : Inv (rig (nodes nodesV1 [])) ∧ Inv waiting :=
  ⟨⟨by decide, by decide, by decide, by decide, by decide, by decide, by decide, by decide⟩,
    ⟨by decide, by decide, by decide, by decide, by decide, by decide, by decide, by decide⟩⟩

/-- ReadsWhileBusy: a busy state with the invariant. -/
theorem witness_busyInv : waiting.seq = .busy ∧ Inv waiting := ⟨rfl, witness_inv.2⟩

/-- CommandFrame, CountsWrittenOnlyBy: a command with a next state that changes the counts. -/
theorem witness_counts :
    holds (execClrTree { rig [] with nleaf := 3, nnode := 5 }) (fun t => t.nleaf != 3) = true ∧
    holds (step { busyWith 0x7 0 (rig []) with ncodes := 3, maxlen := 2 }) (fun t => t.ncodes != 3) = true ∧
    ¬ ramWriteSet (caps 16 16) .clrTree 0x7FF ∧ ¬ ramWriteSet (caps 16 16) .clrTree 0x1000 ∧
    ¬ ramWriteSet (caps 16 16) .decode 0x1FFFF ∧ ¬ ramWriteSet (caps 16 16) .decode 0x20010 := by
  unfold ramWriteSet
  decide

/-- CommandsIgnoreOutBuf: memories that differ in OUT_BUF alone. -/
theorem witness_outBufOnly :
    ∀ a, ¬ (0x20000 ≤ a ∧ a < 0x30000) → readByte [(0x20000, 7)] a = readByte (rig []).mem a := by
  intro a h
  have ha : 0x20000 ≠ a := by omega
  simp [readByte, ha, rig, State.powerOn]

/-- InBufWrittenOnlyByHost: a host write that changes byte 0 of IN_BUF. -/
theorem witness_inBuf :
    holds (step (writing 0x10000 1)) (fun t => readByte t.mem 0x10000 != readByte (writing 0x10000 1).mem 0x10000) = true := by
  decide

/-- NopCompletes. -/
theorem witness_nop :
    (rig []).seq = .idle ∧ (rig []).wrWhileBusy = false ∧ (rig []).cmdOverrun = false := by
  decide

/-- ClrFreqCompletes, ClrTreeCompletes: bytes beside FREQ and NODE, and counts in range for the DECODE, at their bounds. -/
theorem witness_clears :
    ¬ (0x400 ≤ 0x3FF ∧ 0x3FF < 0x800) ∧ ¬ (0x800 ≤ 0x1000 ∧ 0x1000 < 0x1000) ∧
    { rig [] with inLen := 16, decNbits := 128 }.inLen.toNat ≤ (rig []).params.inCap ∧
    { rig [] with inLen := 16, decNbits := 128 }.decNbits.toNat ≤ 8 * { rig [] with inLen := 16, decNbits := 128 }.inLen.toNat := by
  decide

/-- ClrCodesCompletes: the empty input and one that fills IN_BUF. -/
theorem witness_clrCodes :
    (rig []).inLen = 0 ∧ { rig [] with inLen := 16 }.inLen ≠ 0 ∧
    { rig [] with inLen := 16 }.inLen.toNat ≤ (rig []).params.inCap := by
  decide

/-- What is checked of each of the 256 symbols holds of every byte. -/
theorem all_symbols {q : Byte → Bool} (h : symbols.all q = true) (y : Byte) : q y = true := by
  have hy : y ∈ symbols := by
    unfold symbols
    rw [List.mem_map]
    exact ⟨y.toNat, by rw [List.mem_range]; exact y.isLt, by unfold symbol; simp⟩
  exact (List.all_eq_true.mp h) y hy

set_option maxRecDepth 8000 in
/-- BuildTreeEmptyInput. -/
theorem witness_noSymbol (y : Byte) : freq (rig (nodes nodesV1 [])).mem y = 0 :=
  of_decide_eq_true (all_symbols (q := fun y => decide (freq (rig (nodes nodesV1 [])).mem y = 0)) (by decide) y)

/-- BuildTreeCompletes, BuiltArenaIsStrictTree, BuildTreeMergesLeastTwo, MergeWeightIsExact and
GenCodesAfterBuildTreeSucceeds: one present symbol, and three. -/
theorem witness_present :
    symbols.filter (fun y => freq (rig (freqs [(0x61, 4)])).mem y != 0) = [0x61] ∧
    symbols.filter (fun y => freq (rig (freqs [(0x43, 3), (0x41, 1), (0x42, 2)])).mem y != 0) = [0x41, 0x42, 0x43] ∧
    freq (rig (freqs [(0x61, 4)])).mem 0x61 ≠ 0 ∧
    holds (execBuildTree (rig (freqs [(0x61, 4)]))) (fun t => readReg t .root == 0x80000000) = true := by
  decide

/-- BuildTreeMergesLeastTwo: a node that is no child of any node up to the first merged one. -/
theorem witness_mergeLeast :
    holds (execBuildTree (rig (freqs [(0x41, 1), (0x42, 2), (0x43, 3)])))
      (fun t => isInt (node t.mem 3) && nodeLeft (node t.mem 3) != 2 && nodeRight (node t.mem 3) != 2) = true := by
  decide

set_option maxRecDepth 8000 in
/-- BuildTreeIsOptimal: a code in which no word is a prefix of another, for the three symbols of V1. -/
theorem witness_code :
    let code : Byte → List Bool := fun y => if y = 0x41 then [false] else if y = 0x42 then [true, false] else [true, true]
    (symbols.all (fun y => code y != [])) = true ∧
    ∀ y ∈ [(0x41 : Byte), 0x42, 0x43], ∀ z ∈ [(0x41 : Byte), 0x42, 0x43], y ≠ z → ¬ code y <+: code z := by
  decide

/-- GenCodesLoneLeaf. -/
theorem witness_loneLeaf :
    (rooted 0 (rig (nodes [0x40000061] []))).rootValid = true ∧
    isLeaf (node (rooted 0 (rig (nodes [0x40000061] []))).mem 0) = true := by
  decide

/-- The arena of V1 holds its tree at index 4. -/
theorem witness_represents : treeV1.Represents (rig (nodes nodesV1 [])).mem 4 := by
  simp only [treeV1, HuffmanTree.Represents]
  decide

/-- The arena of V5 holds its tree at index 6. -/
theorem witness_represents5 : treeV5.Represents (rig (nodes nodesV5 [])).mem 6 := by
  simp only [treeV5, HuffmanTree.Represents]
  decide

/-- GenCodesGivesPaths: no symbol twice, and a depth within 255. -/
theorem witness_treeShape : treeV1.symbols.Nodup ∧ treeV1.depth ≤ 255 ∧ treeV1.symbols = [0x43, 0x41, 0x42] := by decide

/-- GenCodesFailureClearsTable. -/
theorem witness_noRoot : (rig []).rootValid = false := by decide

/-- GenCodesTraps: V18, V16 and V15. -/
theorem witness_genTraps :
    (isLeaf (node (nodes [0xC0000041] []) 0) = false ∧ isInt (node (nodes [0xC0000041] []) 0) = false) ∧
    (isInt (node (nodes [0x40000041, 0x80000000] []) 1) = true ∧
      nodeLeft (node (nodes [0x40000041, 0x80000000] []) 1) = nodeRight (node (nodes [0x40000041, 0x80000000] []) 1) ∧
      isLeaf (node (nodes [0x40000041, 0x80000000] []) 0) = true) ∧
    (isInt (node (nodes [0x80000000] []) 0) = true ∧ nodeLeft (node (nodes [0x80000000] []) 0) = 0 ∧
      nodeRight (node (nodes [0x80000000] []) 0) = 0) := by
  decide

set_option maxRecDepth 4000 in
/-- GenCodesTraps below the root: V14, whose third visit is node 7, no node, at depth 1; V16, whose third is the leaf of
the second again; V15, whose 257th is at depth 256. -/
theorem witness_genVisits :
    (isLeaf (node (nodes nodesV14 []) 4) = false ∧
      (visits (node (nodes nodesV14 [])) 512 [(4, 0)])[2]? = some (7, 1) ∧
      CleanVisits (node (nodes nodesV14 [])) ((visits (node (nodes nodesV14 [])) 512 [(4, 0)]).take 2) ∧
      isLeaf (node (nodes nodesV14 []) 7) = false ∧ isInt (node (nodes nodesV14 []) 7) = false) ∧
    ((visits (node (nodes [0x40000041, 0x80000000] [])) 512 [(1, 0)])[2]? = some (0, 1) ∧
      CleanVisits (node (nodes [0x40000041, 0x80000000] []))
        ((visits (node (nodes [0x40000041, 0x80000000] [])) 512 [(1, 0)]).take 2) ∧
      nodeSym (node (nodes [0x40000041, 0x80000000] []) 0) ∈ leafSymbols (node (nodes [0x40000041, 0x80000000] []))
        ((visits (node (nodes [0x40000041, 0x80000000] [])) 512 [(1, 0)]).take 2)) ∧
    ((visits (node (nodes [0x80000000] [])) 512 [(0, 0)])[256]? = some (0, 256) ∧
      CleanVisits (node (nodes [0x80000000] [])) ((visits (node (nodes [0x80000000] [])) 512 [(0, 0)]).take 256)) := by
  unfold CleanVisits
  decide

set_option maxRecDepth 20000 in
/-- GenCodesTraps: V17, whose 512th visit is leaf 255 at depth 9. -/
theorem witness_genVisitsLimit :
    ∃ m : Memory, isLeaf (node m 511) = false ∧ (visits (node m) 512 [(511, 0)])[511]? = some (255, 9) ∧
      CleanVisits (node m) ((visits (node m) 512 [(511, 0)]).take 511) := by
  refine ⟨arenaUpTo nodeV17 512, ?_⟩
  rw [show node (arenaUpTo nodeV17 512) = nodeV17 from funext fun i => node_arenaUpTo _ _ _ i.isLt]
  unfold CleanVisits
  decide

/-- GeneratedCodesArePrefixFree: a GEN_CODES that records no error and gives two symbols a code. -/
theorem witness_prefixFree :
    (rooted 4 (rig (nodes nodesV1 []))).errCode = .none ∧
    holds (execGenCodes (rooted 4 (rig (nodes nodesV1 []))))
      (fun t => t.errCode == .none && codeLen t.mem 0x41 != 0 && codeLen t.mem 0x43 != 0) = true := by
  decide

set_option maxRecDepth 4000 in
/-- EncodeCompletes, UnpackOfPackedIsPadded: "ABBCCC" with the codes of V1. -/
theorem witness_encode :
    (fed abbccc 0 (rig (codes codesV1 []))).inLen.toNat ≤ (rig []).params.inCap ∧
    (∀ j, j < (fed abbccc 0 (rig (codes codesV1 []))).inLen.toNat →
      codeLen (fed abbccc 0 (rig (codes codesV1 []))).mem
        (inByte (caps 16 16) (fed abbccc 0 (rig (codes codesV1 []))).mem j) ≠ 0) ∧
    [true, false, true, true, true, true, false, false, false] =
      bitStream (fed abbccc 0 (rig (codes codesV1 []))).mem (inBytes (caps 16 16) (fed abbccc 0 (rig (codes codesV1 []))).mem 6) := by
  decide

set_option maxRecDepth 4000 in
/-- UnpackOfPackedIsPadded: an IN_BUF that holds the two bytes ENCODE left. -/
theorem witness_unpack :
    holds (execEncode (fed abbccc 0 (rig (codes codesV1 []))))
      (fun t => decide (∀ k, k < t.outLen.toNat → inByte t.params (input t.params [0xBC, 0x00] []) k = outByte t.params t.mem k)) =
      true := by
  decide

set_option maxRecDepth 4000 in
/-- EncodeTraps: IN_LEN above IN_CAP (V24), an unknown symbol at byte 2 (V19), and a full OUT_BUF at byte 5 (V21). -/
theorem witness_encodeTraps :
    (caps 4 4).inCap < (5 : BitVec 17).toNat ∧
    codeLen (fed [0x41, 0x42, 0x44] 0 (rig (codes codesV1 []))).mem 0x44 = 0 ∧
    (bitStream (fed [0x41, 0x42, 0x44] 0 (rig (codes codesV1 []))).mem [0x41, 0x42]).length ≤ 8 * (caps 16 16).outCap ∧
    (bitStream (codes codesV1 []) (abbccc.take 5)).length ≤ 8 * (caps 16 1).outCap ∧
    8 * (caps 16 1).outCap < (bitStream (codes codesV1 []) abbccc).length := by
  decide

/-- DecodeCompletes, DecodeOfNoBits: V34 as DECODE and V35 as DECODE.ALL, and N = 0. -/
theorem witness_decode :
    (rooted 6 (fed [0x1B] 7 (rig (nodes nodesV5 [])))).rootValid = true ∧
    (fed [0x1B] 7 (rig (nodes nodesV5 []))).decNbits.toNat ≤ 8 * (fed [0x1B] 7 (rig (nodes nodesV5 []))).inLen.toNat ∧
    treeV5.decode (inBits (caps 16 16) (fed [0x1B] 7 (rig (nodes nodesV5 []))).mem 7) = some ([0x41, 0x42, 0x43], 1) ∧
    treeV5.decode (inBits (caps 16 16) (fed [0xC0] 0 (rig (nodes nodesV5 []))).mem 8) =
      some ([0x44, 0x41, 0x41, 0x41], 0) ∧
    (fed [0xC0] 0 (rig (nodes nodesV5 []))).decNbits = 0 := by
  decide

/-- DecodeCompletes on arenas that hold no tree: V37, whose broken word is not reached, V38, a self-loop, and V39, a
shared leaf. -/
theorem witness_decodeArena :
    arenaDecode (node (nodes nodesV14 [])) 4 4 0 (inBits (caps 16 16) (fed [0x00] 1 (rig (nodes nodesV14 []))).mem 1) =
      some ([0x43], 4, 0) ∧
    arenaDecode (node (nodes [0x80000000] [])) 0 0 0
      (inBits (caps 16 16) (fed [0x00] 8 (rig (nodes [0x80000000] []))).mem 8) = some ([], 0, 8) ∧
    arenaDecode (node (nodes [0x40000041, 0x80000000] [])) 1 1 0
      (inBits (caps 16 16) (fed [0x5A] 8 (rig (nodes [0x40000041, 0x80000000] []))).mem 8) =
      some (List.replicate 8 0x41, 1, 0) := by
  decide

/-- DecodeTraps: V36, where bit 0 meets the missing right child 7 of the root; and a lone leaf with OUT_CAP = 1 and a 1
at bit 1. -/
theorem witness_decodeBadTag :
    arenaDecode (node (nodes nodesV14 [])) 4 4 0 (inBits (caps 16 16) (fed [0x80] 1 (rig (nodes nodesV14 []))).mem 0) =
      some ([], 4, 0) ∧
    isInt (node (nodes nodesV14 []) 4) = true ∧ inBit (caps 16 16) (fed [0x80] 1 (rig (nodes nodesV14 []))).mem 0 = true ∧
    isLeaf (node (nodes nodesV14 []) 7) = false ∧ isInt (node (nodes nodesV14 []) 7) = false ∧
    (1 ≤ (caps 16 1).outCap ∧ (caps 16 1).outCap ≤ 1 ∧
      inBit (caps 16 1) (fed [0x40] 2 (State.powerOn (caps 16 1) (nodes [0x40000061] []))).mem 0 = false ∧
      inBit (caps 16 1) (fed [0x40] 2 (State.powerOn (caps 16 1) (nodes [0x40000061] []))).mem 1 = true) := by
  decide

/-- V36: BAD_TAG at the missing right child, and MISSING_CHILD once OUT_CAP symbols are out. -/
theorem test_decode_badTag :
    holds (execDecode (fed [0x80] 1 (rooted 4 (rig (nodes nodesV14 [])))))
      (fun t => t.errCode == .invalidTree && t.errInfo == 0x02000007 && t.errPos == 0) = true ∧
    holds (execDecode (fed [0x40] 2 (rooted 0 (State.powerOn (caps 16 1) (nodes [0x40000061] [])))))
      (fun t => t.errCode == .invalidTree && t.errInfo == 0x03000000 && t.errPos == 1) = true := by
  decide

/-- DecodeTraps: a lone leaf with a 1 at bit 1 (V28), N one above 8 x IN_LEN (V31), and a word that is no node (V42). -/
theorem witness_decodeTraps :
    (inBit (caps 16 16) (fed [0x40] 2 (rig [])).mem 0 = false ∧ inBit (caps 16 16) (fed [0x40] 2 (rig [])).mem 1 = true) ∧
    8 * (fed [0xBC, 0x00] 17 (rig [])).inLen.toNat < (fed [0xBC, 0x00] 17 (rig [])).decNbits.toNat ∧
    (caps 4 4).inCap < (5 : BitVec 17).toNat ∧
    isLeaf (node (rig []).mem 7) = false ∧ isInt (node (rig []).mem 7) = false ∧ 0 < (1 : Word).toNat := by
  decide

/-- DecodeOverflow: V32, where OUT_CAP = 2 and bit 5 completes the third symbol. -/
theorem witness_decodeOverflow :
    treeV1.decode (inBits (caps 16 2) (fed [0xBC, 0x00] 9 (State.powerOn (caps 16 2) (nodes nodesV1 []))).mem 5) =
      some ([0x41, 0x42], 1) ∧
    treeV1.decode (inBits (caps 16 2) (fed [0xBC, 0x00] 9 (State.powerOn (caps 16 2) (nodes nodesV1 []))).mem 6) =
      some ([0x41, 0x42, 0x42], 0) ∧
    [(0x41 : Byte), 0x42].length = (caps 16 2).outCap := by
  decide

/-- DecodeOverflow on an arena that holds no tree: a shared leaf (V39) with OUT_CAP = 2, where bit 2 completes the third
symbol. -/
theorem witness_decodeOverflowArena :
    arenaDecode (node (nodes [0x40000041, 0x80000000] [])) 1 1 0
      (inBits (caps 16 2) (fed [0x5A] 8 (State.powerOn (caps 16 2) (nodes [0x40000041, 0x80000000] []))).mem 2) =
      some ([0x41, 0x41], 1, 0) ∧
    arenaDecode (node (nodes [0x40000041, 0x80000000] [])) 1 1 0
      (inBits (caps 16 2) (fed [0x5A] 8 (State.powerOn (caps 16 2) (nodes [0x40000041, 0x80000000] []))).mem 3) =
      some ([0x41, 0x41, 0x41], 1, 0) := by
  decide

/-- DecodeAllIsDecodeOfEveryBit, CommandsIgnoreOutBuf: a DECODE.ALL that records no error and emits bytes. -/
theorem witness_decodeAll :
    (fed [0xC0] 2 (rooted 6 (rig (nodes nodesV5 [])))).errCode = .none ∧
    holds (execDecodeAll (fed [0xC0] 2 (rooted 6 (rig (nodes nodesV5 [])))))
      (fun t => t.errCode == .none && t.outLen == 4) = true := by
  decide

/-- The state DECODE starts from in the witnesses of the round trip: V1's tree, and what ENCODE leaves. -/
def refed : State := rooted 4 (fed [0xBC, 0x00] 9 (rig (nodes nodesV1 [])))

set_option maxRecDepth 4000 in
/-- DecodeInvertsEncode: the codes of V1 are those of its tree, and `refed` holds what ENCODE left. -/
theorem witness_inverts :
    abbccc = inBytes (caps 16 16) (fed abbccc 0 (rig (codes codesV1 []))).mem 6 ∧
    (∀ y ∈ abbccc, (y, codeOf (fed abbccc 0 (rig (codes codesV1 []))).mem y) ∈ treeV1.codes) ∧
    holds (execEncode (fed abbccc 0 (rig (codes codesV1 []))))
      (fun t => decide (t.params = refed.params ∧ t.outLen.toNat ≤ refed.params.inCap ∧ refed.inLen = t.outLen ∧
        refed.decNbits = t.outBits ∧ refed.rootValid = true ∧
        ∀ k, k < t.outLen.toNat → inByte refed.params refed.mem k = outByte t.params t.mem k)) = true := by
  decide

/-- "ABBCCC" with its frequencies loaded, before the round trip. -/
def counted : State := fed abbccc 0 (rig (freqs [(0x41, 1), (0x42, 2), (0x43, 3)]))

set_option maxRecDepth 8000 in
/-- RoundTripUnderTableReuse: FREQ holds the frequencies of the input. -/
theorem witness_counted (y : Byte) : freq counted.mem y = hostFreq abbccc y :=
  of_decide_eq_true (all_symbols (q := fun y => decide (freq counted.mem y = hostFreq abbccc y)) (by decide) y)

/-- RoundTripUnderTableReuse: the input is not empty and fits both buffers. -/
theorem witness_roundTrip :
    abbccc = inBytes counted.params counted.mem counted.inLen.toNat ∧ abbccc ≠ [] ∧
    counted.inLen.toNat ≤ counted.params.inCap ∧ counted.inLen.toNat ≤ counted.params.outCap := by
  decide

set_option maxRecDepth 4000 in
/-- RoundTripUnderTableReuse: `refed` has the tree that BUILD_TREE left and the bytes that ENCODE left. -/
theorem witness_roundTrip_refed :
    holds (execBuildTree counted) (fun t => holds (execGenCodes t) (fun u =>
      holds (execEncode u) (fun v =>
        decide (v.outLen.toNat ≤ counted.params.inCap ∧ refed.params = counted.params ∧ refed.rootValid = v.rootValid ∧ refed.rootIdx = v.rootIdx ∧
          refed.inLen = v.outLen ∧ refed.decNbits = v.outBits ∧
          (∀ i ∈ [0, 1, 2, 3, 4, 5, 511], node refed.mem i = node v.mem i) ∧
          ∀ k, k < v.outLen.toNat → inByte refed.params refed.mem k = outByte v.params v.mem k)))) = true := by
  decide

/-- PaddingArtifact: V2, where seven padding zeros follow the nine bits of "ABBCCC" and C has the code "0". -/
theorem witness_padding :
    (∀ z ∈ [(0x41 : Byte), 0x42, 0x43],
      (z, if z = 0x41 then [true, false] else if z = 0x42 then [true, true] else [false]) ∈ treeV1.codes) ∧
    ((0x43 : Byte), List.replicate 1 false) ∈ treeV1.codes ∧
    inBits (caps 16 16) refed.mem 16 =
      abbccc.flatMap (fun z => if z = 0x41 then [true, false] else if z = 0x42 then [true, true] else [false]) ++
        List.replicate 7 false ∧
    abbccc.length + 7 / 1 ≤ (caps 16 16).outCap := by
  decide

end Sys2Proof.Tests
end

section
/-! PROOFS. The window at BASE (00_scope.md R5; 20_memory.md R70, R120). -/

namespace Sys2Proof

open Machine

/-- BASE is stored as a multiple of the window's size (R5). -/
theorem Params.base_aligned (p : Params) : p.base % 0x40000 = 0 :=
  Nat.mul_mod_left p.baseIndex 0x40000

/-- Settles O22: an address of the window is decoded to its offset, and an address outside it to none. -/
theorem busAddressIsBasePlusOffset : Obligations.BusAddressIsBasePlusOffset := by
  unfold Obligations.BusAddressIsBasePlusOffset
  refine ⟨Params.base_aligned, fun s off v => ?inside, fun s a v outside => ?outside⟩
  case inside =>
    have selected : offsetOf? s.params (s.params.base + off.toNat) = some off := offsetOf?_base s.params off
    exact ⟨busAccess_write v selected, busAccess_read selected⟩
  case outside =>
    have unselected : offsetOf? s.params a = none := offsetOf?_none outside
    exact (busAccess_outside unselected v).symm

end Sys2Proof
end

section
/-! PROOFS. Everything a command can answer (10_state.md R34; 60_exceptions.md R244), and what it does to memory, the
error registers and the counts. -/

namespace Sys2Proof.Machine

/-! ## A recorded error has a code other than 0 (R241) -/

theorem packBit_error {p : Params} {b : Bool} {j : Nat} {k : Packer} {e : Raise} (h : packBit p b j k = .error e) :
    e.code = .outOverflow := by
  unfold packBit at h
  dsimp only at h
  split at h
  · injection h with h; subst h; rfl
  · split at h <;> cases h

theorem packCode_error {p : Params} {v : CodeVal} {j n : Nat} {k : Packer} {e : Raise}
    (h : packCode p v j n k = .error e) : e.code = .outOverflow := by
  induction n generalizing k with
  | zero => cases h
  | succ n ih =>
    rw [packCode] at h
    split at h
    · rename_i hb; injection h with h; subst h; exact packBit_error hb
    · exact ih h

theorem encodeBytes_error {p : Params} {m : Memory} {n j : Nat} {k : Packer} {e : Raise}
    (h : encodeBytes p m n j k = .error e) : e.code = .unknownSymbol ∨ e.code = .outOverflow := by
  induction n generalizing j k with
  | zero => cases h
  | succ n ih =>
    simp only [encodeBytes] at h
    split at h
    · injection h with h; subst h; exact Or.inl rfl
    split at h
    · rename_i hc; injection h with h; subst h; exact Or.inr (packCode_error hc)
    · exact ih h

theorem encodeRun_error {p : Params} {m : Memory} {n : Nat} {e : Raise} (h : encodeRun p m n = .error e) :
    e.code ≠ .none := by
  unfold encodeRun at h
  split at h
  · injection h with h; subst h; decide
  split at h
  · rename_i hb
    injection h with h
    subst h
    obtain hc | hc := encodeBytes_error hb <;> rw [hc] <;> decide
  · cases h

theorem emitSymbol_error {p : Params} {r : NodeIdx} {y : Byte} {pos : Nat} {d : Decoder} {e : Raise}
    (h : emitSymbol p r y pos d = .error e) : e.code = .outOverflow := by
  unfold emitSymbol at h
  split at h
  · injection h with h; subst h; rfl
  · cases h

theorem decodeStep_error {p : Params} {m : Memory} {r : NodeIdx} {pos : Nat} {b : Bool} {d : Decoder} {e : Raise}
    (h : decodeStep p m r pos b d = .error e) : e.code = .invalidTree ∨ e.code = .outOverflow := by
  have tree : ∀ {c i}, Except.error (Raise.invalidTree c i pos) = (.error e : Except Raise Decoder) →
      e.code = .invalidTree := by
    intro c i h; injection h with h; subst h; rfl
  unfold decodeStep at h
  extract_lets w c wc at h
  split at h
  · split at h
    · exact Or.inl (tree h)
    · exact Or.inr (emitSymbol_error h)
  split at h
  · split at h
    · exact Or.inr (emitSymbol_error h)
    split at h
    · cases h
    · exact Or.inl (tree h)
  · exact Or.inl (tree h)

theorem decodeBits_error {p : Params} {m : Memory} {r : NodeIdx} {n pos : Nat} {d : Decoder} {e : Raise}
    (h : decodeBits p m r n pos d = .error e) : e.code = .invalidTree ∨ e.code = .outOverflow := by
  induction n generalizing pos d with
  | zero => cases h
  | succ n ih =>
    rw [decodeBits] at h
    split at h
    · rename_i hs; injection h with h; subst h; exact decodeStep_error hs
    · exact ih h

theorem decodeRun_error {s : State} {n : Nat} {e : Raise} (h : decodeRun s n = .error e) : e.code ≠ .none := by
  unfold decodeRun at h
  split at h
  · injection h with h; subst h; decide
  split at h
  · injection h with h; subst h; decide
  split at h
  · injection h with h; subst h; decide
  · obtain hc | hc := decodeBits_error h <;> rw [hc] <;> decide

theorem genTable_error_code {m : Memory} {b : Bool} {r : NodeIdx} {e : Raise} (h : genTable m b r = .error e) :
    e.code = .invalidTree := by
  obtain ⟨-, rfl⟩ | ⟨-, c, i, pos, rfl, -⟩ := genTable_error m b r h <;> rfl

/-! ## The answers of the commands -/

/-- Everything a command can answer: its completion after a success, or after an error with a code other than 0. -/
inductive Answer (s : State) : Instr → State → Prop
  | nop : Answer s .nop (complete s)
  | clrFreq : Answer s .clrFreq (complete { s with mem := clearRam s.params .freq s.mem })
  | buildTree (h : (present s.mem).length ≠ 0) :
      Answer s .buildTree (complete
        { s with
          mem := (built s.params s.mem).mem
          rootValid := true
          rootIdx := BitVec.ofNat 9 (built s.params s.mem).root
          nleaf := BitVec.ofNat 9 (present s.mem).length
          nnode := BitVec.ofNat 10 (2 * (present s.mem).length - 1) })
  | genCodes (u : Table) (h : genTable (clearCodes s).mem s.rootValid s.rootIdx = .ok u) :
      Answer s .genCodes (complete
        { s with mem := u.mem, ncodes := BitVec.ofNat 9 u.count, maxlen := BitVec.ofNat 8 u.maxl })
  | encode (k : Packer) (h : encodeRun s.params s.mem s.inLen.toNat = .ok k) :
      Answer s .encode (complete
        { s with
          mem := k.mem
          outLen := BitVec.ofNat 17 ((k.len + 7) / 8)
          outBits := BitVec.ofNat 32 k.len
          decTail := 0 })
  | decode (i : Instr) (n : Nat) (d : Decoder) (hi : i = .decode ∨ i = .decodeAll) (h : decodeRun s n = .ok d) :
      Answer s i (decodeDone n d s)
  | clrTree :
      Answer s .clrTree (complete
        { s with mem := clearRam s.params .node s.mem, rootValid := false, rootIdx := 0, nleaf := 0, nnode := 0 })
  | clrCodes : Answer s .clrCodes (complete (clearCodes s))
  | error (i : Instr) (e : Raise)
      (hi : i = .buildTree ∨ i = .genCodes ∨ i = .encode ∨ i = .decode ∨ i = .decodeAll) (he : e.code ≠ .none) :
      Answer s i (raise (some i) e s)

/-- A command always answers a next state (R34), one of those. -/
theorem exec_answer (i : Instr) (s : State) : ∃ t, exec i s = .next t ∧ Answer s i t := by
  cases i
  case nop => exact ⟨_, rfl, .nop⟩
  case clrFreq => exact ⟨_, rfl, .clrFreq⟩
  case clrTree => exact ⟨_, rfl, .clrTree⟩
  case clrCodes => exact ⟨_, rfl, .clrCodes⟩
  case buildTree =>
    by_cases hn : (present s.mem).length = 0
    · exact ⟨_, if_pos hn, .error _ .emptyInput (by simp) (by decide)⟩
    · exact ⟨_, if_neg hn, .buildTree hn⟩
  case genCodes =>
    simp only [exec, execGenCodes]
    cases hg : genTable (clearCodes s).mem s.rootValid s.rootIdx with
    | ok u => exact ⟨_, rfl, .genCodes u hg⟩
    | error e => exact ⟨_, rfl, .error _ e (by simp) (by rw [genTable_error_code hg]; decide)⟩
  case encode =>
    simp only [exec, execEncode]
    cases hg : encodeRun s.params s.mem s.inLen.toNat with
    | ok k => exact ⟨_, rfl, .encode k hg⟩
    | error e => exact ⟨_, rfl, .error _ e (by simp) (encodeRun_error hg)⟩
  case decode =>
    simp only [exec, execDecode]
    cases hg : decodeRun s s.decNbits.toNat with
    | ok d => exact ⟨_, rfl, .decode _ _ d (.inl rfl) hg⟩
    | error e => exact ⟨_, rfl, .error _ e (by simp) (decodeRun_error hg)⟩
  case decodeAll =>
    simp only [exec, execDecodeAll]
    cases hg : decodeRun s (allBits s) with
    | ok d => exact ⟨_, rfl, .decode _ _ d (.inr rfl) hg⟩
    | error e => exact ⟨_, rfl, .error _ e (by simp) (decodeRun_error hg)⟩

theorem answer_of_exec {i : Instr} {s t : State} (h : exec i s = .next t) : Answer s i t := by
  obtain ⟨t', h', ha⟩ := exec_answer i s
  rw [h] at h'
  injection h' with h'
  exact h' ▸ ha

/-- Every answer is a completion (R34). -/
theorem Answer.completed {i : Instr} {s t : State} (h : Answer s i t) : t.seq = .idle ∧ t.done = true := by
  cases h <;> exact ⟨rfl, rfl⟩

theorem Answer.params {i : Instr} {s t : State} (h : Answer s i t) : t.params = s.params := by
  cases h with
  | error => exact raise_params _ _ _
  | _ => rfl

/-! ## Memory -/

/-- Writing and clearing the RAM's bytes keeps `q`. -/
structure Ram.Keeps (p : Params) (r : Ram) (q : Memory → Prop) : Prop where
  write : ∀ m a v, r.owns p a = true → q m → q (writeByte m a v)
  clear : ∀ m, q m → q (clearRam p r m)

theorem Ram.keeps_wf (p : Params) (r : Ram) : r.Keeps p (fun m => Memory.wf m = true) where
  write := fun _ _ _ _ h => Memory.wf_writeByte h _ _
  clear := fun _ h => Memory.wf_clearRam h _ _

theorem Ram.keeps_resides (p : Params) (r : Ram) : r.Keeps p (fun m => Memory.resides p m = true) where
  write := fun _ _ _ ha h => Memory.resides_writeByte h _ r ha
  clear := fun _ h => Memory.resides_clearRam h _

/-- A byte of another RAM, or of none, keeps its value. -/
theorem Ram.keeps_byte {p : Params} {r : Ram} {a : Nat} (ha : r.owns p a = false) (v : Byte) :
    r.Keeps p (fun m => readByte m a = v) where
  write := fun m b w hb h => by
    rw [readByte_writeByte_other m w (fun e => by rw [e, ha] at hb; cases hb), h]
  clear := fun m h => by rw [readByte_clearRam, ha, ← h]; rfl

section
variable {p : Params} {q : Memory → Prop}

theorem Ram.Keeps.writeLE {r : Ram} (hq : r.Keeps p q) {m : Memory} {a n : Nat} (v : Nat)
    (ha : ∀ b, a ≤ b → b < a + n → r.owns p b = true) (hm : q m) : q (writeLE m a n v) := by
  induction n generalizing a v with
  | zero => exact hm
  | succ n ih =>
    exact hq.write _ _ _ (ha a (by omega) (by omega)) (ih _ fun b h1 h2 => ha b (by omega) (by omega))

theorem Ram.Keeps.setNode (hq : Ram.node.Keeps p q) (m : Memory) (i : NodeIdx) (w : Word) (hm : q m) :
    q (setNode m i w) :=
  hq.writeLE _ (fun b h1 h2 => by have := i.isLt; unfold nodeAddr at h1 h2; simp [Ram.owns]; omega) hm

theorem Ram.Keeps.setCodeLen (hq : Ram.codeLen.Keeps p q) (m : Memory) (y v : Byte) (hm : q m) :
    q (setCodeLen m y v) :=
  hq.write _ _ _ (by have := y.isLt; unfold codeLenAddr; simp [Ram.owns]; omega) hm

theorem Ram.Keeps.setCodeVal (hq : Ram.codeVal.Keeps p q) (m : Memory) (y : Byte) (v : CodeVal) (hm : q m) :
    q (setCodeVal m y v) :=
  hq.writeLE _ (fun b h1 h2 => by have := y.isLt; unfold codeValAddr at h1 h2; simp [Ram.owns]; omega) hm

theorem Ram.Keeps.setOutByte (hq : Ram.outBuf.Keeps p q) (m : Memory) (j : Nat) (v : Byte) (hm : q m) :
    q (setOutByte p m j v) := by
  unfold Machine.setOutByte
  split
  · exact hq.write _ _ _ (by unfold outBufAddr; simp [Ram.owns]; omega) hm
  · exact hm

theorem Ram.Keeps.scrambleRam {r : Ram} (hq : r.Keeps p q) (n : Nat) {m : Memory} (hm : q m) :
    q (scrambleRam p n r m) := by
  unfold Machine.scrambleRam
  have owned : ∀ a ∈ r.addrs p, r.owns p a = true := fun a => (Ram.mem_addrs p r a).mp
  generalize r.addrs p = l at owned
  induction l with
  | nil => exact hm
  | cons b l ih =>
    exact hq.write _ _ _ (owned b (List.mem_cons_self ..)) (ih fun a ha => owned a (List.mem_cons_of_mem _ ha))

end

/-- What each RAM of a command's write set keeps of memory, the command keeps (R78, R107). -/
theorem Answer.mem {q : Memory → Prop} {i : Instr} {s t : State} (h : Answer s i t)
    (hq : ∀ r ∈ writeRams (some i), r.Keeps s.params q) (hs : q s.mem) : q t.mem := by
  have cleared : (Ram.codeLen.Keeps s.params q) → (Ram.codeVal.Keeps s.params q) → q (clearCodes s).mem :=
    fun hl hv => hv.clear _ (hl.clear _ hs)
  cases h with
  | nop => exact hs
  | clrFreq => exact (hq .freq (by decide)).clear _ hs
  | buildTree _ =>
    have hn := hq .node (by decide)
    rw [complete_mem]
    exact built_mem hn.setNode _ _ (hn.clear _ hs)
  | genCodes u hu =>
    have hl := hq .codeLen (by decide)
    have hv := hq .codeVal (by decide)
    exact genTable_mem hl.setCodeLen hv.setCodeVal _ _ _ hu (cleared hl hv)
  | encode k hk => exact encodeRun_mem (hq .outBuf (by decide)).setOutByte hk hs
  | decode _ n d hi hd =>
    have ho : Ram.outBuf.Keeps s.params q := hq .outBuf (by obtain rfl | rfl := hi <;> decide)
    exact decodeRun_mem ho.setOutByte hd hs
  | clrTree => exact (hq .node (by decide)).clear _ hs
  | clrCodes => exact cleared (hq .codeLen (by decide)) (hq .codeVal (by decide))
  | error _ e hi _ =>
    obtain rfl | rfl | hi := hi
    · rw [raise_buildTree]
      exact hs
    · rw [raise_genCodes]
      exact cleared (hq .codeLen (by decide)) (hq .codeVal (by decide))
    · rw [raise_output i e s hi]
      have ho : Ram.outBuf.Keeps s.params q := hq .outBuf (by obtain rfl | rfl | rfl := hi <;> decide)
      exact ho.scrambleRam _ hs

/-! ## The error registers -/

/-- A command leaves the error registers alone or records an error (R107). -/
theorem Answer.errors {i : Instr} {s t : State} (h : Answer s i t) :
    (t.errCode = s.errCode ∧ t.errInfo = s.errInfo ∧ t.errPos = s.errPos) ∨ t.errCode ≠ .none := by
  cases h with
  | error _ e _ he => exact Or.inr (by rwa [raise_errCode])
  | _ => exact Or.inl ⟨rfl, rfl, rfl⟩

/-! ## The counts -/

/-- A successful traversal of a cleared table finds 1 to 256 codes of 1 to 255 bits (R43, R44). -/
theorem genTable_counts {m : Memory} {b : Bool} {r : NodeIdx} {u : Table} (h : genTable m b r = .ok u)
    (hm : ∀ y, codeLen m y = 0) : 1 ≤ u.count ∧ u.count ≤ 256 ∧ 1 ≤ u.maxl ∧ u.maxl ≤ 255 := by
  simp only [genTable] at h
  split at h
  · cases h
  split at h
  · injection h with h
    subst h
    simp
  · rename_i hr
    obtain ⟨hw, -, -, hmax, hmin⟩ := genWalk_inv h (WalkInv.start hm (by simpa using hr))
    obtain ⟨hc, hl⟩ := hmin (by simp)
    have := codedCount_le u.mem
    have := hw.count
    exact ⟨by omega, by omega, hl, hmax (by simp)⟩

/-- NLEAF and NNODE are written by BUILD_TREE and CLR_TREE alone, with values in their ranges (R41, R42). -/
theorem Answer.treeCounts {i : Instr} {s t : State} (h : Answer s i t) :
    (t.nleaf = s.nleaf ∧ t.nnode = s.nnode) ∨
    ((i = .buildTree ∨ i = .clrTree) ∧ ((t.nleaf = 0 ∧ t.nnode = 0) ∨
      (1 ≤ t.nleaf.toNat ∧ t.nleaf.toNat ≤ 256 ∧ t.nnode.toNat = 2 * t.nleaf.toNat - 1))) := by
  cases h with
  | buildTree hn =>
    have hl := present_length_le s.mem
    rw [complete_nleaf, complete_nnode, BitVec.toNat_ofNat, BitVec.toNat_ofNat]
    exact Or.inr ⟨Or.inl rfl, Or.inr ⟨by omega, by omega, by omega⟩⟩
  | clrTree => exact Or.inr ⟨Or.inr rfl, Or.inl ⟨rfl, rfl⟩⟩
  | error => exact Or.inl ⟨raise_nleaf _ _ _, raise_nnode _ _ _⟩
  | _ => exact Or.inl ⟨rfl, rfl⟩

/-- NCODES and MAXLEN are written by GEN_CODES and CLR_CODES alone, with values in their ranges (R43, R44). -/
theorem Answer.codeCounts {i : Instr} {s t : State} (h : Answer s i t) :
    (t.ncodes = s.ncodes ∧ t.maxlen = s.maxlen) ∨
    ((i = .genCodes ∨ i = .clrCodes) ∧ ((t.ncodes = 0 ∧ t.maxlen = 0) ∨
      (1 ≤ t.ncodes.toNat ∧ t.ncodes.toNat ≤ 256 ∧ 1 ≤ t.maxlen.toNat))) := by
  cases h with
  | genCodes u hu =>
    obtain ⟨h1, h2, h3, h4⟩ := genTable_counts hu (codeLen_clearCodes s)
    rw [complete_ncodes, complete_maxlen, BitVec.toNat_ofNat, BitVec.toNat_ofNat]
    exact Or.inr ⟨Or.inl rfl, Or.inr ⟨by omega, by omega, by omega⟩⟩
  | clrCodes => exact Or.inr ⟨Or.inr rfl, Or.inl ⟨rfl, rfl⟩⟩
  | error _ e hi _ =>
    obtain rfl | rfl | hi := hi
    · exact Or.inl ⟨rfl, rfl⟩
    · exact Or.inr ⟨Or.inl rfl, Or.inl ⟨rfl, rfl⟩⟩
    · rw [raise_output i e s hi]
      exact Or.inl ⟨rfl, rfl⟩
  | _ => exact Or.inl ⟨rfl, rfl⟩

/-- The output counts are kept, or they stay within OUT_CAP bytes and 8 x 65536 bits (R10, R37). -/
theorem Answer.outputCounts {i : Instr} {s t : State} (h : Answer s i t) :
    (t.outLen = s.outLen ∧ t.outBits = s.outBits ∧ t.decTail = s.decTail) ∨
    (t.outLen.toNat ≤ s.params.outCap ∧ t.outBits.toNat + t.decTail.toNat ≤ 8 * 65536) := by
  have outCap := s.params.outCap_le
  have inCap := s.params.inCap_le
  cases h with
  | encode k hk =>
    have := encodeRun_len hk
    simp only [complete_outLen, complete_outBits, complete_decTail, BitVec.toNat_ofNat]
    have tail : BitVec.toNat (0 : Word) = 0 := rfl
    exact Or.inr ⟨by omega, by omega⟩
  | decode _ n d _ hd =>
    obtain ⟨hlen, htail, hn, hin⟩ := decodeRun_counts hd
    simp only [decodeDone, complete_outLen, complete_outBits, complete_decTail, BitVec.toNat_ofNat]
    exact Or.inr ⟨by omega, by omega⟩
  | error _ e hi _ =>
    obtain rfl | rfl | hi := hi
    · exact Or.inl ⟨rfl, rfl, rfl⟩
    · exact Or.inl ⟨rfl, rfl, rfl⟩
    · rw [raise_output i e s hi]
      exact Or.inr ⟨Nat.zero_le _, Nat.zero_le _⟩
  | _ => exact Or.inl ⟨rfl, rfl, rfl⟩

end Sys2Proof.Machine
end

section
/-! PROOFS. The invariant is kept by every step (10_state.md R33, R34, R37, R41 to R44, R49, R51, R52). -/

namespace Sys2Proof.Machine

theorem Answer.keeps_inv {i : Instr} {s t : State} (h : Answer s i t) (hs : Inv s) : Inv t where
  memWf := h.mem (fun r _ => r.keeps_wf s.params) hs.memWf
  memResides := by
    rw [h.params]
    exact h.mem (fun r _ => r.keeps_resides s.params) hs.memResides
  busyClean := fun hb => by
    rw [h.completed.1] at hb
    cases hb
  noError := fun hn => by
    obtain ⟨hcode, hinfo, hpos⟩ | herr := h.errors
    · rw [hinfo, hpos]
      exact hs.noError (hcode ▸ hn)
    · exact absurd hn herr
  treeCounts := by
    obtain ⟨hleaf, hnode⟩ | ⟨-, hc⟩ := h.treeCounts
    · rw [hleaf, hnode]
      exact hs.treeCounts
    · exact hc
  codeCounts := by
    obtain ⟨hcodes, hmax⟩ | ⟨-, hc⟩ := h.codeCounts
    · rw [hcodes, hmax]
      exact hs.codeCounts
    · exact hc
  outLenCap := by
    rw [h.params]
    obtain ⟨hlen, -, -⟩ | ⟨hlen, -⟩ := h.outputCounts
    · rw [hlen]
      exact hs.outLenCap
    · exact hlen
  bitCounts := by
    obtain ⟨-, hbits, htail⟩ | ⟨-, hbits⟩ := h.outputCounts
    · rw [hbits, htail]
      exact hs.bitCounts
    · exact hbits

theorem Inv.illegal {s : State} (hs : Inv s) : Inv (raise none (.illegalCmd s.cmd) s) := by
  rw [raise_illegal]
  exact { hs with busyClean := nofun, noError := nofun }

/-- The host, its log, the time to completion and the draws are no part of the invariant. -/
theorem Inv.bookkeeping {s : State} (hs : Inv s) (l : List HostStmt) (lg : List Word) (d : Nat) (sch : List Nat)
    (n : Nat) : Inv { s with host := l, hostLog := lg, delay := d, schedule := sch, draws := n } :=
  { hs with }

theorem Inv.powerOn {p : Params} {ram : Memory} (hw : Memory.wf ram = true) (hr : Memory.resides p ram = true) :
    Inv (State.powerOn p ram) where
  memWf := hw
  memResides := hr
  busyClean := nofun
  noError := fun _ => ⟨rfl, rfl⟩
  treeCounts := Or.inl ⟨rfl, rfl⟩
  codeCounts := Or.inl ⟨rfl, rfl⟩
  outLenCap := Nat.zero_le _
  bitCounts := Nat.zero_le _

theorem Inv.accept {s : State} (hs : Inv s) (v : Word) : Inv (accept v s) := by
  cases hq : s.seq with
  | idle =>
    rw [accept_idle v s hq]
    exact { hs with busyClean := fun _ => ⟨rfl, rfl⟩, noError := fun _ => ⟨rfl, rfl⟩ }
  | busy =>
    rw [accept_busy v s hq]
    exact { hs with }

theorem Inv.softReset {s : State} (hs : Inv s) : Inv (softReset s) := by
  obtain ⟨mem, n, e, -, -, hw, hr⟩ := softReset_shape s
  rw [e]
  exact (Inv.powerOn (hw hs.memWf) (hr hs.memResides)).bookkeeping s.host s.hostLog 0 s.schedule n

theorem Inv.writeStatus {s : State} (hs : Inv s) (v : Word) : Inv (writeStatus v s) :=
  { hs with
    busyClean := fun hb => by
      obtain ⟨hd, he⟩ := hs.busyClean hb
      exact ⟨by rw [writeStatus_done, hd, Bool.false_and], he⟩ }

theorem Inv.memWrite {s : State} (hs : Inv s) (off : Offset) (v : Word) : Inv (memWrite off v s) := by
  obtain ⟨b, e⟩ | ⟨-, e⟩ | ⟨-, -, e⟩ | ⟨-, -, e⟩ | e | ⟨-, a, b, c, d, m, e, -, hw, hr⟩ := memWrite_shape off v s <;> rw [e]
  · exact { hs with }
  · exact hs.accept v
  · exact hs.softReset
  · exact { hs with }
  · exact hs.writeStatus v
  · exact { hs with memWf := hw hs.memWf, memResides := hr hs.memResides }

theorem Inv.hostTurn {s : State} (hs : Inv s) : Inv (hostTurn s) := by
  obtain ⟨l, d, n, lg, e⟩ | ⟨a, v, rest, off, -, -, e⟩ := hostTurn_cases s <;> rw [e]
  · exact hs.bookkeeping l lg d s.schedule n
  · exact (hs.bookkeeping rest s.hostLog (s.delay - 1) s.schedule s.draws).memWrite off v

theorem Inv.step {s t : State} (hs : Inv s) (h : step s = .next t) : Inv t := by
  obtain ⟨-, i, -, hx⟩ | ⟨-, e, -, rfl⟩ | ⟨-, rfl⟩ := step_cases h
  · exact (answer_of_exec hx).keeps_inv hs
  · exact hs.illegal
  · exact hs.hostTurn

end Sys2Proof.Machine

namespace Sys2Proof

open Machine

/-- Settles O27: a command, an illegal word and a host statement each keep the invariant. -/
theorem stepKeepsInv : Obligations.StepKeepsInv := by
  unfold Obligations.StepKeepsInv
  exact fun s t hs h => hs.step h

end Sys2Proof
end

section
/-! PROOFS. When the core runs and when the host does, and that every command ends (10_state.md R32, R34; 20_memory.md
R81). -/

namespace Sys2Proof.Machine

/-! ## One step -/

theorem coreTurn_eq_false {s : State} (h : s.seq = .idle ∨ (s.delay ≠ 0 ∧ s.host ≠ [])) : s.coreTurn = false := by
  rw [← Bool.not_eq_true, coreTurn_iff]
  rintro ⟨hb, hd⟩
  obtain hi | ⟨h1, h2⟩ := h
  · rw [hi] at hb
    cases hb
  · exact hd.elim h1 h2

theorem step_command {s : State} {i : Instr} (hc : s.coreTurn = true) (hd : decode s.cmd = .ok i) :
    step s = exec i s := by
  rw [step, if_pos hc, fetchWord, hd]

theorem step_illegal {s : State} {e : DecodeError} (hc : s.coreTurn = true) (hd : decode s.cmd = .error e) :
    step s = .next (raise none (.illegalCmd s.cmd) s) := by
  rw [step, if_pos hc, fetchWord, hd]
  rfl

theorem step_host {s : State} (hc : s.coreTurn = false) : step s = .next (hostTurn s) := by
  rw [step, hc]
  rfl

theorem step_total (s : State) : ∃ t, step s = .next t := by
  cases hc : s.coreTurn with
  | false => exact ⟨_, step_host hc⟩
  | true =>
    cases hd : decode s.cmd with
    | ok i =>
      obtain ⟨t, h, -⟩ := exec_answer i s
      exact ⟨t, (step_command hc hd).trans h⟩
    | error e => exact ⟨_, step_illegal hc hd⟩

/-- The core's step, of a command or of an illegal word, is a completion (R34). -/
theorem step_completes {s t : State} (hc : s.coreTurn = true) (h : step s = .next t) : t.seq = .idle ∧ t.done = true := by
  obtain ⟨-, i, -, hx⟩ | ⟨-, e, -, rfl⟩ | ⟨hf, -⟩ := step_cases h
  · exact (answer_of_exec hx).completed
  · exact ⟨rfl, rfl⟩
  · rw [hc] at hf
    cases hf

/-! ## Every command ends -/

/-- A host statement while BUSY ends the command, or takes one off the time to its completion. -/
theorem hostTurn_busy {s : State} (hb : s.seq = .busy) (hh : s.host ≠ []) :
    (hostTurn s).seq = .idle ∨ ((hostTurn s).seq = .busy ∧ (hostTurn s).delay = s.delay - 1) := by
  cases e : s.host with
  | nil => exact absurd e hh
  | cons st rest =>
    cases st with
    | wait =>
      obtain ⟨l, hw⟩ := hostTurn_wait e
      rw [hw]
      exact Or.inr ⟨hb, rfl⟩
    | access a =>
      rw [hostTurn_access e]
      cases a with
      | read addr =>
        cases ho : offsetOf? (s.tick rest).params addr with
        | none => rw [(busAccess_outside ho 0).1]; exact Or.inr ⟨hb, rfl⟩
        | some off => rw [busAccess_read ho]; exact Or.inr ⟨hb, rfl⟩
      | write addr v =>
        cases ho : offsetOf? (s.tick rest).params addr with
        | none => rw [(busAccess_outside ho v).2]; exact Or.inr ⟨hb, rfl⟩
        | some off =>
          rw [busAccess_write v ho]
          obtain hi | ⟨h1, h2, -⟩ := memWrite_busy_cases off v (s.tick rest) hb
          · exact Or.inl hi
          · exact Or.inr ⟨h1, h2⟩

theorem run_one {s t : State} (h : step s = .next t) : Host.Core.run Sys2Proof.core 1 s = .next t := run_succ h 0

theorem command_ends (n : Nat) (s : State) (hn : s.delay = n) (hb : s.seq = .busy) :
    ∃ k t, k ≤ n + 1 ∧ Host.Core.run Sys2Proof.core k s = .next t ∧ t.seq = .idle := by
  induction n generalizing s with
  | zero =>
    obtain ⟨t, h⟩ := step_total s
    exact ⟨1, t, Nat.le_refl _, run_one h, (step_completes ((coreTurn_iff s).mpr ⟨hb, Or.inl hn⟩) h).1⟩
  | succ n ih =>
    by_cases hh : s.host = []
    · obtain ⟨t, h⟩ := step_total s
      exact ⟨1, t, by omega, run_one h, (step_completes ((coreTurn_iff s).mpr ⟨hb, Or.inr hh⟩) h).1⟩
    · have h : step s = .next (hostTurn s) := step_host (coreTurn_eq_false (Or.inr ⟨by omega, hh⟩))
      obtain hi | ⟨hb', hd⟩ := hostTurn_busy hb hh
      · exact ⟨1, _, by omega, run_one h, hi⟩
      · obtain ⟨k, t, hk, hr, ht⟩ := ih (hostTurn s) (by omega) hb'
        exact ⟨k + 1, t, by omega, (run_succ h k).trans hr, ht⟩

/-! ## SEQ -/

/-- STATUS lies in no write set, so it reads its bits at every moment (R27, R78). -/
theorem memRead_status (s : State) : memRead s 0x00010 = statusWord s := memRead_reg .status rfl (by decide) s

/-- Only acceptance makes an idle block BUSY (R32, R33). -/
theorem memWrite_makesBusy {off : Offset} {v : Word} {s : State} (hs : s.seq = .idle)
    (hb : (memWrite off v s).seq = .busy) : off.toNat / 4 = 3 ∧ (memWrite off v s).cmd = v := by
  by_cases hc : off.toNat / 4 = 3
  · exact ⟨hc, by rw [memWrite_cmd hc, accept_idle v s hs]⟩
  · have hi : (memWrite off v s).seq = .idle := by
      rw [memWrite_idle hs]
      exact writeTarget_seq v s _ hs fun e => hc (target_eq_reg e)
    rw [hi] at hb
    cases hb

/-- Of all writes only a soft reset makes a busy block IDLE (R32, R271). -/
theorem memWrite_makesIdle {off : Offset} {v : Word} {s : State} (hs : s.seq = .busy)
    (hi : (memWrite off v s).seq = .idle) : off.toNat / 4 = 2 ∧ v.getLsbD 31 = true := by
  have left : ∀ {u : State}, memWrite off v s = u → u.seq ≠ .busy := fun e => by
    rw [← e, hi]
    decide
  obtain ⟨b, e⟩ | ⟨-, e⟩ | ⟨ho, hv, -⟩ | ⟨-, -, e⟩ | e | ⟨h, -⟩ := memWrite_shape off v s
  · exact (left e hs).elim
  · exact (left (e.trans (accept_busy v s hs)) hs).elim
  · exact ⟨ho, hv⟩
  · exact (left e hs).elim
  · exact (left e hs).elim
  · rw [hs] at h
    cases h

end Sys2Proof.Machine

namespace Sys2Proof

open Machine

/-- Settles O5: the core's turn is decided by SEQ, the delay and the host's list, and `withFetchWord` makes it the
core's. -/
theorem stepRunsLatchedCommand : Obligations.StepRunsLatchedCommand := by
  unfold Obligations.StepRunsLatchedCommand
  refine ⟨fun s i hb hd hi => ?core, fun s h => ?host, fun s w i hi => ?fetched⟩
  case core => exact step_command ((coreTurn_iff s).mpr ⟨hb, hd⟩) hi
  case host => exact step_host (coreTurn_eq_false h)
  case fetched =>
    have turn : (s.withFetchWord 32 w).coreTurn = true := (coreTurn_iff _).mpr ⟨rfl, Or.inl rfl⟩
    have latched : (s.withFetchWord 32 w).cmd = BitVec.ofNat 32 w := by
      apply BitVec.eq_of_toNat_eq
      simp [State.withFetchWord]
    exact step_command turn (latched ▸ hi)

/-- Settles O8, by induction on the delay: each host statement takes one off it, and at 0 the core completes. -/
theorem everyCommandEnds : Obligations.EveryCommandEnds := by
  unfold Obligations.EveryCommandEnds
  exact ⟨step_total, fun s hb => command_ends s.delay s rfl hb⟩

/-- Settles O9: of all that a step can do, acceptance alone makes SEQ BUSY, and completion and soft reset make it
IDLE. -/
theorem seqTransitions : Obligations.SeqTransitions := by
  unfold Obligations.SeqTransitions
  refine ⟨fun s t h hs ht => ?accepts, fun s t h hs ht => ?ends, fun _ _ => rfl, fun s => ?status⟩
  case accepts =>
    rw [step_host (coreTurn_eq_false (Or.inl hs))] at h
    injection h with h
    subst h
    obtain ⟨l, d, n, lg, e⟩ | ⟨a, v, rest, off, hh, ho, e⟩ := hostTurn_cases s <;> rw [e] at ht ⊢
    · rw [hs] at ht
      cases ht
    · obtain ⟨h3, hc⟩ := memWrite_makesBusy (s := s.tick rest) hs ht
      exact ⟨a, v, rest, off, hh, ho, h3, hc⟩
  case ends =>
    cases hc : s.coreTurn with
    | true => exact Or.inl ((coreTurn_iff s).mp hc).2
    | false =>
      rw [step_host hc] at h
      injection h with h
      subst h
      obtain ⟨l, d, n, lg, e⟩ | ⟨a, v, rest, off, hh, ho, e⟩ := hostTurn_cases s <;> rw [e] at ht
      · rw [hs] at ht
        cases ht
      · obtain ⟨h2, hv⟩ := memWrite_makesIdle (s := s.tick rest) hs ht
        exact Or.inr ⟨a, v, rest, off, hh, ho, h2, hv⟩
  case status =>
    rw [memRead_status, (statusWord_bits s).1, busy_eq]

end Sys2Proof
end

section
/-! PROOFS. CMD and STATUS (10_state.md R27, R33), and the constant registers (R23, R24, R45, R46). -/

namespace Sys2Proof.Machine

theorem err_iff (s : State) : s.err = true ↔ s.errCode ≠ .none := by
  unfold State.err
  rw [bne_iff_ne]

/-- With every flag clear, STATUS is 0. -/
theorem statusWord_zero {s : State} (hq : s.seq = .idle) (hd : s.done = false) (he : s.errCode = .none)
    (hw : s.wrWhileBusy = false) (ho : s.cmdOverrun = false) : statusWord s = 0 := by
  unfold statusWord State.err State.busy
  rw [hq, hd, he, hw, ho]
  decide

theorem memWrite_softReset {off : Offset} {v : Word} (h : off.toNat / 4 = 2) (hv : v.getLsbD 31 = true) (s : State) :
    memWrite off v s = softReset s := by
  rw [memWrite_ctrl h, writeCtrl, if_pos hv]

/-- A write while BUSY to any word but CTRL, CMD and STATUS is dropped (R76). -/
theorem memWrite_dropped {s : State} (hb : s.seq = .busy) {off : Offset} (h : off.toNat / 4 ∉ [2, 3, 4]) (v : Word) :
    memWrite off v s = { s with wrWhileBusy := true } := by
  refine memWrite_busy hb (Bool.eq_false_iff.mpr fun hw => h ?_) v
  obtain e | e | e := (busyWritable_iff _).mp hw <;> rw [target_eq_reg e] <;> decide

/-! ### `accept` (R33): what it keeps -/

@[simp] theorem accept_params (v : Word) (s : State) : (accept v s).params = s.params := by unfold accept; split <;> rfl
@[simp] theorem accept_nleaf (v : Word) (s : State) : (accept v s).nleaf = s.nleaf := by unfold accept; split <;> rfl
@[simp] theorem accept_nnode (v : Word) (s : State) : (accept v s).nnode = s.nnode := by unfold accept; split <;> rfl
@[simp] theorem accept_ncodes (v : Word) (s : State) : (accept v s).ncodes = s.ncodes := by unfold accept; split <;> rfl
@[simp] theorem accept_maxlen (v : Word) (s : State) : (accept v s).maxlen = s.maxlen := by unfold accept; split <;> rfl
@[simp] theorem accept_mem (v : Word) (s : State) : (accept v s).mem = s.mem := by unfold accept; split <;> rfl

/-! ### The parameters -/

theorem memWrite_params (off : Offset) (v : Word) (s : State) : (memWrite off v s).params = s.params := by
  obtain ⟨b, e⟩ | ⟨-, e⟩ | ⟨-, -, e⟩ | ⟨-, -, e⟩ | e | ⟨-, a, b, c, d, m, e, -⟩ := memWrite_shape off v s <;> rw [e]
  · exact accept_params v s
  · obtain ⟨mem, n, e, -⟩ := softReset_shape s
    rw [e]
    rfl
  · rfl

theorem hostTurn_params (s : State) : (hostTurn s).params = s.params := by
  obtain ⟨l, d, n, lg, e⟩ | ⟨a, v, rest, off, -, -, e⟩ := hostTurn_cases s <;> rw [e]
  exact memWrite_params off v (s.tick rest)

theorem step_params {s t : State} (h : step s = .next t) : t.params = s.params := by
  obtain ⟨-, i, -, hx⟩ | ⟨-, e, -, rfl⟩ | ⟨-, rfl⟩ := step_cases h
  · exact (answer_of_exec hx).params
  · exact raise_params _ _ _
  · exact hostTurn_params s

end Sys2Proof.Machine

namespace Sys2Proof

open Machine

/-- Settles O11: each offset of the CMD word is decoded to CMD, and a write to CMD is acceptance. -/
theorem cmdWriteIsAcceptance : Obligations.CmdWriteIsAcceptance := by
  unfold Obligations.CmdWriteIsAcceptance
  intro s v off h
  rw [memWrite_cmd h]
  exact ⟨accept_busy v s, fun hs => ⟨_, _, accept_idle v s hs⟩⟩

/-- Settles O12: what STATUS reads, what a write to it clears, and which events set and clear its bits. -/
theorem statusRegister : Obligations.StatusRegister := by
  unfold Obligations.StatusRegister
  refine ⟨fun s => ?reads, fun s v off h => ?clears, fun i s => ?completes, fun s v hs => ?accepts,
    fun s v off hb => ⟨?overrun, fun h => ?dropped⟩, fun s t hb hd h => ?ends, fun s v hv => ?softReset, fun p ram => ?powerOn⟩
  case reads =>
    obtain ⟨b0, b1, b2, b3, b4, lt⟩ := statusWord_bits s
    rw [memRead_status, b0, b2, busy_eq, err_iff]
    exact ⟨Iff.rfl, b1, Iff.rfl, b3, b4, lt⟩
  case clears => exact memWrite_status h v s
  case completes =>
    obtain ⟨t, h, ha⟩ := exec_answer i s
    exact ⟨t, h, ha.completed.2, ha.completed.1⟩
  case accepts => rw [memWrite_cmd (by decide), accept_idle v s hs]
  case overrun => rw [memWrite_cmd (by decide), accept_busy v s hb]
  case dropped => rw [memWrite_dropped hb h]
  case ends => exact (step_completes ((coreTurn_iff s).mpr ⟨hb, hd⟩) h).symm
  case softReset =>
    obtain ⟨mem, n, e, -⟩ := softReset_shape s
    rw [memRead_status, memWrite_softReset (by decide) hv, e]
    exact statusWord_zero rfl rfl rfl rfl rfl
  case powerOn =>
    rw [memRead_status]
    exact statusWord_zero rfl rfl rfl rfl rfl

/-- Settles O19: the four registers lie in no write set, and no step changes the parameters they are read from. -/
theorem constantRegisters : Obligations.ConstantRegisters := by
  unfold Obligations.ConstantRegisters
  refine ⟨fun s => ?_, fun s t h => step_params h⟩
  have inCap := s.params.inCap_le
  have outCap := s.params.outCap_le
  rw [memRead_reg .id rfl (by decide), memRead_reg .version rfl (by decide), memRead_reg .inCap rfl (by decide),
    memRead_reg .outCap rfl (by decide)]
  refine ⟨rfl, rfl, ?inCapReads, ?outCapReads, s.params.inCap_pos, inCap, s.params.outCap_pos, outCap⟩
  case inCapReads => rw [readReg, BitVec.toNat_ofNat]; omega
  case outCapReads => rw [readReg, BitVec.toNat_ofNat]; omega

end Sys2Proof
end

section
/-! PROOFS. Who writes the counts (10_state.md R41 to R44) and IN_BUF (R51). -/

namespace Sys2Proof.Machine

/-! ## The command word behind a command -/

/-- The fields of a word that decodes to a command are that command's (R109, R110). -/
theorem ofWord_of_decode {c : Word} {i : Instr} (h : decode c = .ok i) : CmdFields.ofWord c = i.fields := by
  unfold decode at h
  generalize CmdFields.ofWord c = f at h ⊢
  obtain ⟨rsvd, frsv, all, op⟩ := f
  simp only [bne_iff_ne, beq_iff_eq, Bool.and_eq_true, Bool.or_eq_true] at h
  by_cases hrsvd : rsvd = 0
  case neg => rw [if_pos hrsvd] at h; cases h
  rw [if_neg (not_not.mpr hrsvd)] at h
  subst hrsvd
  by_cases hdec : op = 5 ∧ frsv = 0
  case pos =>
    obtain ⟨rfl, rfl⟩ := hdec
    rw [if_pos ⟨rfl, rfl⟩] at h
    cases h
    cases all <;> rfl
  rw [if_neg hdec] at h
  by_cases hflags : frsv ≠ 0 ∨ all = true
  case pos => rw [if_pos hflags] at h; cases h
  rw [if_neg hflags] at h
  obtain ⟨hfrsv, hall⟩ := not_or.mp hflags
  obtain rfl : frsv = 0 := not_not.mp hfrsv
  obtain rfl : all = false := Bool.eq_false_iff.mpr hall
  by_cases known : op ∈ ([0, 1, 2, 3, 4, 6, 7] : List (BitVec 8))
  case pos =>
    simp only [List.mem_cons, List.not_mem_nil, or_false] at known
    obtain rfl | rfl | rfl | rfl | rfl | rfl | rfl := known <;> cases h <;> rfl
  case neg =>
    simp only [List.mem_cons, List.not_mem_nil, or_false, not_or] at known
    obtain ⟨h0, h1, h2, h3, h4, h6, h7⟩ := known
    rw [if_neg h0, if_neg h1, if_neg h2, if_neg h3, if_neg h4, if_neg h6, if_neg h7] at h
    cases h

theorem encode_of_decode {c : Word} {i : Instr} (h : decode c = .ok i) : encode i = c := by
  rw [encode, ← ofWord_of_decode h, CmdFields.toWord_ofWord]

/-! ## The host -/

/-- The host's next statement is a soft reset (R271). -/
def softResetNext (s : State) : Prop :=
  ∃ a v rest off, s.host = .access (.write a v) :: rest ∧ offsetOf? s.params a = some off ∧ off.toNat / 4 = 2 ∧
    v.getLsbD 31 = true

/-- No write but a soft reset changes the counts. -/
theorem memWrite_counts (off : Offset) (v : Word) (s : State) :
    ((memWrite off v s).nleaf = s.nleaf ∧ (memWrite off v s).nnode = s.nnode ∧ (memWrite off v s).ncodes = s.ncodes ∧
      (memWrite off v s).maxlen = s.maxlen) ∨ (off.toNat / 4 = 2 ∧ v.getLsbD 31 = true) := by
  obtain ⟨b, e⟩ | ⟨-, e⟩ | ⟨h, hv, -⟩ | ⟨-, -, e⟩ | e | ⟨-, a, b, c, d, m, e, -⟩ := memWrite_shape off v s
  · rw [e]; exact Or.inl ⟨rfl, rfl, rfl, rfl⟩
  · rw [e]; exact Or.inl ⟨accept_nleaf v s, accept_nnode v s, accept_ncodes v s, accept_maxlen v s⟩
  · exact Or.inr ⟨h, hv⟩
  · rw [e]; exact Or.inl ⟨rfl, rfl, rfl, rfl⟩
  · rw [e]; exact Or.inl ⟨rfl, rfl, rfl, rfl⟩
  · rw [e]; exact Or.inl ⟨rfl, rfl, rfl, rfl⟩

/-- No host statement but a soft reset changes the counts. -/
theorem hostTurn_counts (s : State) :
    ((hostTurn s).nleaf = s.nleaf ∧ (hostTurn s).nnode = s.nnode ∧ (hostTurn s).ncodes = s.ncodes ∧
      (hostTurn s).maxlen = s.maxlen) ∨ softResetNext s := by
  obtain ⟨l, d, n, lg, e⟩ | ⟨a, v, rest, off, hh, ho, e⟩ := hostTurn_cases s <;> rw [e]
  · exact Or.inl ⟨rfl, rfl, rfl, rfl⟩
  · exact (memWrite_counts off v (s.tick rest)).imp id fun hr => ⟨a, v, rest, off, hh, ho, hr⟩

/-- IN_BUF is in no command's write set (R78). -/
theorem writeRams_inBuf {c : Option Instr} {p : Params} {r : Ram} (hr : r ∈ writeRams c) {a : Nat} (h1 : 0x10000 ≤ a)
    (h2 : a < 0x20000) : r.owns p a = false := by
  have hne : r ≠ .inBuf := by
    rintro rfl
    cases c with
    | none => cases hr
    | some i => cases i <;> simp [writeRams] at hr
  cases r <;> simp [Ram.owns] at hne ⊢ <;> omega

/-- A write changes a byte of IN_BUF only while IDLE, in the word it addresses (R51, R72). -/
theorem memWrite_inBuf (off : Offset) (v : Word) (s : State) {a : Nat} (h1 : 0x10000 ≤ a) (h2 : a < 0x20000) :
    readByte (memWrite off v s).mem a = readByte s.mem a ∨ (s.seq = .idle ∧ off.toNat / 4 = a / 4) := by
  obtain ⟨b, e⟩ | ⟨-, e⟩ | ⟨-, -, e⟩ | ⟨-, -, e⟩ | e | ⟨hs, x, b, c, d, m, e, hm, -⟩ := memWrite_shape off v s <;> rw [e]
  · exact Or.inl rfl
  · exact Or.inl (congrArg (readByte · a) (accept_mem v s))
  · obtain ⟨mem, n, e, -, hm, -⟩ := softReset_shape s
    rw [e]
    exact Or.inl (hm a fun r hr => writeRams_inBuf hr h1 h2)
  · exact Or.inl rfl
  · exact Or.inl rfl
  · by_cases ha : off.toNat / 4 = a / 4
    · exact Or.inr ⟨hs, ha⟩
    · exact Or.inl (hm a (Ne.symm ha))

end Sys2Proof.Machine

namespace Sys2Proof

open Machine

/-- Settles O30: of all that a step can do, only the two commands' completions and a soft reset write each pair of
counts. -/
theorem countsWrittenOnlyBy : Obligations.CountsWrittenOnlyBy := by
  unfold Obligations.CountsWrittenOnlyBy
  intro s t h
  obtain ⟨hc, i, hd, hx⟩ | ⟨-, e, -, rfl⟩ | ⟨-, rfl⟩ := step_cases h
  · obtain ⟨hb, ht⟩ := (coreTurn_iff s).mp hc
    have ha := answer_of_exec hx
    rw [← encode_of_decode hd]
    refine ⟨fun hne => Or.inl ⟨hb, ht, ?tree⟩, fun hne => Or.inl ⟨hb, ht, ?codes⟩⟩
    case tree =>
      obtain ⟨h1, h2⟩ | ⟨rfl | rfl, -⟩ := ha.treeCounts
      · exact absurd hne (by simp [h1, h2])
      · decide
      · decide
    case codes =>
      obtain ⟨h1, h2⟩ | ⟨rfl | rfl, -⟩ := ha.codeCounts
      · exact absurd hne (by simp [h1, h2])
      · decide
      · decide
  · rw [raise_illegal]
    exact ⟨fun hne => absurd hne (by simp), fun hne => absurd hne (by simp)⟩
  · obtain ⟨h1, h2, h3, h4⟩ | hr := hostTurn_counts s
    · exact ⟨fun hne => absurd hne (by simp [h1, h2]), fun hne => absurd hne (by simp [h3, h4])⟩
    · exact ⟨fun _ => Or.inr hr, fun _ => Or.inr hr⟩

/-- Settles O31: no command's write set and no soft reset reaches IN_BUF, and a host write reaches its own word. -/
theorem inBufWrittenOnlyByHost : Obligations.InBufWrittenOnlyByHost := by
  unfold Obligations.InBufWrittenOnlyByHost
  intro s t a h h1 h2 hne
  obtain ⟨-, i, -, hx⟩ | ⟨-, e, -, rfl⟩ | ⟨-, rfl⟩ := step_cases h
  · exact absurd ((answer_of_exec hx).mem (fun r hr => Ram.keeps_byte (writeRams_inBuf hr h1 h2) _) rfl) hne
  · exact absurd rfl hne
  · obtain ⟨l, d, n, lg, e⟩ | ⟨addr, v, rest, off, hh, ho, e⟩ := hostTurn_cases s <;> rw [e] at hne
    · exact absurd rfl hne
    · obtain hm | ⟨hs, hw⟩ := memWrite_inBuf off v (s.tick rest) h1 h2
      · exact absurd hm hne
      · exact ⟨addr, v, rest, off, hh, ho, hw, hs⟩

end Sys2Proof
end

section
/-! PROOFS. The operations of the host's window: which word a range of offsets is (10_state.md R21), the write set of
the latched command by word (20_memory.md R78), and a read after a write (R71, R72). -/

namespace Sys2Proof.Machine

/-! ## The address map by range (R21) -/

theorem target_regRange {off : Offset} (h : off.toNat / 4 < 20) : ∃ r : Reg, off.toNat / 4 = r.index ∧ target off = .reg r := by
  obtain ⟨r, hr, -⟩ | ⟨h20, -⟩ := regTarget_cases (off.toNat / 4)
  · exact ⟨r, hr, target_reg r hr⟩
  · omega

theorem target_freqRange {off : Offset} (h1 : 0x400 ≤ off.toNat) (h2 : off.toNat < 0x800) : ∃ y, target off = .freq y :=
  ⟨_, target_freq (BitVec.ofNat 8 (off.toNat / 4 - 0x100)) (by rw [BitVec.toNat_ofNat]; omega)⟩

theorem target_nodeRange {off : Offset} (h1 : 0x800 ≤ off.toNat) (h2 : off.toNat < 0x1000) : ∃ i, target off = .node i :=
  ⟨_, target_node (BitVec.ofNat 9 (off.toNat / 4 - 0x200)) (by rw [BitVec.toNat_ofNat]; omega)⟩

theorem target_codeLenRange {off : Offset} (h1 : 0x1000 ≤ off.toNat) (h2 : off.toNat < 0x1400) :
    ∃ y, target off = .codeLen y :=
  ⟨_, target_codeLen (BitVec.ofNat 8 (off.toNat / 4 - 0x400)) (by rw [BitVec.toNat_ofNat]; omega)⟩

theorem target_codeValRange {off : Offset} (h1 : 0x2000 ≤ off.toNat) (h2 : off.toNat < 0x4000) :
    ∃ y k, k < 8 ∧ target off = .codeVal y k := by
  have hk : (off.toNat / 4 - 0x800) % 8 < 8 := Nat.mod_lt _ (by decide)
  exact ⟨_, _, hk, target_codeVal (BitVec.ofNat 8 ((off.toNat / 4 - 0x800) / 8)) _ hk (by rw [BitVec.toNat_ofNat]; omega)⟩

theorem target_inBufRange {off : Offset} (h1 : 0x10000 ≤ off.toNat) (h2 : off.toNat < 0x20000) :
    target off = .inBuf (off.toNat / 4 - 0x4000) :=
  target_inBuf _ (by omega) (by omega)

theorem target_outBufRange {off : Offset} (h1 : 0x20000 ≤ off.toNat) (h2 : off.toNat < 0x30000) :
    target off = .outBuf (off.toNat / 4 - 0x8000) :=
  target_outBuf _ (by omega) (by omega)

/-- The reserved offsets (R79). -/
theorem target_reserved {off : Offset}
    (h : (0x00050 ≤ off.toNat ∧ off.toNat ≤ 0x003FF) ∨ (0x01400 ≤ off.toNat ∧ off.toNat ≤ 0x01FFF) ∨
      (0x04000 ≤ off.toNat ∧ off.toNat ≤ 0x0FFFF) ∨ (0x30000 ≤ off.toNat ∧ off.toNat ≤ 0x3FFFF)) :
    target off = .reserved := by
  obtain ⟨r, h', -⟩ | ⟨y, h', -⟩ | ⟨i, h', -⟩ | ⟨y, h', -⟩ | ⟨y, k, hk, h', -⟩ | ⟨k, hk, h', -⟩ | ⟨k, hk, h', -⟩ | ⟨-, e⟩ :=
    target_cases off
  · have := r.index_lt; omega
  · have := y.isLt; omega
  · have := i.isLt; omega
  · have := y.isLt; omega
  · have := y.isLt; omega
  · omega
  · omega
  · exact e

/-! ## The write set of the latched command, word by word (R78) -/

theorem decode_encode (i : Instr) : decode (encode i) = .ok i := by cases i <;> rfl

/-- The latched command is the one whose word CMD holds (R110). -/
theorem latched_eq_some (s : State) (i : Instr) : latched s = some i ↔ s.cmd = encode i := by
  unfold latched
  constructor
  · intro h
    split at h
    · rename_i j hd
      cases h
      exact (encode_of_decode hd).symm
    · cases h
  · intro h
    rw [h, decode_encode]

/-- No byte of the window is in two RAMs (R21). -/
theorem Ram.owns_inj {p : Params} {r r' : Ram} {a : Nat} (h : r.owns p a = true) (h' : r'.owns p a = true) : r = r' := by
  have := p.inCap_le
  by_contra hne
  cases r <;> cases r' <;> simp [Ram.owns] at hne h h' <;> omega

/-- The write set of a command as a set of words: the words of its registers and of its RAMs. -/
theorem inWriteSet_target (p : Params) (c : Option Instr) (off : Offset) :
    inWriteSet p c (target off) = true ↔
      (∃ r ∈ writeRegs c, off.toNat / 4 = r.index) ∨ ∃ r ∈ writeRams c, r.owns p (4 * (off.toNat / 4)) = true := by
  have ram : ∀ r : Ram, r.owns p (4 * (off.toNat / 4)) = true →
      ((writeRams c).contains r = true ↔ ∃ r' ∈ writeRams c, r'.owns p (4 * (off.toNat / 4)) = true) := fun r hr => by
    rw [List.contains_iff_mem]
    exact ⟨fun hm => ⟨r, hm, hr⟩, fun ⟨r', hm, hr'⟩ => Ram.owns_inj hr' hr ▸ hm⟩
  have noReg : 20 ≤ off.toNat / 4 → ¬ ∃ r ∈ writeRegs c, off.toNat / 4 = r.index := fun h ⟨r, _, hr⟩ => by
    have := r.index_lt
    omega
  have noRam : (∀ r : Ram, r.owns p (4 * (off.toNat / 4)) = false) →
      ¬ ∃ r ∈ writeRams c, r.owns p (4 * (off.toNat / 4)) = true := fun h ⟨r, _, hr⟩ => by
    rw [h r] at hr
    cases hr
  obtain ⟨r, h, e⟩ | ⟨y, h, e⟩ | ⟨i, h, e⟩ | ⟨y, h, e⟩ | ⟨y, k, hk, h, e⟩ | ⟨k, hk, h, e⟩ | ⟨k, hk, h, e⟩ | ⟨h, e⟩ :=
    target_cases off <;> rw [e, inWriteSet]
  · have := r.index_lt
    rw [or_iff_left (noRam fun r' => by cases r' <;> simp [Ram.owns] <;> omega), List.contains_iff_mem]
    exact ⟨fun hm => ⟨r, hm, h⟩, fun ⟨r', hm, hr'⟩ => Reg.index_inj (hr'.symm.trans h) ▸ hm⟩
  · have := y.isLt
    rw [or_iff_right (noReg (by omega))]
    exact ram .freq (by simp [Ram.owns]; omega)
  · have := i.isLt
    rw [or_iff_right (noReg (by omega))]
    exact ram .node (by simp [Ram.owns]; omega)
  · have := y.isLt
    rw [or_iff_right (noReg (by omega))]
    exact ram .codeLen (by simp [Ram.owns]; omega)
  · have := y.isLt
    rw [or_iff_right (noReg (by omega))]
    exact ram .codeVal (by simp [Ram.owns]; omega)
  · have unwritten : ∀ r ∈ writeRams c, r.owns p (4 * (off.toNat / 4)) = false :=
      fun r hr => writeRams_inBuf hr (by omega) (by omega)
    have absent : Ram.inBuf ∉ writeRams c := fun hm => by
      have unowned := writeRams_inBuf (p := p) hm (a := 0x10000) (by omega) (by omega)
      have := p.inCap_pos
      simp [Ram.owns] at unowned
      omega
    rw [or_iff_right (noReg (by omega)), List.contains_iff_mem]
    exact ⟨fun hm => absurd hm absent, fun ⟨r, hm, hr⟩ => absurd hr (by simp [unwritten r hm])⟩
  · rw [or_iff_right (noReg (by omega))]
    by_cases hc : 4 * k < p.outCap
    · rw [decide_eq_true hc, Bool.and_true]
      exact ram .outBuf (by simp [Ram.owns]; omega)
    · rw [decide_eq_false hc, Bool.and_false]
      have := p.inCap_le
      exact iff_of_false Bool.false_ne_true (noRam fun r => by cases r <;> simp [Ram.owns] <;> omega)
  · have := p.inCap_le
    have := p.outCap_le
    exact iff_of_false Bool.false_ne_true
      (not_or.mpr ⟨noReg (by omega), noRam fun r => by cases r <;> simp [Ram.owns] <;> omega⟩)

/-- The table of R78, for the word of a command, lists the words of the command's registers and RAMs. -/
theorem tableWriteSet_encode (p : Params) (i : Instr) (n : Nat) :
    tableWriteSet p (encode i) n ↔
      (∃ r ∈ writeRegs (some i), n = r.index) ∨ ∃ r ∈ writeRams (some i), r.owns p (4 * n) = true := by
  cases i <;> simp [tableWriteSet, encode, Instr.fields, CmdFields.toWord, writeRegs, writeRams, Reg.index, Ram.owns]
  all_goals omega

/-- A word with a write set is the word of a command. -/
theorem encode_of_tableWriteSet {p : Params} {c : Word} {n : Nat} (h : tableWriteSet p c n) : ∃ i, encode i = c := by
  obtain ⟨rfl, -⟩ | ⟨rfl | rfl, -⟩ | ⟨rfl | rfl, -⟩ | ⟨rfl | rfl | rfl, -⟩ := h
  exacts [⟨.clrFreq, rfl⟩, ⟨.buildTree, rfl⟩, ⟨.clrTree, rfl⟩, ⟨.genCodes, rfl⟩, ⟨.clrCodes, rfl⟩, ⟨.encode, rfl⟩,
    ⟨.decode, rfl⟩, ⟨.decodeAll, rfl⟩]

/-- The write set of the word in CMD is the table's (R78). -/
theorem inWriteSet_latched (s : State) (off : Offset) :
    inWriteSet s.params (latched s) (target off) = true ↔ tableWriteSet s.params s.cmd (off.toNat / 4) := by
  cases hl : latched s with
  | some i => rw [(latched_eq_some s i).mp hl, tableWriteSet_encode, inWriteSet_target]
  | none =>
    rw [inWriteSet_target]
    refine iff_of_false (by simp [writeRegs, writeRams]) fun h => ?_
    obtain ⟨i, hi⟩ := encode_of_tableWriteSet h
    rw [(latched_eq_some s i).mpr hi.symm] at hl
    cases hl

theorem unspecifiedRead_iff (s : State) (off : Offset) :
    unspecifiedRead s off = true ↔ s.seq = .busy ∧ tableWriteSet s.params s.cmd (off.toNat / 4) := by
  rw [unspecifiedRead, Bool.and_eq_true, busy_eq, inWriteSet_latched]

/-- A read while IDLE, and one outside the write set while BUSY, returns the stored value (R71, R78). -/
theorem memRead_specified {s : State} {off : Offset} (h : s.seq = .busy → ¬ tableWriteSet s.params s.cmd (off.toNat / 4)) :
    memRead s off = readTarget s (target off) := by
  rw [memRead, if_neg (by rw [unspecifiedRead_iff]; exact fun ⟨hb, hw⟩ => h hb hw)]

/-- A read in the write set while BUSY draws a free value (R78, U2). -/
theorem memRead_unspecified {s : State} {off : Offset} (hb : s.seq = .busy)
    (hw : tableWriteSet s.params s.cmd (off.toNat / 4)) :
    memRead s off = Config.freeWord s.draws ∧ (hostRead off s).draws = s.draws + 1 := by
  have hu : unspecifiedRead s off = true := (unspecifiedRead_iff s off).mpr ⟨hb, hw⟩
  rw [memRead, if_pos hu, hostRead_draws, if_pos hu]
  exact ⟨rfl, rfl⟩

/-- A reserved word reads 0 at every moment (R79). -/
theorem memRead_reserved {off : Offset} (h : target off = .reserved) (s : State) : memRead s off = 0 := by
  rw [memRead_stored (by rw [h]; rfl), h, readTarget]

end Sys2Proof.Machine
end

section
/-! PROOFS. The host's reads and writes, word by word (20_memory.md R71, R72, R76 to R79). -/

namespace Sys2Proof.Machine

/-! ## One write -/

theorem writeCtrl_irqEn {v : Word} (hv : v.getLsbD 31 = false) (s : State) :
    writeCtrl v s = { s with irqEn := v.getLsbD 0 } := by
  rw [writeCtrl, hv]
  rfl

/-- While IDLE a read after a write returns what the write left in the word read (R71, R72). -/
theorem memRead_memWrite {s : State} (hs : s.seq = .idle) {off : Offset} (hc : off.toNat / 4 ≠ 3) (v : Word) (off' : Offset) :
    memRead (memWrite off v s) off' = readTarget (writeTarget v s (target off)) (target off') := by
  rw [memWrite_idle hs, memRead_idle (writeTarget_seq v s _ hs fun e => hc (target_eq_reg e))]

/-- A write to a RAM word changes memory alone. -/
theorem writeTarget_mem_only (v : Word) (s : State) {x : Target} (hx : ∀ r, x ≠ .reg r) :
    writeTarget v s x = { s with mem := (writeTarget v s x).mem } := by
  cases x with
  | reg r => exact absurd rfl (hx r)
  | _ => rfl

/-- A write while IDLE changes no byte outside the word it goes to. -/
theorem memWrite_byte_outside {s : State} (hs : s.seq = .idle) {off : Offset} (v : Word) {a : Nat}
    (ha : a / 4 ≠ off.toNat / 4) : readByte (memWrite off v s).mem a = readByte s.mem a := by
  obtain ⟨b, e⟩ | ⟨-, e⟩ | ⟨-, -, e⟩ | ⟨-, -, e⟩ | e | ⟨-, x, b, c, d, m, e, hm, -⟩ := memWrite_shape off v s <;> rw [e]
  · rw [accept_mem]
  · rw [softReset_idle s hs, resetRegisters_mem]
  · rw [writeStatus_mem]
  · exact hm a ha

/-- A write to a register, neither acceptance nor a soft reset, leaves every other register, the parameters and memory
alone. -/
theorem writeTarget_reg_frame {r : Reg} {v : Word} (hc : r ≠ .cmd) (hv : r = .ctrl → v.getLsbD 31 = false) (s : State) :
    (writeTarget v s (.reg r)).params = s.params ∧ (writeTarget v s (.reg r)).mem = s.mem ∧
      ∀ r', r' ≠ r → readReg (writeTarget v s (.reg r)) r' = readReg s r' := by
  cases r
  case cmd => exact absurd rfl hc
  case ctrl =>
    rw [writeTarget, writeCtrl_irqEn (hv rfl)]
    exact ⟨rfl, rfl, fun r' h => by cases r' with | ctrl => exact absurd rfl h | _ => rfl⟩
  case status => exact ⟨rfl, rfl, fun r' h => by cases r' with | status => exact absurd rfl h | _ => rfl⟩
  case inLen => exact ⟨rfl, rfl, fun r' h => by cases r' with | inLen => exact absurd rfl h | _ => rfl⟩
  case decNbits => exact ⟨rfl, rfl, fun r' h => by cases r' with | decNbits => exact absurd rfl h | _ => rfl⟩
  case root => exact ⟨rfl, rfl, fun r' h => by cases r' with | root => exact absurd rfl h | _ => rfl⟩
  all_goals exact ⟨rfl, rfl, fun _ _ => rfl⟩

/-- A RAM word is read from the parameters and memory alone. -/
theorem readTarget_ram {s t : State} (hp : t.params = s.params) (hm : t.mem = s.mem) {x : Target} (hx : ∀ r, x ≠ .reg r) :
    readTarget t x = readTarget s x := by
  cases x with
  | reg r => exact absurd rfl (hx r)
  | _ => simp only [readTarget, hp, hm]

/-- A write while IDLE, neither acceptance nor a soft reset, changes no other word (R72). -/
theorem readTarget_writeTarget_other {s : State} (hs : s.seq = .idle) {off off' : Offset} {v : Word}
    (hc : off.toNat / 4 ≠ 3) (hv : off.toNat / 4 = 2 → v.getLsbD 31 = false) (hne : off'.toNat / 4 ≠ off.toNat / 4) :
    readTarget (writeTarget v s (target off)) (target off') = readTarget s (target off') := by
  by_cases hx : ∃ r, target off = .reg r
  · obtain ⟨r, hr⟩ := hx
    have hoff : off.toNat / 4 = r.index := target_eq_reg hr
    obtain ⟨hp, hm, hregs⟩ := writeTarget_reg_frame (r := r) (v := v) (fun e => hc (by rw [hoff, e]; rfl))
      (fun e => hv (by rw [hoff, e]; rfl)) s
    rw [hr]
    by_cases hx' : ∃ r', target off' = .reg r'
    · obtain ⟨r', hr'⟩ := hx'
      rw [hr']
      exact hregs r' fun e => hne (by rw [target_eq_reg hr', hoff, e])
    · exact readTarget_ram hp hm (not_exists.mp hx')
  · refine readTarget_congr (writeTarget_mem_only v s (not_exists.mp hx)) fun a ha => ?_
    rw [← memWrite_idle hs]
    exact memWrite_byte_outside hs v (by omega)

/-- The words no write changes while IDLE: read-only registers, the OUT_BUF window and the reserved offsets (R72). -/
theorem writeTarget_readOnly {off : Offset} (v : Word) (s : State)
    (h : off.toNat / 4 ∈ [0, 1, 5, 6, 7, 10, 11, 12, 14, 15, 16, 17, 18, 19] ∨
      (0x20000 ≤ off.toNat ∧ off.toNat < 0x30000) ∨
      (0x00050 ≤ off.toNat ∧ off.toNat < 0x00400) ∨ (0x01400 ≤ off.toNat ∧ off.toNat < 0x02000) ∨
      (0x04000 ≤ off.toNat ∧ off.toNat < 0x10000) ∨ 0x30000 ≤ off.toNat) :
    writeTarget v s (target off) = s := by
  obtain h | ⟨h1, h2⟩ | h := h
  · have below : ∀ n ∈ [0, 1, 5, 6, 7, 10, 11, 12, 14, 15, 16, 17, 18, 19], n < 20 := by decide
    obtain ⟨r, hr, e⟩ := target_regRange (below _ h)
    rw [hr] at h
    rw [e]
    cases r with
    | ctrl | cmd | status | inLen | decNbits | root => exact absurd h (by decide)
    | _ => rfl
  · rw [target_outBufRange h1 h2]; rfl
  · have := off.isLt
    rw [target_reserved (by omega)]; rfl

/-! ## A repeated write (R77) -/

/-- `f` gives each byte a fixed value or leaves it alone. -/
def Overwrites (f : Memory → Memory) : Prop :=
  ∀ a, (∃ b, ∀ m, readByte (f m) a = b) ∨ ∀ m, readByte (f m) a = readByte m a

theorem overwrites_id : Overwrites id := fun _ => Or.inr fun _ => rfl

theorem overwrites_writeByte (a : Nat) (v : Byte) : Overwrites (writeByte · a v) := fun b => by
  by_cases h : a = b
  · exact Or.inl ⟨v, fun m => by rw [readByte_writeByte, if_pos h]⟩
  · exact Or.inr fun m => readByte_writeByte_other m v h

theorem Overwrites.comp {f g : Memory → Memory} (hg : Overwrites g) (hf : Overwrites f) : Overwrites (g ∘ f) := fun a => by
  obtain ⟨b, hb⟩ | hg := hg a
  · exact Or.inl ⟨b, fun m => hb (f m)⟩
  · obtain ⟨b, hb⟩ | hf := hf a
    · exact Or.inl ⟨b, fun m => (hg (f m)).trans (hb m)⟩
    · exact Or.inr fun m => (hg (f m)).trans (hf m)

theorem overwrites_writeLE (a n v : Nat) : Overwrites (writeLE · a n v) := by
  induction n generalizing a v with
  | zero => exact overwrites_id
  | succ n ih => exact (overwrites_writeByte a (BitVec.ofNat 8 v)).comp (ih (a + 1) (v / 256))

theorem overwrites_setInByte (p : Params) (j : Nat) (v : Byte) : Overwrites (setInByte p · j v) := by
  unfold setInByte
  split
  · exact overwrites_writeByte _ _
  · exact overwrites_id

theorem overwrites_writeInBuf (p : Params) (k : Nat) (v : Word) : Overwrites (writeInBuf p k v) :=
  (overwrites_setInByte p _ _).comp
    ((overwrites_setInByte p _ _).comp ((overwrites_setInByte p _ _).comp (overwrites_setInByte p _ _)))

/-- Overwriting twice is overwriting once, when it keeps the canonical form. -/
theorem Overwrites.idem {f : Memory → Memory} (hf : Overwrites f) (keeps : ∀ m, Memory.wf m = true → Memory.wf (f m) = true)
    {m : Memory} (hm : Memory.wf m = true) : f (f m) = f m := by
  refine Memory.ext (keeps _ (keeps m hm)) (keeps m hm) fun a => ?_
  obtain ⟨b, hb⟩ | ha := hf a
  · rw [hb, hb]
  · exact ha (f m)

/-- A repeated write to a word other than CMD, no soft reset, changes nothing more (R77). -/
theorem writeTarget_idem {v : Word} {s : State} (hw : Memory.wf s.mem = true) {x : Target} (hc : x ≠ .reg .cmd)
    (hv : x = .reg .ctrl → v.getLsbD 31 = false) : writeTarget v (writeTarget v s x) x = writeTarget v s x := by
  have again : ∀ {f : Memory → Memory}, Overwrites f → (∀ m, Memory.wf m = true → Memory.wf (f m) = true) →
      ({ s with mem := f (f s.mem) } : State) = { s with mem := f s.mem } := fun hf keeps => by rw [hf.idem keeps hw]
  cases x with
  | reg r =>
    cases r
    case cmd => exact absurd rfl hc
    case ctrl =>
      simp only [writeTarget, writeCtrl_irqEn (hv rfl)]
    case status =>
      simp only [writeTarget, writeStatus, Bool.and_assoc, Bool.and_self]
    all_goals rfl
  | freq y => exact again (overwrites_writeLE _ _ _) fun _ h => Memory.wf_setFreq h y v
  | node i => exact again (overwrites_writeLE _ _ _) fun _ h => Memory.wf_setNode h i v
  | codeLen y => exact again (overwrites_writeByte _ _) fun _ h => Memory.wf_setCodeLen h y _
  | codeVal y k => exact again (overwrites_writeLE _ _ _) fun _ h => Memory.wf_setCodeValWord h y k v
  | inBuf k => exact again (overwrites_writeInBuf s.params k v) fun _ h => Memory.wf_writeInBuf h s.params k v
  | outBuf k => rfl
  | reserved => rfl

theorem memWrite_idem {v : Word} {s : State} (hw : Memory.wf s.mem = true) {off : Offset} (hc : off.toNat / 4 ≠ 3)
    (hv : off.toNat / 4 = 2 → v.getLsbD 31 = false) : memWrite off v (memWrite off v s) = memWrite off v s := by
  have idem : writeTarget v (writeTarget v s (target off)) (target off) = writeTarget v s (target off) :=
    writeTarget_idem hw (fun e => hc (target_eq_reg e)) fun e => hv (target_eq_reg e)
  cases hbw : busyWritable (target off) with
  | true => rw [memWrite_busyWritable hbw, memWrite_busyWritable hbw, idem]
  | false =>
    cases hs : s.seq with
    | busy =>
      have dropped : memWrite off v s = { s with wrWhileBusy := true } := memWrite_busy hs hbw v
      rw [dropped]
      exact memWrite_busy (s := { s with wrWhileBusy := true }) hs hbw v
    | idle =>
      have stillIdle : (writeTarget v s (target off)).seq = .idle :=
        writeTarget_seq v s _ hs fun e => hc (target_eq_reg e)
      rw [memWrite_idle hs, memWrite_idle stillIdle, idem]

/-! ## The stored bits of a word (R25, R35, R40, R49, R51) -/

theorem zero_append_bit0 (v : Word) : 0#31 ++ BitVec.ofBool (v.getLsbD 0) = v &&& 1 := by
  apply BitVec.eq_of_getLsbD_eq
  intro i hi
  simp only [BitVec.getLsbD_append, BitVec.getLsbD_and, BitVec.getLsbD_ofBool]
  by_cases h : i = 0
  · subst h; simp
  · simp [h, show ¬ i < 1 by omega]

theorem setWidth_extractLow (v : Word) (n : Nat) : (v.extractLsb' 0 n).setWidth 32 = v &&& BitVec.ofNat 32 (2 ^ n - 1) := by
  apply BitVec.eq_of_getLsbD_eq
  intro i hi
  rw [BitVec.getLsbD_setWidth, BitVec.getLsbD_extractLsb', BitVec.getLsbD_and, BitVec.getLsbD_ofNat, decide_eq_true hi,
    Nat.testBit_two_pow_sub_one, Nat.zero_add, Bool.true_and, Bool.true_and, Bool.and_comm]

theorem append_root_fields (v : Word) : BitVec.ofBool (v.getLsbD 31) ++ (0#22 ++ v.extractLsb' 0 9) = v &&& 0x800001FF := by
  have mask : (0x800001FF : Word) = BitVec.ofBool true ++ (0#22 ++ BitVec.allOnes 9) := by decide
  rw [mask]
  apply BitVec.eq_of_getLsbD_eq
  intro i hi
  simp only [BitVec.getLsbD_append, BitVec.getLsbD_and, BitVec.getLsbD_ofBool, BitVec.getLsbD_extractLsb',
    BitVec.getLsbD_allOnes]
  by_cases h9 : i < 9
  · simp [h9, show i < 31 by omega]
  by_cases h31 : i < 31
  · simp [h9, h31]
  · obtain rfl : i = 31 := by omega
    simp

/-- A written word of IN_BUF holds the bits of the lanes below IN_CAP (R51). -/
theorem lanes_writeInBuf (p : Params) (k : Nat) (v : Word) (m : Memory) {i : Nat} (hi : i < 32) :
    (lanes (inByte p (writeInBuf p k v m)) k).getLsbD i = (v.getLsbD i && decide (4 * k + i / 8 < p.inCap)) := by
  rw [lanes_getLsbD _ _ _ hi, inByte_writeInBuf]
  by_cases h : 4 * k + i / 8 < p.inCap
  · have bit : 8 * ((4 * k + i / 8) % 4) + i % 8 = i := by omega
    rw [if_pos ⟨h, by omega⟩, lane, BitVec.getLsbD_extractLsb', bit, decide_eq_true (show i % 8 < 8 by omega),
      decide_eq_true h, Bool.true_and, Bool.and_true]
  · rw [if_neg (fun hh => h hh.1), inByte, if_neg h, decide_eq_false h, Bool.and_false]
    exact BitVec.getLsbD_zero

/-- Only STATUS shows SEQ (R27). -/
theorem readTarget_seq (s : State) (q : Seq) {x : Target} (hx : x ≠ .reg .status) :
    readTarget { s with seq := q } x = readTarget s x := by
  cases x with
  | reg r => cases r with | status => exact absurd rfl hx | _ => rfl
  | _ => rfl

end Sys2Proof.Machine

namespace Sys2Proof

open Machine

/-- Settles O13: CMD, CTRL and STATUS take a write at any time, and every other word drops it. -/
theorem writesWhileBusy : Obligations.WritesWhileBusy := by
  unfold Obligations.WritesWhileBusy
  intro s v off hb
  refine ⟨fun h => ?cmd, fun h hv => ?ctrl, fun h hv => ?softReset, fun h => memWrite_status h v s,
    fun h => memWrite_dropped hb h v⟩
  case cmd => rw [memWrite_cmd h, accept_busy v s hb]
  case ctrl => rw [memWrite_ctrl h, writeCtrl_irqEn hv]
  case softReset =>
    obtain ⟨mem, n, e, -⟩ := softReset_shape s
    exact ⟨mem, n, by rw [memWrite_softReset h hv, e]⟩

/-- Settles O14: the four ranges are the reserved words of the address map. -/
theorem reservedOffsets : Obligations.ReservedOffsets := by
  unfold Obligations.ReservedOffsets
  intro s v off h
  have hr : target off = .reserved := target_reserved h
  refine ⟨memRead_reserved hr s, fun hs => ?idle, fun hb => ?busy⟩
  case idle => rw [memWrite_idle hs, hr]; rfl
  case busy => exact memWrite_busy hb (by rw [hr]; rfl) v

/-- Settles O15: each writable word stores the bits its row of the address map names, and reads them back. -/
theorem writtenWordReadsBack : Obligations.WrittenWordReadsBack := by
  unfold Obligations.WrittenWordReadsBack
  intro s v off hs
  have back : off.toNat / 4 ≠ 3 → memRead (memWrite off v s) off = readTarget (writeTarget v s (target off)) (target off) :=
    fun hc => memRead_memWrite hs hc v off
  refine ⟨fun ⟨h1, h2⟩ => ?freq, fun ⟨h1, h2⟩ => ?node, fun ⟨h1, h2⟩ => ?codeLen, fun ⟨h1, h2⟩ => ?codeVal,
    fun ⟨h1, h2⟩ i hi => ?inBuf, fun h => ?root, fun h => ?inLen, fun h => ?decNbits, fun h hv => ?ctrl⟩ <;>
    rw [back (by omega)]
  case freq =>
    obtain ⟨y, e⟩ := target_freqRange h1 h2
    rw [e, writeTarget, readTarget, freq_setFreq, if_pos rfl]
  case node =>
    obtain ⟨i, e⟩ := target_nodeRange h1 h2
    rw [e, writeTarget, readTarget, node_setNode, if_pos rfl]
  case codeLen =>
    obtain ⟨y, e⟩ := target_codeLenRange h1 h2
    rw [e, writeTarget, readTarget, codeLen_setCodeLen, if_pos rfl]
    exact setWidth_extractLow v 8
  case codeVal =>
    obtain ⟨y, k, hk, e⟩ := target_codeValRange h1 h2
    rw [e, writeTarget, readTarget, codeValWord_setCodeValWord _ _ _ _ _ _ hk hk, if_pos ⟨rfl, rfl⟩]
  case inBuf =>
    rw [target_inBufRange h1 h2, writeTarget, readTarget, lanes_writeInBuf _ _ _ _ hi,
      show 4 * (off.toNat / 4) - 0x10000 = 4 * (off.toNat / 4 - 0x4000) by omega]
  case root =>
    rw [target_reg .root h]
    exact append_root_fields v
  case inLen =>
    rw [target_reg .inLen h]
    exact setWidth_extractLow v 17
  case decNbits => rw [target_reg .decNbits h]; rfl
  case ctrl =>
    rw [target_reg .ctrl h, writeTarget, writeCtrl_irqEn hv]
    exact zero_append_bit0 v

/-- Settles O16: a write reaches only the word it addresses, and no word that has no stored bits the host writes. -/
theorem writeChangesOnlyItsWord : Obligations.WriteChangesOnlyItsWord := by
  unfold Obligations.WriteChangesOnlyItsWord
  intro s v off off' hs
  refine ⟨fun hc hv hne => ?other, fun h => ?readOnly⟩
  case other => rw [memRead_memWrite hs hc, memRead_idle hs, readTarget_writeTarget_other hs hc hv hne]
  case readOnly => rw [memWrite_idle hs, writeTarget_readOnly v s h]

/-- Settles O17: a read adds to the log alone, and a repeated write overwrites what it wrote. -/
theorem readsAndRepeatedWritesAreIdempotent : Obligations.ReadsAndRepeatedWritesAreIdempotent := by
  unfold Obligations.ReadsAndRepeatedWritesAreIdempotent
  exact ⟨fun s off => hostRead_shape off s, fun s v off hw hc hv => memWrite_idem hw hc hv⟩

/-- Settles O18: the write set of the latched word is the table's, and a read outside it does not look at SEQ, STATUS
apart. -/
theorem readsWhileBusy : Obligations.ReadsWhileBusy := by
  unfold Obligations.ReadsWhileBusy
  intro s off hb
  refine ⟨fun hw hst => ?stored, fun hw => memRead_unspecified hb hw, fun h1 h2 => ?beyond, fun hi => ?errors⟩
  case stored =>
    rw [memRead_specified fun _ => hw, memRead_idle (s := { s with seq := .idle }) rfl]
    exact (readTarget_seq s .idle fun e => hst (target_eq_reg e)).symm
  case beyond => exact memRead_beyondOutBuf (target_outBufRange (by omega) h2) (by omega)
  case errors =>
    obtain ⟨-, hcode⟩ := hi.busyClean hb
    obtain ⟨hinfo, hpos⟩ := hi.noError hcode
    rw [memRead_reg .errCode rfl (by decide), memRead_reg .errInfo rfl (by decide), memRead_reg .errPos rfl (by decide)]
    exact ⟨by rw [readReg, hcode]; rfl, hinfo, hpos⟩

end Sys2Proof

namespace Sys2Proof.Machine

theorem append_root_toNat (b : Bool) (i : NodeIdx) : (BitVec.ofBool b ++ (0#22 ++ i)).toNat = b.toNat * 2 ^ 31 + i.toNat := by
  have hi := i.isLt
  have low : (0#22 ++ i).toNat = i.toNat := by rw [BitVec.toNat_append]; simp
  rw [BitVec.toNat_append, low, ← Nat.shiftLeft_add_eq_or_of_lt (by omega), Nat.shiftLeft_eq, BitVec.toNat_ofBool]

end Sys2Proof.Machine

namespace Sys2Proof

open Machine

/-- Settles O60: outside the write set of a running command a read returns the stored value of the word, and each row of
the address map says which. -/
theorem wordsReadTheirState : Obligations.WordsReadTheirState := by
  unfold Obligations.WordsReadTheirState
  intro s off hw
  have stored : memRead s off = readTarget s (target off) := memRead_specified hw
  have reg : ∀ r : Reg, off.toNat / 4 = r.index → memRead s off = readReg s r := fun r h => by
    rw [stored, target_reg r h, readTarget]
  have inCap := s.params.inCap_le
  have outCap := s.params.outCap_le
  refine ⟨reg .id, reg .version, fun h => ?ctrl, reg .cmd, fun h => ?status, fun h => ?errCode, reg .errInfo, reg .errPos,
    fun h => ?inLen, reg .decNbits, fun h => ?outLen, reg .outBits, reg .decTail, fun h => ?root, fun h => ?nleaf,
    fun h => ?nnode, fun h => ?ncodes, fun h => ?maxlen, fun h => ?inCap, fun h => ?outCap, fun y h => ?freq,
    fun i h => ?node, fun y h => ?codeLen, fun y k hk h => ?codeVal, fun k j hk hj h => ?inBuf, fun k j hk hj h => ?outBuf,
    fun h => memRead_reserved (target_reserved h) s⟩
  case ctrl => rw [reg .ctrl h, readReg]; cases s.irqEn <;> rfl
  case status =>
    obtain ⟨b0, b1, b2, b3, b4, lt⟩ := statusWord_bits s
    rw [reg .status h, readReg, b0, b2, busy_eq, err_iff]
    exact ⟨Iff.rfl, b1, Iff.rfl, b3, b4, lt⟩
  case errCode =>
    rw [reg .errCode h, readReg]
    cases s.errCode <;> decide
  case inLen => rw [reg .inLen h, readReg, BitVec.toNat_setWidth_of_le (by decide)]
  case outLen => rw [reg .outLen h, readReg, BitVec.toNat_setWidth_of_le (by decide)]
  case root => rw [reg .root h, readReg, append_root_toNat]
  case nleaf => rw [reg .nleaf h, readReg, BitVec.toNat_setWidth_of_le (by decide)]
  case nnode => rw [reg .nnode h, readReg, BitVec.toNat_setWidth_of_le (by decide)]
  case ncodes => rw [reg .ncodes h, readReg, BitVec.toNat_setWidth_of_le (by decide)]
  case maxlen => rw [reg .maxlen h, readReg, BitVec.toNat_setWidth_of_le (by decide)]
  case inCap => rw [reg .inCap h, readReg, BitVec.toNat_ofNat]; omega
  case outCap => rw [reg .outCap h, readReg, BitVec.toNat_ofNat]; omega
  case freq => rw [stored, target_freq y (by omega), readTarget]
  case node => rw [stored, target_node i (by omega), readTarget]
  case codeLen => rw [stored, target_codeLen y (by omega), readTarget, BitVec.toNat_setWidth_of_le (by decide)]
  case codeVal => rw [stored, target_codeVal y k hk (by omega), readTarget, codeValWord_eq _ _ hk]
  case inBuf => rw [stored, target_inBuf k hk (by omega), readTarget, lanes_extract _ _ hj]
  case outBuf => rw [stored, target_outBuf k hk (by omega), readTarget, lanes_extract _ _ hj]

end Sys2Proof
end

section
/-! PROOFS. No command reads OUT_BUF (20_memory.md R87): two runs of a command from memories that differ in OUT_BUF alone
go side by side. -/

namespace Sys2Proof.Machine

/-! ## Memories that differ in OUT_BUF alone -/

/-- The memories agree outside OUT_BUF and in its first n bytes. -/
def AgreeUpTo (n : Nat) (m m' : Memory) : Prop := ∀ a, a < 0x20000 + n ∨ 0x30000 ≤ a → readByte m' a = readByte m a

theorem agreeUpTo_zero (m m' : Memory) :
    AgreeUpTo 0 m m' ↔ ∀ a, ¬ (0x20000 ≤ a ∧ a < 0x30000) → readByte m' a = readByte m a :=
  forall_congr' fun _ => imp_congr_left (by omega)

section
variable {m m' : Memory}

theorem AgreeUpTo.mono {n k : Nat} (h : AgreeUpTo n m m') (hk : k ≤ n) : AgreeUpTo k m m' := fun a ha => h a (by omega)

theorem AgreeUpTo.writeByte {n : Nat} (h : AgreeUpTo n m m') (a : Nat) (v : Byte) :
    AgreeUpTo n (writeByte m a v) (writeByte m' a v) := fun b hb => by
  rw [readByte_writeByte, readByte_writeByte, h b hb]

theorem AgreeUpTo.writeLE {n : Nat} (h : AgreeUpTo n m m') (a k v : Nat) :
    AgreeUpTo n (writeLE m a k v) (writeLE m' a k v) := fun b hb => by
  rw [readByte_writeLE, readByte_writeLE, h b hb]

theorem AgreeUpTo.clearRam {n : Nat} (h : AgreeUpTo n m m') (p : Params) (r : Ram) :
    AgreeUpTo n (clearRam p r m) (clearRam p r m') := fun b hb => by
  rw [readByte_clearRam, readByte_clearRam, h b hb]

theorem AgreeUpTo.scrambleRam {n : Nat} (h : AgreeUpTo n m m') (p : Params) (k : Nat) (r : Ram) :
    AgreeUpTo n (scrambleRam p k r m) (scrambleRam p k r m') := fun b hb => by
  rw [readByte_scrambleRam, readByte_scrambleRam, h b hb]

/-- The next output byte written, the memories agree in one byte more. -/
theorem AgreeUpTo.setOutByte {n : Nat} (h : AgreeUpTo n m m') {p : Params} (hn : n < p.outCap) (v : Byte) :
    AgreeUpTo (n + 1) (setOutByte p m n v) (setOutByte p m' n v) := fun b hb => by
  rw [readByte_setOutByte, readByte_setOutByte]
  by_cases e : b = 0x20000 + n
  · rw [if_pos ⟨hn, e⟩, if_pos ⟨hn, e⟩]
  · rw [if_neg fun hh => e hh.2, if_neg fun hh => e hh.2, h b (by omega)]

theorem AgreeUpTo.freq {n : Nat} (h : AgreeUpTo n m m') (y : Byte) : freq m' y = freq m y :=
  freq_congr (fun a _ _ => h a (by omega)) y

theorem AgreeUpTo.node {n : Nat} (h : AgreeUpTo n m m') (i : NodeIdx) : node m' i = node m i :=
  node_congr (fun a _ _ => h a (by omega)) i

theorem AgreeUpTo.codeLen {n : Nat} (h : AgreeUpTo n m m') (y : Byte) : codeLen m' y = codeLen m y :=
  codeLen_congr (fun a _ _ => h a (by omega)) y

theorem AgreeUpTo.codeVal {n : Nat} (h : AgreeUpTo n m m') (y : Byte) : codeVal m' y = codeVal m y :=
  codeVal_congr (fun a _ _ => h a (by omega)) y

theorem AgreeUpTo.inByte {n : Nat} (h : AgreeUpTo n m m') (p : Params) (j : Nat) : inByte p m' j = inByte p m j :=
  inByte_congr (fun a _ _ => h a (by omega)) j

theorem AgreeUpTo.inBit {n : Nat} (h : AgreeUpTo n m m') (p : Params) (k : Nat) : inBit p m' k = inBit p m k := by
  rw [Machine.inBit, Machine.inBit, h.inByte]

theorem AgreeUpTo.present {n : Nat} (h : AgreeUpTo n m m') : present m' = present m := by
  simp only [Machine.present, h.freq]

theorem AgreeUpTo.outBytes {n : Nat} (h : AgreeUpTo n m m') (p : Params) : outBytes p m' n = outBytes p m n := by
  refine List.map_congr_left fun j hj => ?_
  rw [outByte, outByte, outBufAddr, h _ (by rw [List.mem_range] at hj; omega)]

end

/-! ## Two runs side by side -/

/-- Both runs raise the same error, or both end, in results that are related. -/
def Alike {α : Type} (R : α → α → Prop) (x y : Except Raise α) : Prop :=
  (∃ e, x = .error e ∧ y = .error e) ∨ ∃ a b, x = .ok a ∧ y = .ok b ∧ R a b

theorem alike_error {α : Type} (R : α → α → Prop) (e : Raise) : Alike R (.error e) (.error e) := Or.inl ⟨e, rfl, rfl⟩

theorem alike_ok {α : Type} {R : α → α → Prop} {a b : α} (h : R a b) : Alike R (.ok a) (.ok b) := Or.inr ⟨a, b, rfl, rfl, h⟩

/-! ### BUILD_TREE (R131) -/

/-- The builders differ in the bytes of OUT_BUF alone. -/
structure Builder.SameButOutBuf (b b' : Builder) : Prop where
  queue : b'.queue = b.queue
  next : b'.next = b.next
  mem : AgreeUpTo 0 b.mem b'.mem

theorem seedLeaves_alike {m m' : Memory} (hm : AgreeUpTo 0 m m') (ps : List Byte) {b b' : Builder} (h : b.SameButOutBuf b') :
    (seedLeaves m ps b).SameButOutBuf (seedLeaves m' ps b') := by
  induction ps generalizing b b' with
  | nil => exact h
  | cons y ps ih =>
    rw [seedLeaves, seedLeaves, hm.freq, h.queue, h.next]
    exact ih ⟨rfl, rfl, h.mem.writeLE _ _ _⟩

theorem mergeNodes_alike (k : Nat) {b b' : Builder} (h : b.SameButOutBuf b') :
    (mergeNodes k b).SameButOutBuf (mergeNodes k b') := by
  induction k generalizing b b' with
  | zero => exact h
  | succ k ih =>
    rw [mergeNodes, mergeNodes, h.queue, h.next]
    split
    · exact h
    split
    · exact h
    · exact ih ⟨rfl, rfl, h.mem.writeLE _ _ _⟩

theorem built_alike (p : Params) {m m' : Memory} (hm : AgreeUpTo 0 m m') : (built p m).SameButOutBuf (built p m') := by
  rw [built, built, seeded, seeded, hm.present]
  exact mergeNodes_alike _ (seedLeaves_alike hm _ ⟨rfl, rfl, hm.clearRam p .node⟩)

/-! ### GEN_CODES (R152) -/

/-- The tables differ in the bytes of OUT_BUF alone. -/
structure Table.SameButOutBuf (t t' : Table) : Prop where
  count : t'.count = t.count
  maxl : t'.maxl = t.maxl
  mem : AgreeUpTo 0 t.mem t'.mem

theorem Table.SameButOutBuf.record {t t' : Table} (h : t.SameButOutBuf t') (y : Byte) (d v : Nat) :
    (t.record y d v).SameButOutBuf (t'.record y d v) where
  count := by rw [record_count, record_count, h.count]
  maxl := by rw [record_maxl, record_maxl, h.maxl]
  mem := (h.mem.writeByte _ _).writeLE _ _ _

theorem genWalk_alike {m m' : Memory} (hm : AgreeUpTo 0 m m') (k : Nat) (st : List Visit) {t t' : Table}
    (h : t.SameButOutBuf t') : Alike Table.SameButOutBuf (genWalk m k st t) (genWalk m' k st t') := by
  induction k generalizing st t t' with
  | zero =>
    cases st with
    | nil => exact alike_ok h
    | cons v st => exact alike_error _ _
  | succ k ih =>
    cases st with
    | nil => exact alike_ok h
    | cons v st =>
      simp only [genWalk, hm.node, h.mem.codeLen]
      split
      · exact alike_error _ _
      split
      · split
        · exact alike_error _ _
        · exact ih _ (h.record _ _ _)
      split
      · exact ih _ h
      · exact alike_error _ _

theorem genTable_alike {m m' : Memory} (hm : AgreeUpTo 0 m m') (b : Bool) (r : NodeIdx) :
    Alike Table.SameButOutBuf (genTable m b r) (genTable m' b r) := by
  have start : Table.SameButOutBuf ⟨m, 0, 0⟩ ⟨m', 0, 0⟩ := ⟨rfl, rfl, hm⟩
  simp only [genTable, hm.node]
  split
  · exact alike_error _ _
  split
  · exact alike_ok (start.record _ _ _)
  · exact genWalk_alike hm _ _ start

/-! ### ENCODE (R170, R171) -/

/-- The packers differ in the bytes of OUT_BUF alone that are not packed yet; the accumulator holds the bits of the byte
that is not whole, and what is packed fits. -/
structure Packer.SameButRest (p : Params) (k k' : Packer) : Prop where
  len : k'.len = k.len
  acc : k'.acc = k.acc
  acnt : k'.acnt = k.acnt
  part : k.acnt = k.len % 8
  fits : k.len ≤ 8 * p.outCap
  mem : AgreeUpTo (k.len / 8) k.mem k'.mem

theorem packBit_alike {p : Params} {k k' : Packer} (h : k.SameButRest p k') (b : Bool) (j : Nat) :
    Alike (Packer.SameButRest p) (packBit p b j k) (packBit p b j k') := by
  have part := h.part
  simp only [packBit, h.len, h.acc, h.acnt]
  split
  · exact alike_error _ _
  split
  · have whole : (k.len + 1) / 8 - 1 = k.len / 8 := by omega
    refine alike_ok ⟨rfl, rfl, rfl, by simp only; omega, by simp only; omega, ?_⟩
    have written := h.mem.setOutByte (p := p) (by omega) ((k.acc <<< 1) ||| (BitVec.ofBool b).setWidth 8)
    rw [← whole] at written
    exact written.mono (by simp only; omega)
  · exact alike_ok ⟨rfl, rfl, rfl, by simp only; omega, by simp only; omega, h.mem.mono (by simp only; omega)⟩

theorem packCode_alike {p : Params} (v : CodeVal) (j n : Nat) {k k' : Packer} (h : k.SameButRest p k') :
    Alike (Packer.SameButRest p) (packCode p v j n k) (packCode p v j n k') := by
  induction n generalizing k k' with
  | zero => exact alike_ok h
  | succ n ih =>
    obtain ⟨e, h1, h2⟩ | ⟨a, b, h1, h2, hab⟩ := packBit_alike h (v.getLsbD n) j
    · simp only [packCode, h1, h2]
      exact alike_error _ _
    · simp only [packCode, h1, h2]
      exact ih hab

theorem encodeBytes_alike {p : Params} {m m' : Memory} (hm : AgreeUpTo 0 m m') (n j : Nat) {k k' : Packer}
    (h : k.SameButRest p k') : Alike (Packer.SameButRest p) (encodeBytes p m n j k) (encodeBytes p m' n j k') := by
  induction n generalizing j k k' with
  | zero => exact alike_ok h
  | succ n ih =>
    simp only [encodeBytes, hm.inByte, hm.codeLen, hm.codeVal]
    split
    · exact alike_error _ _
    obtain ⟨e, h1, h2⟩ | ⟨a, b, h1, h2, hab⟩ :=
      packCode_alike (codeVal m (inByte p m j)) j (codeLen m (inByte p m j)).toNat h
    · rw [h1, h2]
      exact alike_error _ _
    · rw [h1, h2]
      exact ih _ hab

/-- The packers agree in every output byte, the padded one too. -/
def Packer.SameOutput (k k' : Packer) : Prop := k'.len = k.len ∧ AgreeUpTo ((k.len + 7) / 8) k.mem k'.mem

theorem packFlush_alike {p : Params} {k k' : Packer} (h : k.SameButRest p k') :
    (packFlush p k).SameOutput (packFlush p k') := by
  have part := h.part
  have fits := h.fits
  simp only [packFlush, h.len, h.acc, h.acnt]
  split
  · exact ⟨h.len, h.mem.mono (by omega)⟩
  · exact ⟨rfl, (h.mem.setOutByte (by omega) _).mono (by simp only; omega)⟩

theorem encodeRun_alike (p : Params) {m m' : Memory} (hm : AgreeUpTo 0 m m') (n : Nat) :
    Alike Packer.SameOutput (encodeRun p m n) (encodeRun p m' n) := by
  simp only [encodeRun]
  split
  · exact alike_error _ _
  have start : (Packer.init m).SameButRest p (Packer.init m') := ⟨rfl, rfl, rfl, rfl, Nat.zero_le _, by simpa [Packer.init] using hm⟩
  obtain ⟨e, h1, h2⟩ | ⟨a, b, h1, h2, hab⟩ := encodeBytes_alike hm n 0 start
  · rw [h1, h2]
    exact alike_error _ _
  · rw [h1, h2]
    exact alike_ok (packFlush_alike hab)

/-! ### DECODE and DECODE.ALL (R190 to R192) -/

/-- The decoders differ in the bytes of OUT_BUF alone that are not written yet. -/
structure Decoder.SameButRest (d d' : Decoder) : Prop where
  cur : d'.cur = d.cur
  tail : d'.tail = d.tail
  optr : d'.optr = d.optr
  mem : AgreeUpTo d.optr d.mem d'.mem

theorem emitSymbol_alike (p : Params) (r : NodeIdx) (y : Byte) (pos : Nat) {d d' : Decoder} (h : d.SameButRest d') :
    Alike Decoder.SameButRest (emitSymbol p r y pos d) (emitSymbol p r y pos d') := by
  simp only [emitSymbol, h.optr]
  split
  · exact alike_error _ _
  · exact alike_ok ⟨rfl, rfl, rfl, h.mem.setOutByte (by omega) y⟩

theorem decodeStep_alike (p : Params) {m m' : Memory} (hm : AgreeUpTo 0 m m') (r : NodeIdx) (pos : Nat) (b : Bool)
    {d d' : Decoder} (h : d.SameButRest d') :
    Alike Decoder.SameButRest (decodeStep p m r pos b d) (decodeStep p m' r pos b d') := by
  simp only [decodeStep, hm.node, h.cur]
  generalize (if b = true then nodeRight (node m d.cur) else nodeLeft (node m d.cur)) = c
  split
  · split
    · exact alike_error _ _
    · exact emitSymbol_alike p _ _ _ h
  split
  · split
    · exact emitSymbol_alike p _ _ _ h
    split
    · exact alike_ok ⟨rfl, by rw [h.tail], h.optr, h.mem⟩
    · exact alike_error _ _
  · exact alike_error _ _

theorem decodeBits_alike (p : Params) {m m' : Memory} (hm : AgreeUpTo 0 m m') (r : NodeIdx) (n pos : Nat)
    {d d' : Decoder} (h : d.SameButRest d') :
    Alike Decoder.SameButRest (decodeBits p m r n pos d) (decodeBits p m' r n pos d') := by
  induction n generalizing pos d d' with
  | zero => exact alike_ok h
  | succ n ih =>
    obtain ⟨e, h1, h2⟩ | ⟨a, b, h1, h2, hab⟩ := decodeStep_alike p hm r pos (inBit p m pos) h
    · simp only [decodeBits, hm.inBit, h1, h2]
      exact alike_error _ _
    · simp only [decodeBits, hm.inBit, h1, h2]
      exact ih _ hab

theorem decodeRun_alike (s : State) {m : Memory} (hm : AgreeUpTo 0 s.mem m) (n : Nat) :
    Alike Decoder.SameButRest (decodeRun s n) (decodeRun { s with mem := m } n) := by
  simp only [decodeRun]
  split
  · exact alike_error _ _
  split
  · exact alike_error _ _
  split
  · exact alike_error _ _
  · exact decodeBits_alike _ hm _ _ _ ⟨rfl, rfl, rfl, hm⟩

/-! ## The commands -/

/-- Both runs of the command answer next states that agree in every register and outside OUT_BUF, and in the OUT_LEN
output bytes when the command has an output. -/
def AlikeResults (i : Instr) (x y : Result) : Prop :=
  ∃ t u, x = .next t ∧ y = .next u ∧ u = { t with mem := u.mem } ∧ AgreeUpTo 0 t.mem u.mem ∧
    (i ∈ [.encode, .decode, .decodeAll] → AgreeUpTo t.outLen.toNat t.mem u.mem)

section
variable {s : State} {m : Memory}

theorem execBuildTree_alike (h : AgreeUpTo 0 s.mem m) :
    AlikeResults .buildTree (execBuildTree s) (execBuildTree { s with mem := m }) := by
  obtain ⟨hq, -, hb⟩ := built_alike s.params h
  have hroot : (built s.params m).root = (built s.params s.mem).root := by rw [Builder.root, Builder.root, hq]
  simp only [execBuildTree, h.present, hroot]
  split
  · exact ⟨_, _, rfl, rfl, rfl, h, nofun⟩
  · exact ⟨_, _, rfl, rfl, rfl, hb, nofun⟩

theorem clearCodes_alike (h : AgreeUpTo 0 s.mem m) :
    AgreeUpTo 0 (clearCodes s).mem (clearCodes { s with mem := m }).mem :=
  (h.clearRam s.params .codeLen).clearRam s.params .codeVal

theorem execGenCodes_alike (h : AgreeUpTo 0 s.mem m) :
    AlikeResults .genCodes (execGenCodes s) (execGenCodes { s with mem := m }) := by
  simp only [execGenCodes]
  obtain ⟨e, h1, h2⟩ | ⟨t, u, h1, h2, htu⟩ := genTable_alike (clearCodes_alike h) s.rootValid s.rootIdx
  · simp only [h1, h2]
    exact ⟨_, _, rfl, rfl, rfl, clearCodes_alike h, nofun⟩
  · simp only [h1, h2, htu.count, htu.maxl]
    exact ⟨_, _, rfl, rfl, rfl, htu.mem, nofun⟩

/-- A failed ENCODE, DECODE or DECODE.ALL leaves no output bytes (R244). -/
theorem raise_output_alike (h : AgreeUpTo 0 s.mem m) {i : Instr} (hi : i = .encode ∨ i = .decode ∨ i = .decodeAll)
    (e : Raise) : AlikeResults i (.next (raise (some i) e s)) (.next (raise (some i) e { s with mem := m })) := by
  have scrambled := h.scrambleRam s.params s.draws .outBuf
  rw [raise_output i e _ hi, raise_output i e _ hi]
  exact ⟨_, _, rfl, rfl, rfl, scrambled, fun _ => scrambled⟩

theorem execEncode_alike (h : AgreeUpTo 0 s.mem m) :
    AlikeResults .encode (execEncode s) (execEncode { s with mem := m }) := by
  simp only [execEncode]
  obtain ⟨e, h1, h2⟩ | ⟨k, k', h1, h2, hlen, hk⟩ := encodeRun_alike s.params h s.inLen.toNat
  · simp only [h1, h2]
    exact raise_output_alike h (Or.inl rfl) e
  · simp only [h1, h2, hlen]
    exact ⟨_, _, rfl, rfl, rfl, hk.mono (Nat.zero_le _), fun _ => hk.mono (Nat.mod_le _ _)⟩

theorem decodeDone_alike (i : Instr) (n : Nat) {d d' : Decoder} (hd : d.SameButRest d') :
    AlikeResults i (.next (decodeDone n d s)) (.next (decodeDone n d' { s with mem := m })) := by
  simp only [decodeDone, hd.optr, hd.tail]
  exact ⟨_, _, rfl, rfl, rfl, hd.mem.mono (Nat.zero_le _), fun _ => hd.mem.mono (Nat.mod_le _ _)⟩

theorem execDecode_alike (h : AgreeUpTo 0 s.mem m) :
    AlikeResults .decode (execDecode s) (execDecode { s with mem := m }) := by
  simp only [execDecode]
  obtain ⟨e, h1, h2⟩ | ⟨d, d', h1, h2, hd⟩ := decodeRun_alike s h s.decNbits.toNat
  · simp only [h1, h2]
    exact raise_output_alike h (Or.inr (Or.inl rfl)) e
  · simp only [h1, h2]
    exact decodeDone_alike .decode _ hd

theorem execDecodeAll_alike (h : AgreeUpTo 0 s.mem m) :
    AlikeResults .decodeAll (execDecodeAll s) (execDecodeAll { s with mem := m }) := by
  have bits : allBits { s with mem := m } = allBits s := rfl
  simp only [execDecodeAll, bits]
  obtain ⟨e, h1, h2⟩ | ⟨d, d', h1, h2, hd⟩ := decodeRun_alike s h (allBits s)
  · simp only [h1, h2]
    exact raise_output_alike h (Or.inr (Or.inr rfl)) e
  · simp only [h1, h2]
    exact decodeDone_alike .decodeAll _ hd

theorem exec_alike (i : Instr) (h : AgreeUpTo 0 s.mem m) : AlikeResults i (exec i s) (exec i { s with mem := m }) := by
  cases i
  case nop => exact ⟨_, _, rfl, rfl, rfl, h, nofun⟩
  case clrFreq => exact ⟨_, _, rfl, rfl, rfl, h.clearRam s.params .freq, nofun⟩
  case buildTree => exact execBuildTree_alike h
  case genCodes => exact execGenCodes_alike h
  case encode => exact execEncode_alike h
  case decode => exact execDecode_alike h
  case decodeAll => exact execDecodeAll_alike h
  case clrTree => exact ⟨_, _, rfl, rfl, rfl, h.clearRam s.params .node, nofun⟩
  case clrCodes => exact ⟨_, _, rfl, rfl, rfl, clearCodes_alike h, nofun⟩

end

end Sys2Proof.Machine

namespace Sys2Proof

open Machine

/-- Settles O29: side by side, the two runs of a command read the same and write the same, so their memories still differ
in OUT_BUF alone, and there beyond the output only. -/
theorem commandsIgnoreOutBuf : Obligations.CommandsIgnoreOutBuf := by
  unfold Obligations.CommandsIgnoreOutBuf
  intro i s m hm
  obtain ⟨t, u, ht, hu, e, outside, output⟩ := exec_alike i ((agreeUpTo_zero s.mem m).mpr hm)
  refine ⟨t, u, ht, hu, e, (agreeUpTo_zero _ _).mp outside, fun hi => ?_⟩
  have params : u.params = t.params := by rw [e]
  have outLen : u.outLen = t.outLen := by rw [e]
  rw [params, outLen]
  exact (output hi).outBytes t.params

end Sys2Proof
end

section
/-! PROOFS. The nine command words (30_encoding.md R101, R109, R110) and the node words (R103, R104). -/

namespace Sys2Proof

open Machine

/-- A word decodes to a command exactly when it is that command's word. -/
theorem decode_eq_ok (c : Word) (i : Instr) : decode c = .ok i ↔ c = encode i :=
  ⟨fun h => (encode_of_decode h).symm, fun h => h ▸ decode_encode i⟩

/-- Every word that is no command's is refused (R110). -/
theorem decode_refuses (c : Word) : (∃ e, decode c = .error e) ↔ ∀ i, c ≠ encode i := by
  constructor
  · rintro ⟨e, he⟩ i rfl
    rw [decode_encode] at he
    cases he
  · intro h
    cases hd : decode c with
    | ok i => exact absurd ((decode_eq_ok c i).mp hd) (h i)
    | error e => exact ⟨e, rfl⟩

/-- The words of the nine commands, as the opcode map writes them out (R109). -/
theorem mem_opcodeMap (c : Word) : c ∈ ([0, 1, 2, 3, 4, 5, 0x105, 6, 7] : List Word) ↔ ∃ i, c = encode i := by
  constructor
  · intro h
    simp only [List.mem_cons, List.not_mem_nil, or_false] at h
    obtain rfl | rfl | rfl | rfl | rfl | rfl | rfl | rfl | rfl := h
    exacts [⟨.nop, rfl⟩, ⟨.clrFreq, rfl⟩, ⟨.buildTree, rfl⟩, ⟨.genCodes, rfl⟩, ⟨.encode, rfl⟩, ⟨.decode, rfl⟩,
      ⟨.decodeAll, rfl⟩, ⟨.clrTree, rfl⟩, ⟨.clrCodes, rfl⟩]
  · rintro ⟨i, rfl⟩
    cases i <;> decide

/-- Settles O3: the word of a command decodes to it, command by command, and a word is read back from the fields that
decode. -/
theorem decodeEncodeAgree : Obligations.DecodeEncodeAgree := by
  unfold Obligations.DecodeEncodeAgree
  exact ⟨decode_encode, fun _ _ => encode_of_decode⟩

/-- Settles O1: each of the nine is the word of its command. -/
theorem tableWordsDecode : Obligations.TableWordsDecode := by
  unfold Obligations.TableWordsDecode
  exact ⟨decode_encode .nop, decode_encode .clrFreq, decode_encode .buildTree, decode_encode .genCodes,
    decode_encode .encode, decode_encode .decode, decode_encode .decodeAll, decode_encode .clrTree,
    decode_encode .clrCodes⟩

/-- Settles O2: a word decodes to a command exactly when it is its word, and the nine words are all there are. -/
theorem exactlyNineWordsDecode : Obligations.ExactlyNineWordsDecode := by
  unfold Obligations.ExactlyNineWordsDecode
  intro c
  refine ⟨decode_eq_ok c .nop, decode_eq_ok c .clrFreq, decode_eq_ok c .buildTree, decode_eq_ok c .genCodes,
    decode_eq_ok c .encode, decode_eq_ok c .decode, decode_eq_ok c .decodeAll, decode_eq_ok c .clrTree,
    decode_eq_ok c .clrCodes, ?refused⟩
  case refused => rw [decode_refuses, mem_opcodeMap, not_exists]

/-- Settles O4: the canonical words read back field by field, and each decoding function is its bits as a number. -/
theorem nodeWordFormat : Obligations.NodeWordFormat := by
  unfold Obligations.NodeWordFormat
  refine ⟨fun y => ?leaf, fun l r => ?internal, fun w => ?fields⟩
  case leaf => exact ⟨isLeaf_leafWord y, isInt_leafWord y, nodeSym_leafWord y⟩
  case internal =>
    have internal := isInt_internalWord l r
    exact ⟨internal, isLeaf_eq_false_of_isInt internal, nodeLeft_internalWord l r, nodeRight_internalWord l r⟩
  case fields => exact ⟨isLeaf_iff w, isInt_iff w, nodeSym_toNat w, nodeLeft_toNat w, nodeRight_toNat w⟩

end Sys2Proof
end

section
/-! PROOFS. The host's pseudo-instructions WAIT and WRB (30_encoding.md R120, R121; 10_state.md R51; 20_memory.md R74). -/

namespace Sys2Proof.Machine

/-! ## WAIT -/

/-- A read outside the write set of a running command adds its value to the log, and nothing else changes (R71). -/
theorem hostRead_specified {off : Offset} {s : State} (h : unspecifiedRead s off = false) :
    hostRead off s = { s with hostLog := memRead s off :: s.hostLog } := by
  rw [hostRead, h]
  rfl

/-- STATUS lies in no write set (R78). -/
theorem unspecifiedRead_status (s : State) : unspecifiedRead s statusOffset = false := by
  rw [unspecifiedRead, target_reg .status rfl, inWriteSet_reg _ _ .status (by decide), Bool.and_false]

/-- What WAIT reads does not depend on the host's statements. -/
theorem hostRead_status_tick (s : State) (l : List HostStmt) :
    hostRead statusOffset (s.tick l) =
      { s with host := l, hostLog := memRead s statusOffset :: s.hostLog, delay := s.delay - 1 } := by
  have same : memRead (s.tick l) statusOffset = memRead s statusOffset :=
    (memRead_status (s.tick l)).trans (memRead_status s).symm
  rw [hostRead_specified (unspecifiedRead_status _), same]
  rfl

/-- WAIT stays while the block is BUSY and leaves when it is IDLE (R121). -/
theorem hostTurn_wait_eq {s : State} {rest : List HostStmt} (h : s.host = .wait :: rest) :
    hostTurn s =
      { s with
        host := if s.busy then .wait :: rest else rest
        hostLog := memRead s statusOffset :: s.hostLog
        delay := s.delay - 1 } := by
  have bit0 : (memRead s statusOffset).getLsbD 0 = s.busy :=
    (congrArg (BitVec.getLsbD · 0) (memRead_status s)).trans (statusWord_bits s).1
  rw [hostTurn, h]
  dsimp only
  rw [bit0]
  cases s.busy
  · exact hostRead_status_tick s rest
  · exact hostRead_status_tick s (.wait :: rest)

/-! ## WRB -/

/-- Memory after words of IN_BUF are written in the order of `ks`, word k with the value `v k` (R72). -/
def storeWords (p : Params) (v : Nat → Word) (ks : List Nat) (m : Memory) : Memory :=
  ks.foldl (fun m k => writeInBuf p k (v k) m) m

theorem inByte_storeWords (p : Params) (v : Nat → Word) (ks : List Nat) (m : Memory) (j : Nat) :
    inByte p (storeWords p v ks m) j =
      if j < p.inCap ∧ j / 4 ∈ ks then lane (v (j / 4)) (j % 4) else inByte p m j := by
  induction ks generalizing m with
  | nil => simp [storeWords]
  | cons k ks ih =>
    rw [storeWords, List.foldl_cons, ← storeWords, ih, inByte_writeInBuf]
    by_cases later : j < p.inCap ∧ j / 4 ∈ ks
    · rw [if_pos later, if_pos ⟨later.1, List.mem_cons_of_mem _ later.2⟩]
    · rw [if_neg later]
      by_cases first : j < p.inCap ∧ j / 4 = k
      · rw [if_pos first, if_pos ⟨first.1, first.2 ▸ List.mem_cons_self⟩, first.2]
      · rw [if_neg first, if_neg]
        rintro ⟨hj, hk⟩
        exact (List.mem_cons.mp hk).elim (fun e => first ⟨hj, e⟩) fun e => later ⟨hj, e⟩

theorem readByte_storeWords_outside (p : Params) (v : Nat → Word) {ks : List Nat} (m : Memory) {a : Nat}
    (ha : ∀ k ∈ ks, a / 4 ≠ 0x4000 + k) : readByte (storeWords p v ks m) a = readByte m a := by
  induction ks generalizing m with
  | nil => rfl
  | cons k ks ih =>
    rw [storeWords, List.foldl_cons, ← storeWords, ih _ fun k' hk' => ha k' (List.mem_cons_of_mem _ hk'),
      readByte_writeInBuf_outside _ _ _ _ (ha k List.mem_cons_self)]

/-- One `WR` to a word of IN_BUF while IDLE (R72, R121). -/
theorem step_writeInBuf {s : State} (hs : s.seq = .idle) {k : Nat} (hk : k < 0x4000) (v : Word) {rest : List HostStmt}
    (hh : s.host = stmtWR s.params (0x10000 + BitVec.ofNat 18 (4 * k)) v :: rest) :
    step s = .next { s with host := rest, mem := writeInBuf s.params k v s.mem, delay := s.delay - 1 } := by
  have word : target (0x10000 + BitVec.ofNat 18 (4 * k)) = .inBuf k := by
    refine target_inBuf k hk ?_
    rw [BitVec.toNat_add, BitVec.toNat_ofNat, show (0x10000 : Offset).toNat = 0x10000 from rfl]
    omega
  have selected : offsetOf? (s.tick rest).params (s.params.base + (0x10000 + BitVec.ofNat 18 (4 * k) : Offset).toNat) =
      some (0x10000 + BitVec.ofNat 18 (4 * k)) := offsetOf?_base s.params _
  rw [step_host (coreTurn_eq_false (Or.inl hs)), hostTurn_access hh]
  rw [busAccess_write v selected, memWrite_idle (s := s.tick rest) hs, word]
  rfl

/-- A list of `WR` statements to words of IN_BUF, run while IDLE. -/
theorem run_storeWords (v : Nat → Word) {ks : List Nat} (hk : ∀ k ∈ ks, k < 0x4000) {s : State} (hs : s.seq = .idle)
    (hh : s.host = ks.map fun k => stmtWR s.params (0x10000 + BitVec.ofNat 18 (4 * k)) (v k)) :
    Host.Core.run Sys2Proof.core ks.length s =
      .next { s with host := [], mem := storeWords s.params v ks s.mem, delay := s.delay - ks.length } := by
  induction ks generalizing s with
  | nil => exact congrArg (fun l => Host.Outcome.next { s with host := l }) hh
  | cons k ks ih =>
    have first := step_writeInBuf hs (hk k List.mem_cons_self) (v k) hh
    have later := ih (fun k' hk' => hk k' (List.mem_cons_of_mem _ hk'))
      (s := { s with
        host := ks.map fun k => stmtWR s.params (0x10000 + BitVec.ofNat 18 (4 * k)) (v k)
        mem := writeInBuf s.params k (v k) s.mem, delay := s.delay - 1 }) hs rfl
    rw [Nat.sub_sub, Nat.add_comm 1] at later
    exact (run_succ first ks.length).trans later

/-- The words of a byte list, stored from word 0 on, leave the list in IN_BUF (R51, R74). -/
theorem inBytes_storeWords (p : Params) {bs : List Byte} (h : bs.length ≤ p.inCap) (m : Memory) :
    inBytes p (storeWords p (lanes fun j => bs.getD j 0) (List.range ((bs.length + 3) / 4)) m) bs.length = bs := by
  unfold inBytes
  refine List.ext_getElem (by simp) fun j _ hj => ?_
  have written : j < p.inCap ∧ j / 4 ∈ List.range ((bs.length + 3) / 4) := ⟨by omega, List.mem_range.mpr (by omega)⟩
  have lane_j := lanes_extract (fun j => bs.getD j 0) (j / 4) (Nat.mod_lt j (show 0 < 4 by decide))
  rw [Nat.div_add_mod] at lane_j
  rw [List.getElem_map, List.getElem_range, inByte_storeWords, if_pos written, lane, lane_j,
    List.getD_eq_getElem _ _ hj]

end Sys2Proof.Machine

namespace Sys2Proof

open Machine

/-- Settles O21: bit 0 of what WAIT reads is SEQ, which decides whether it stays. -/
theorem waitPollsStatus : Obligations.WaitPollsStatus := by
  unfold Obligations.WaitPollsStatus
  refine fun s rest hh => ⟨fun hs => ?idle, fun hb hd => ?busy⟩
  case idle =>
    rw [step_host (coreTurn_eq_false (Or.inl hs)), hostTurn_wait_eq hh, (busy_false s).mpr hs]
    rfl
  case busy =>
    rw [step_host (coreTurn_eq_false (Or.inr ⟨hd, by simp [hh]⟩)), hostTurn_wait_eq hh, (busy_eq s).mpr hb, if_pos rfl,
      ← hh]
    rfl

/-- Settles O23, by induction on the word writes: each stores its word's lanes and touches no other byte. -/
theorem wrbLoadsInBuf : Obligations.WrbLoadsInBuf := by
  unfold Obligations.WrbLoadsInBuf
  intro s bs hs hlen
  have inCap := s.params.inCap_le
  have inWindow : ∀ k ∈ List.range ((bs.length + 3) / 4), k < 0x4000 := fun k hk => by
    rw [List.mem_range] at hk
    omega
  have run := run_storeWords (lanes fun j => bs.getD j 0) inWindow
    (s := { s with host := progWRB s.params 0x10000 bs }) hs rfl
  rw [progWRB, List.length_map]
  refine ⟨_, run, rfl, rfl, inBytes_storeWords s.params hlen s.mem, fun a ha => ?outside⟩
  case outside =>
    refine readByte_storeWords_outside s.params _ s.mem fun k hk => ?_
    rw [List.mem_range] at hk
    omega

end Sys2Proof
end

section
/-! PROOFS. What each command may change (30_encoding.md R107; 20_memory.md R78; 10_state.md R34). -/

namespace Sys2Proof.Machine

/-- The registers no command writes, the host and the environment are kept, whatever the command answers (R107). -/
theorem Answer.frame {i : Instr} {s t : State} (h : Answer s i t) :
    t = { s with
          seq := .idle, done := true
          errCode := t.errCode, errInfo := t.errInfo, errPos := t.errPos
          outLen := t.outLen, outBits := t.outBits, decTail := t.decTail
          rootValid := t.rootValid, rootIdx := t.rootIdx, nleaf := t.nleaf, nnode := t.nnode
          ncodes := t.ncodes, maxlen := t.maxlen
          mem := t.mem, draws := t.draws } := by
  cases h with
  | error _ e hi _ => obtain rfl | rfl | rfl | rfl | rfl := hi <;> rfl
  | _ => rfl

/-- NOP and the CLR commands raise nothing (R107). -/
theorem Answer.errors_kept {i : Instr} {s t : State} (h : Answer s i t) (hi : i ∈ [.nop, .clrFreq, .clrTree, .clrCodes]) :
    t.errCode = s.errCode ∧ t.errInfo = s.errInfo ∧ t.errPos = s.errPos := by
  cases h with
  | error _ e he _ => obtain rfl | rfl | rfl | rfl | rfl := he <;> simp at hi
  | _ => exact ⟨rfl, rfl, rfl⟩

/-- Only ENCODE, DECODE and DECODE.ALL write the output counts, and only their failures draw free values (R78, R244). -/
theorem Answer.output_kept {i : Instr} {s t : State} (h : Answer s i t) (hi : i ∉ [.encode, .decode, .decodeAll]) :
    t.outLen = s.outLen ∧ t.outBits = s.outBits ∧ t.decTail = s.decTail ∧ t.draws = s.draws := by
  cases h with
  | encode => simp at hi
  | decode _ n d hd => obtain rfl | rfl := hd <;> simp at hi
  | error _ e he _ =>
    obtain rfl | rfl | he := he
    · exact ⟨rfl, rfl, rfl, rfl⟩
    · exact ⟨rfl, rfl, rfl, rfl⟩
    · exact absurd (by simpa using he) hi
  | _ => exact ⟨rfl, rfl, rfl, rfl⟩

/-- Only BUILD_TREE and CLR_TREE write ROOT, NLEAF and NNODE (R78). -/
theorem Answer.tree_kept {i : Instr} {s t : State} (h : Answer s i t) (hi : i ∉ [.buildTree, .clrTree]) :
    t.rootValid = s.rootValid ∧ t.rootIdx = s.rootIdx ∧ t.nleaf = s.nleaf ∧ t.nnode = s.nnode := by
  cases h with
  | buildTree => simp at hi
  | clrTree => simp at hi
  | error => exact ⟨raise_rootValid _ _ _, raise_rootIdx _ _ _, raise_nleaf _ _ _, raise_nnode _ _ _⟩
  | _ => exact ⟨rfl, rfl, rfl, rfl⟩

/-- Only GEN_CODES and CLR_CODES write NCODES and MAXLEN (R78). -/
theorem Answer.codes_kept {i : Instr} {s t : State} (h : Answer s i t) (hi : i ∉ [.genCodes, .clrCodes]) :
    t.ncodes = s.ncodes ∧ t.maxlen = s.maxlen :=
  h.codeCounts.resolve_right fun ⟨hw, _⟩ => hi (by simpa using hw)

/-- The RAMs of a command's write set lie in its ranges of offsets (R78). -/
theorem ramWriteSet_of_owns {p : Params} {i : Instr} {r : Ram} (hr : r ∈ writeRams (some i)) {a : Nat}
    (ha : r.owns p a = true) : ramWriteSet p i a := by
  cases i <;> simp only [writeRams, List.mem_cons, List.not_mem_nil, or_false] at hr
  case genCodes | clrCodes =>
    obtain rfl | rfl := hr <;> simp only [Ram.owns, Bool.and_eq_true, decide_eq_true_eq] at ha
    · exact Or.inl ha.1
    · exact Or.inr ha
  all_goals
    subst hr
    simpa [Ram.owns, ramWriteSet] using ha

theorem Answer.byte_kept {i : Instr} {s t : State} (h : Answer s i t) {a : Nat} (ha : ¬ ramWriteSet s.params i a) :
    readByte t.mem a = readByte s.mem a := by
  have unowned : ∀ r ∈ writeRams (some i), r.owns s.params a = false := fun r hr =>
    Bool.eq_false_iff.mpr fun ho => ha (ramWriteSet_of_owns hr ho)
  exact h.mem (fun r hr => Ram.keeps_byte (unowned r hr) (readByte s.mem a)) rfl

end Sys2Proof.Machine

namespace Sys2Proof

open Machine

/-- Settles O28: whatever a command answers, it writes its own registers and RAMs alone. -/
theorem commandFrame : Obligations.CommandFrame := by
  unfold Obligations.CommandFrame
  intro i s t h
  have ha := answer_of_exec h
  exact ⟨ha.frame, ha.errors_kept, ha.output_kept, ha.tree_kept, ha.codes_kept, fun _ => ha.byte_kept⟩

end Sys2Proof
end

section
/-! PROOFS. What BUILD_TREE leaves, and GEN_CODES right after it (40_tree_builder.md R130 to R133). -/

namespace Sys2Proof.Machine

/-! ## The present symbols (R131) -/

theorem mem_present {m : Memory} {y : Byte} : y ∈ present m ↔ freq m y ≠ 0 := by
  simp [present, mem_symbols]

theorem present_nodup (m : Memory) : (present m).Nodup := symbols_nodup.filter _

theorem one_le_present {m : Memory} (h : ∃ y, freq m y ≠ 0) : 1 ≤ (present m).length :=
  have ⟨_, hy⟩ := h
  List.length_pos_of_mem (mem_present.mpr hy)

/-- Absent symbols add nothing to a sum weighted by FREQ. -/
theorem sum_present (m : Memory) (f : Byte → Nat) :
    ((present m).map (fun y => (freq m y).toNat * f y)).sum = (symbols.map (fun y => (freq m y).toNat * f y)).sum := by
  unfold present
  induction symbols with
  | nil => rfl
  | cons y l ih =>
    by_cases hy : freq m y = 0
    · rw [List.filter_cons_of_neg (by simp [hy]), ih]
      simp [hy]
    · rw [List.filter_cons_of_pos (by exact bne_iff_ne.mpr hy), List.map_cons, List.map_cons, List.sum_cons,
        List.sum_cons, ih]

/-! ## The answer of BUILD_TREE (R131) -/

/-- The state after a BUILD_TREE that finds a present symbol. -/
def buildTreeDone (s : State) : State :=
  complete
    { s with
      mem := (built s.params s.mem).mem
      rootValid := true
      rootIdx := BitVec.ofNat 9 (built s.params s.mem).root
      nleaf := BitVec.ofNat 9 (present s.mem).length
      nnode := BitVec.ofNat 10 (2 * (present s.mem).length - 1) }

theorem exec_buildTree {s : State} (hn : 1 ≤ (present s.mem).length) : exec .buildTree s = .next (buildTreeDone s) :=
  if_neg (by omega)

theorem exec_buildTree_empty {s : State} (hn : present s.mem = []) :
    exec .buildTree s = .next (raise (some .buildTree) .emptyInput s) :=
  if_pos (by rw [hn]; rfl)

theorem eq_buildTreeDone {s t : State} (hn : 1 ≤ (present s.mem).length) (h : exec .buildTree s = .next t) :
    t = buildTreeDone s := by
  rw [exec_buildTree hn] at h
  injection h with h
  exact h.symm

/-! ## The built arena (R132) -/

/-- The root is the node written last. -/
theorem built_root (p : Params) {m : Memory} (hn : 1 ≤ (present m).length) :
    (BitVec.ofNat 9 (built p m).root : NodeIdx).toNat = 2 * (present m).length - 2 := by
  obtain ⟨-, -, e, hq, hidx⟩ := built_inv p hn
  have hle := present_length_le m
  rw [Builder.root, hq, BitVec.toNat_ofNat]
  dsimp only
  omega

/-- The forest of the finished merge is one tree, with the weight of the one entry left. -/
theorem built_tree (p : Params) {m : Memory} (hn : 1 ≤ (present m).length) :
    ∃ (e : QEntry) (T : HuffmanTree), (built p m).queue = [e] ∧
      T.Represents (built p m).mem (BitVec.ofNat 9 (built p m).root) ∧ T.symbols.Perm (present m) ∧
      e.wgt.toNat = T.weight m ∧ T.depth + 1 ≤ (present m).length := by
  obtain ⟨hinv, -, e, hq, -⟩ := built_inv p hn
  obtain ⟨F, hqueue, hsym, -, htree⟩ := hinv.forest
  rw [hq] at hqueue
  obtain ⟨⟨e', T⟩, rfl⟩ := List.length_eq_one_iff.mp (show F.length = 1 by simpa using hqueue.length_eq)
  obtain rfl : e' = e := by simpa using hqueue
  replace hsym : T.symbols.Perm (present m) := by simpa using hsym
  obtain ⟨hrep, hw, hd⟩ := htree _ (List.mem_singleton_self _)
  exact ⟨e', T, hq, by rwa [Builder.root, hq], hsym, hw, hsym.length_eq ▸ hd⟩

/-! ## Trees as codes (R133, R150, R151) -/

/-- No path is longer than the tree is deep. -/
theorem HuffmanTree.length_le_depth {T : HuffmanTree} {x : Byte × List Bool} (hx : x ∈ T.leaves) :
    x.2.length ≤ T.depth := by
  induction T generalizing x with
  | leaf y =>
    rw [HuffmanTree.leaves, List.mem_singleton] at hx
    subst hx
    exact Nat.zero_le _
  | node l r ihl ihr =>
    rw [HuffmanTree.leaves, List.mem_append, List.mem_map, List.mem_map] at hx
    rw [HuffmanTree.depth]
    obtain ⟨x, hx, rfl⟩ | ⟨x, hx, rfl⟩ := hx
    · have := ihl hx
      simp only [List.length_cons]
      omega
    · have := ihr hx
      simp only [List.length_cons]
      omega

/-- Below an internal root every path has a first bit. -/
theorem HuffmanTree.path_ne_nil {l r : HuffmanTree} {x : Byte × List Bool} (hx : x ∈ (HuffmanTree.node l r).leaves) :
    x.2 ≠ [] := by
  rw [HuffmanTree.leaves, List.mem_append, List.mem_map, List.mem_map] at hx
  obtain ⟨x, -, rfl⟩ | ⟨x, -, rfl⟩ := hx <;> exact List.cons_ne_nil _ _

/-- No code of a tree begins the code of another symbol (R133, R153). -/
theorem HuffmanTree.codes_prefixFree (T : HuffmanTree) {x x' : Byte × List Bool} (hx : x ∈ T.codes)
    (hx' : x' ∈ T.codes) (hne : x.1 ≠ x'.1) : ¬ x.2 <+: x'.2 := by
  cases T with
  | leaf y =>
    rw [HuffmanTree.codes, List.mem_singleton] at hx hx'
    exact absurd (by rw [hx, hx']) hne
  | node l r =>
    have : Std.Symm (fun x y : Byte × List Bool => apart x.2 y.2) := ⟨fun _ _ => apart.symm⟩
    exact ((HuffmanTree.node l r).leaves_apart.forall hx hx' (fun e => hne (congrArg Prod.fst e))).1

/-- Where no assignment of lengths that meets the Kraft inequality is cheaper than the paths of a tree over the present
symbols, no assignment of non-empty words none of which begins another is cheaper than the code of the tree. -/
theorem HuffmanTree.codes_cost_le {m : Memory} {T : HuffmanTree} (hsym : T.symbols.Perm (present m))
    (hopt : ∀ P : List (Nat × Nat), (P.map Prod.fst).Perm ((present m).map (fun y => (freq m y).toNat)) → Kraft P →
      T.cost m ≤ lenCost P)
    {code : Byte → List Bool} (hne : ∀ y ∈ present m, code y ≠ [])
    (hpf : ∀ y ∈ present m, ∀ z ∈ present m, y ≠ z → ¬ code y <+: code z) :
    (T.codes.map (fun x => (freq m x.1).toNat * x.2.length)).sum ≤
      ((present m).map (fun y => (freq m y).toNat * (code y).length)).sum := by
  cases T with
  | leaf y =>
    have hy : present m = [y] := List.perm_singleton.mp hsym.symm
    have hlen : 1 ≤ (code y).length := List.length_pos_of_ne_nil (hne y (by simp [hy]))
    simpa [hy, HuffmanTree.codes] using Nat.mul_le_mul_left (freq m y).toNat hlen
  | node l r =>
    have h := hopt ((present m).map fun y => ((freq m y).toNat, (code y).length)) (by rw [List.map_map]; rfl)
      (kraft_of_code _ _ _ (present_nodup m) hpf)
    rwa [lenCost, List.map_map] at h

/-! ## GEN_CODES on an arena that holds a tree (R152) -/

/-- The traversal of a tree with distinct symbols and no leaf deeper than 255 gives a code to its symbols alone. -/
theorem genTable_tree {m : Memory} {T : HuffmanTree} {r : NodeIdx} (hT : T.Represents m r) (hn : T.symbols.Nodup)
    (hd : T.depth ≤ 255) (hm : ∀ y, codeLen m y = 0) :
    ∃ u, genTable m true r = .ok u ∧ ∀ y, codeLen u.mem y ≠ 0 ↔ y ∈ T.symbols := by
  cases T with
  | leaf z =>
    obtain ⟨hl, rfl⟩ := hT
    refine ⟨_, if_pos hl, fun y => ?_⟩
    rw [codeLen_record]
    split
    · rename_i e
      simp [HuffmanTree.symbols, HuffmanTree.leaves, e]
    · rename_i e
      simp [HuffmanTree.symbols, HuffmanTree.leaves, hm y, Ne.symm e]
  | node l r' =>
    have hsize := (HuffmanTree.node l r').size_eq
    have hleaves := HuffmanTree.leaves_le hn
    have hwalk := genWalk_tree (HuffmanTree.node l r') (i := r) (d := 0) 0 (511 - (HuffmanTree.node l r').size) []
      ⟨m, 0, 0⟩ hT (by omega) hn (fun y _ => hm y)
    rw [genWalk_nil, Nat.sub_add_cancel (by omega)] at hwalk
    refine ⟨_, (if_neg (by rw [isLeaf_eq_false_of_isInt hT.1]; decide)).trans hwalk, fun y => ?_⟩
    by_cases hy : y ∈ (HuffmanTree.node l r').symbols
    · obtain ⟨x, hx, rfl⟩ := List.mem_map.mp hy
      obtain ⟨-, hlen, -⟩ := codeOf_recordTree (HuffmanTree.node l r') (d := 0) 0 ⟨m, 0, 0⟩ (by omega) hn hx
      have hpos := List.length_pos_of_ne_nil (HuffmanTree.path_ne_nil hx)
      have hle := HuffmanTree.length_le_depth hx
      refine iff_of_true (fun h0 => ?_) hy
      rw [hlen, ← BitVec.toNat_inj, BitVec.toNat_ofNat] at h0
      change _ = 0 at h0
      omega
    · refine iff_of_false (not_not.mpr ?_) hy
      rw [(codeLen_recordTree _ _ _ _ hy).1]
      exact hm y

/-- GEN_CODES on such a tree succeeds. -/
theorem exec_genCodes_tree {s : State} {T : HuffmanTree} (hv : s.rootValid = true)
    (hT : T.Represents (clearCodes s).mem s.rootIdx) (hn : T.symbols.Nodup) (hd : T.depth ≤ 255) :
    ∃ u, exec .genCodes s = .next u ∧ u.errCode = s.errCode ∧ ∀ y, codeLen u.mem y ≠ 0 ↔ y ∈ T.symbols := by
  obtain ⟨u, hu, hcodes⟩ := genTable_tree hT hn hd (codeLen_clearCodes s)
  refine ⟨complete { s with mem := u.mem, ncodes := BitVec.ofNat 9 u.count, maxlen := BitVec.ofNat 8 u.maxl },
    ?_, rfl, hcodes⟩
  rw [exec, execGenCodes, hv, hu]

end Sys2Proof.Machine

namespace Sys2Proof

open Machine

/-- Settles O38: the invariant of the merge, and the one tree of the finished forest. -/
theorem builtArenaIsStrictTree : Obligations.BuiltArenaIsStrictTree := by
  unfold Obligations.BuiltArenaIsStrictTree
  rintro s t n (rfl : n = (present s.mem).length) hn h
  obtain rfl := eq_buildTreeDone hn h
  obtain ⟨hinv, hnext, e, hq, hidx⟩ := built_inv s.params hn
  obtain ⟨-, T, -, hrep, hsym, -, hd⟩ := built_tree s.params hn
  refine ⟨fun i h1 h2 => hinv.inner i h1 (by omega), fun j hj => ?_, T, hrep, hsym, Nat.le_sub_one_of_lt hd⟩
  -- a node without a parent is in the queue, where only the root is left
  have hparent : ¬ ∀ k, ¬ childOf (built s.params s.mem).mem j k := fun hno => by
    have := (hinv.orphan j (by omega)).mpr hno
    rw [hq, List.map_singleton, List.mem_singleton] at this
    omega
  obtain ⟨i, hi⟩ := not_forall_not.mp hparent
  exact ⟨i, hi, fun i' hi' => hinv.parent j i' i hi' hi⟩

/-- Settles O39: the order of every merge is part of the merge's invariant. -/
theorem buildTreeMergesLeastTwo : Obligations.BuildTreeMergesLeastTwo := by
  unfold Obligations.BuildTreeMergesLeastTwo
  rintro s t n (rfl : n = (present s.mem).length) hn h i h1 h2
  obtain rfl := eq_buildTreeDone hn h
  obtain ⟨hinv, hnext, -⟩ := built_inv s.params hn
  exact hinv.merged i h1 (by omega)

/-- Settles O40: words none of which begins another meet the Kraft inequality, and no lengths that meet it cost less than
the paths of the built tree. -/
theorem buildTreeIsOptimal : Obligations.BuildTreeIsOptimal := by
  unfold Obligations.BuildTreeIsOptimal
  intro s t hpresent h
  have hn := one_le_present hpresent
  obtain rfl := eq_buildTreeDone hn h
  obtain ⟨T, hrep, hsym, hopt⟩ := built_optimal s.params hn
  refine ⟨T, hrep, hsym, fun x hx x' hx' => T.codes_prefixFree hx hx', fun code hne hpf => ?_⟩
  rw [← sum_present]
  exact HuffmanTree.codes_cost_le hsym hopt (fun y hy => hne y (mem_present.mp hy))
    (fun y hy z hz => hpf y z (mem_present.mp hy) (mem_present.mp hz))

/-- Settles O36: with no symbol present the command is `raise EMPTY_INPUT(0, 0)`, which has no failure action. -/
theorem buildTreeEmptyInput : Obligations.BuildTreeEmptyInput := by
  unfold Obligations.BuildTreeEmptyInput
  intro s h
  rw [exec_buildTree_empty (List.eq_nil_iff_forall_not_mem.mpr fun y hy => mem_present.mp hy (h y)), raise_buildTree]
  rfl

/-- Settles O37: the registers of the answer, the words of the merge's invariant, and the frame of the command. -/
theorem buildTreeCompletes : Obligations.BuildTreeCompletes := by
  unfold Obligations.BuildTreeCompletes
  rintro s ps (rfl : ps = present s.mem) hne
  have hn : 1 ≤ (present s.mem).length := List.length_pos_of_ne_nil hne
  have hle := present_length_le s.mem
  have hx := exec_buildTree hn
  obtain ⟨hinv, hnext, -⟩ := built_inv s.params hn
  refine ⟨_, hx, rfl, built_root s.params hn, ?_, ?_, hinv.leaf, fun i hi => hinv.empty i (hnext ▸ hi),
    fun a ha => (answer_of_exec hx).byte_kept ha⟩
  · exact Nat.mod_eq_of_lt (by omega)
  · exact Nat.mod_eq_of_lt (by omega)

/-- Settles O41: the entry left in Q has the weight of the built tree, whose leaves are the present symbols. -/
theorem mergeWeightIsExact : Obligations.MergeWeightIsExact := by
  unfold Obligations.MergeWeightIsExact
  intro p m hpresent
  obtain ⟨e, T, hq, -, hsym, hw, -⟩ := built_tree p (one_le_present hpresent)
  refine ⟨e, hq, ?_⟩
  rw [hw, HuffmanTree.weight, (hsym.map _).sum_eq]
  simpa using sum_present m (fun _ => 1)

/-- Settles O47: the built tree has distinct symbols and no leaf deeper than 255, so its traversal meets no error. -/
theorem genCodesAfterBuildTreeSucceeds : Obligations.GenCodesAfterBuildTreeSucceeds := by
  unfold Obligations.GenCodesAfterBuildTreeSucceeds
  intro s t hpresent h
  have hn := one_le_present hpresent
  have hle := present_length_le s.mem
  obtain rfl := eq_buildTreeDone hn h
  obtain ⟨hinv, -⟩ := built_inv s.params hn
  obtain ⟨-, T, -, hrep, hsym, -, hd⟩ := built_tree s.params hn
  have hrep' : T.Represents (clearCodes (buildTreeDone s)).mem (buildTreeDone s).rootIdx :=
    T.Represents_congr hinv.descending (fun i _ => node_clearCodes (buildTreeDone s) i) (BitVec.isLt _) hrep
  obtain ⟨u, hu, herr, hcodes⟩ := exec_genCodes_tree rfl hrep' (hsym.nodup_iff.mpr (present_nodup _)) (by omega)
  exact ⟨u, hu, herr, fun y => by rw [hcodes, hsym.mem_iff, mem_present]⟩

end Sys2Proof
end

section
/-! PROOFS. The code table GEN_CODES leaves (41_code_table.md R150, R151, R153). -/

namespace Sys2Proof.Machine

/-! ## The answer of GEN_CODES (R152) -/

/-- The state after a GEN_CODES whose traversal ends with the table `u`. -/
def genCodesDone (s : State) (u : Table) : State :=
  complete { s with mem := u.mem, ncodes := BitVec.ofNat 9 u.count, maxlen := BitVec.ofNat 8 u.maxl }

theorem exec_genCodes_ok {s : State} {u : Table} (h : genTable (clearCodes s).mem s.rootValid s.rootIdx = .ok u) :
    exec .genCodes s = .next (genCodesDone s u) := by
  rw [exec, execGenCodes, h]
  rfl

theorem exec_genCodes_error {s : State} {e : Raise}
    (h : genTable (clearCodes s).mem s.rootValid s.rootIdx = .error e) :
    exec .genCodes s = .next (raise (some .genCodes) e s) := by
  rw [exec, execGenCodes, h]

/-- Everything GEN_CODES can answer, with the outcome of its traversal. -/
theorem exec_genCodes_cases (s : State) :
    (∃ u, genTable (clearCodes s).mem s.rootValid s.rootIdx = .ok u ∧ exec .genCodes s = .next (genCodesDone s u)) ∨
    (∃ e, genTable (clearCodes s).mem s.rootValid s.rootIdx = .error e ∧
      exec .genCodes s = .next (raise (some .genCodes) e s)) := by
  cases h : genTable (clearCodes s).mem s.rootValid s.rootIdx with
  | ok u => exact Or.inl ⟨u, rfl, exec_genCodes_ok h⟩
  | error e => exact Or.inr ⟨e, rfl, exec_genCodes_error h⟩

/-! ## A tree of two or more leaves (R150) -/

/-- Memories with the same NODE words hold the same trees. -/
theorem HuffmanTree.Represents_of_node_eq {m m' : Memory} (hn : ∀ i, Machine.node m' i = Machine.node m i)
    {T : HuffmanTree} {i : NodeIdx} (hT : T.Represents m i) : T.Represents m' i := by
  induction T generalizing i with
  | leaf y =>
    rw [HuffmanTree.Represents, hn i]
    exact hT
  | node l r ihl ihr =>
    obtain ⟨hi, hl, hr⟩ := hT
    rw [HuffmanTree.Represents, hn i]
    exact ⟨hi, ihl hl, ihr hr⟩

/-- From a cleared table the traversal of such a tree, 511 visits at most, records the tree. -/
theorem genTable_node {m : Memory} {l r : HuffmanTree} {i : NodeIdx} (hT : (HuffmanTree.node l r).Represents m i)
    (hn : (HuffmanTree.node l r).symbols.Nodup) (hd : (HuffmanTree.node l r).depth ≤ 255) (hm : ∀ y, codeLen m y = 0) :
    genTable m true i = .ok (recordTree (.node l r) 0 0 ⟨m, 0, 0⟩) := by
  have hsize := (HuffmanTree.node l r).size_eq
  have hleaves := HuffmanTree.leaves_le hn
  have hwalk := genWalk_tree (HuffmanTree.node l r) (d := 0) 0 (511 - (HuffmanTree.node l r).size) [] ⟨m, 0, 0⟩ hT
    (by omega) hn (fun y _ => hm y)
  rw [genWalk_nil, Nat.sub_add_cancel (by omega)] at hwalk
  have hroot : ¬ isLeaf (node m i) = true := by
    rw [isLeaf_eq_false_of_isInt hT.1]
    decide
  exact (if_neg hroot).trans hwalk

/-- The entry of a leaf in the table of such a tree: its path, which is not empty, in the low bits of its word. -/
theorem recordTree_entry {m : Memory} {l r : HuffmanTree} (hn : (HuffmanTree.node l r).symbols.Nodup)
    (hd : (HuffmanTree.node l r).depth ≤ 255) {y : Byte} {c : List Bool} (hy : (y, c) ∈ (HuffmanTree.node l r).leaves) :
    let u := recordTree (.node l r) 0 0 ⟨m, 0, 0⟩
    codeOf u.mem y = c ∧ codeLen u.mem y ≠ 0 ∧ (codeVal u.mem y).toNat < 2 ^ (codeLen u.mem y).toNat := by
  intro u
  obtain ⟨hcode, -, w, hw, hval⟩ := codeOf_recordTree (HuffmanTree.node l r) (d := 0) 0 ⟨m, 0, 0⟩ (by omega) hn hy
  replace hcode : codeOf u.mem y = c := hcode
  have hlen : (codeLen u.mem y).toNat = c.length := by rw [← codeOf_length, hcode]
  refine ⟨hcode, fun h0 => HuffmanTree.path_ne_nil hy (List.length_eq_zero_iff.mp ?_), ?_⟩
  · rw [← hlen, h0]
    rfl
  · rw [hlen, hval, BitVec.toNat_ofNat]
    exact (Nat.mod_le _ _).trans_lt (by simpa using hw)

/-! ## A lone leaf (R151) -/

/-- From a cleared table a lone leaf ends the command with one code, "0". -/
theorem genTable_lone {m : Memory} {r : NodeIdx} (hl : isLeaf (node m r) = true) (hlen : ∀ y, codeLen m y = 0)
    (hval : ∀ y, codeVal m y = 0) :
    ∃ u, genTable m true r = .ok u ∧ u.count = 1 ∧ u.maxl = 1 ∧
      (∀ y, codeLen u.mem y = if y = nodeSym (node m r) then 1 else 0) ∧ ∀ y, codeVal u.mem y = 0 := by
  refine ⟨_, if_pos hl, rfl, rfl, fun y => ?_, fun y => ?_⟩
  · rw [codeLen_record, hlen]
    exact if_congr eq_comm rfl rfl
  · rw [codeVal_record, hval]
    exact ite_self 0

/-! ## Any arena (R153) -/

theorem codedCount_eq_zero {m : Memory} (hm : ∀ y, codeLen m y = 0) : codedCount m = 0 := by
  simp [codedCount, hm]

/-- One code in an empty table is apart from all others. -/
theorem WalkInv.lone {m : Memory} (hm : ∀ y, codeLen m y = 0) (z : Byte) :
    WalkInv m [] ((⟨m, 0, 0⟩ : Table).record z 1 0) where
  codes := fun x y hx hy hne => by
    have coded : ∀ y, codeLen ((⟨m, 0, 0⟩ : Table).record z 1 0).mem y ≠ 0 → z = y := fun y hy => by
      by_contra hne
      exact hy (by rw [codeLen_record, if_neg hne, hm])
    exact absurd ((coded x hx).symm.trans (coded y hy)) hne
  cross := fun _ _ _ hv => absurd hv List.not_mem_nil
  stack := .nil
  deep := fun _ hv => absurd hv List.not_mem_nil
  count := by
    rw [record_count, codedCount_record _ 0 (hm z) (by decide) (by decide), codedCount_eq_zero hm]

/-- A traversal of a cleared table that meets no error ends with the invariant of the walk. -/
theorem genTable_inv {m : Memory} {b : Bool} {r : NodeIdx} {u : Table} (h : genTable m b r = .ok u)
    (hm : ∀ y, codeLen m y = 0) : WalkInv m [] u := by
  unfold genTable at h
  dsimp only at h
  split at h
  · cases h
  split at h
  · injection h with h
    subst h
    exact WalkInv.lone hm _
  · rename_i hr
    exact (genWalk_inv h (WalkInv.start hm (by simpa using hr))).1

/-! ## A failure (R242, R244) -/

theorem treeInfo_toNat (c : Subcause) (i : NodeIdx) : (treeInfo c i).toNat = c.toByte.toNat * 2 ^ 24 + i.toNat := by
  have hi := i.isLt
  rw [treeInfo, BitVec.toNat_append, BitVec.toNat_append, BitVec.toNat_ofNat, Nat.zero_mod, Nat.zero_shiftLeft,
    Nat.zero_or, ← Nat.shiftLeft_add_eq_or_of_lt (by omega), Nat.shiftLeft_eq]

/-- ERR_INFO of INVALID_TREE as its two fields (R242). -/
theorem treeInfo_eq_or (c : Subcause) (i : NodeIdx) :
    treeInfo c i = c.toByte.setWidth 32 <<< 24 ||| i.setWidth 32 := by
  have hc := c.toByte.isLt
  have hi := i.isLt
  apply BitVec.eq_of_toNat_eq
  rw [BitVec.toNat_or, BitVec.toNat_shiftLeft, BitVec.toNat_setWidth, BitVec.toNat_setWidth, treeInfo_toNat,
    Nat.mod_eq_of_lt (a := i.toNat) (by omega), Nat.mod_eq_of_lt (a := c.toByte.toNat) (by omega), Nat.shiftLeft_eq,
    Nat.mod_eq_of_lt (by omega), ← Nat.shiftLeft_eq, Nat.shiftLeft_add_eq_or_of_lt (by omega)]

/-- ERR_INFO[31:24] is the subcause's number. -/
theorem treeInfo_div (c : Subcause) (i : NodeIdx) : (treeInfo c i).toNat / 2 ^ 24 = c.toByte.toNat := by
  have hi := i.isLt
  rw [treeInfo_toNat]
  omega

end Sys2Proof.Machine

namespace Sys2Proof

open Machine

/-- Settles O43: from the cleared table the traversal records the tree, whose entries are its paths. -/
theorem genCodesGivesPaths : Obligations.GenCodesGivesPaths := by
  unfold Obligations.GenCodesGivesPaths
  intro s l r hv hT hn hd
  have hcleared := codeLen_clearCodes s
  have hu := genTable_node (HuffmanTree.Represents_of_node_eq (node_clearCodes s) hT) hn hd hcleared
  rw [← hv] at hu
  have hx := exec_genCodes_ok hu
  have hleaves := HuffmanTree.leaves_le hn
  obtain ⟨hcount, hmaxl⟩ := recordTree_counts (HuffmanTree.node l r) 0 0 ⟨(clearCodes s).mem, 0, 0⟩
  refine ⟨_, hx, rfl, fun y c hy => recordTree_entry hn hd hy, fun y hy => ?absent, ?ncodes, ?maxlen,
    fun a ha => (answer_of_exec hx).byte_kept ha⟩
  case absent =>
    obtain ⟨hlen, hval⟩ := codeLen_recordTree (HuffmanTree.node l r) 0 0 ⟨(clearCodes s).mem, 0, 0⟩ hy
    exact ⟨hlen.trans (hcleared y), hval.trans (codeVal_clearCodes s y)⟩
  case ncodes =>
    rw [genCodesDone, complete_ncodes, BitVec.toNat_ofNat, hcount]
    dsimp only
    omega
  case maxlen =>
    rw [genCodesDone, complete_maxlen, BitVec.toNat_ofNat, hmaxl]
    dsimp only
    omega

/-- Settles O46: the invariant of the walk keeps all codes apart and counts them. -/
theorem generatedCodesArePrefixFree : Obligations.GeneratedCodesArePrefixFree := by
  unfold Obligations.GeneratedCodesArePrefixFree
  intro s t _ h hok
  obtain ⟨u, hu, hx⟩ | ⟨e, he, hx⟩ := exec_genCodes_cases s <;> rw [hx] at h <;> injection h with h <;> subst h
  case inr =>
    rw [raise_errCode, genTable_error_code he] at hok
    cases hok
  case inl =>
    have hinv := genTable_inv hu (codeLen_clearCodes s)
    obtain ⟨-, hle, -⟩ := genTable_counts hu (codeLen_clearCodes s)
    refine ⟨fun y z hy hz hne => (hinv.codes y z hy hz hne).1, fun y hy hnil => hy ?nonempty, ?ncodes⟩
    case nonempty =>
      apply BitVec.eq_of_toNat_eq
      rw [← codeOf_length, hnil]
      rfl
    case ncodes =>
      rw [genCodesDone, complete_ncodes, BitVec.toNat_ofNat, Nat.mod_eq_of_lt (by omega), hinv.count]
      rfl

/-- Settles O42: the one entry recorded in a cleared table. -/
theorem genCodesLoneLeaf : Obligations.GenCodesLoneLeaf := by
  unfold Obligations.GenCodesLoneLeaf
  intro s hv hl
  rw [← node_clearCodes] at hl ⊢
  obtain ⟨u, hu, hcount, hmaxl, hlen, hval⟩ := genTable_lone hl (codeLen_clearCodes s) (codeVal_clearCodes s)
  rw [← hv] at hu
  have hx := exec_genCodes_ok hu
  refine ⟨_, hx, ?_, hlen, hval, fun a ha => (answer_of_exec hx).byte_kept ha⟩
  rw [genCodesDone, hcount, hmaxl]
  rfl

/-- Settles O44: the traversal's errors are the five of R152, and `raise` in GEN_CODES clears the code table. -/
theorem genCodesFailureClearsTable : Obligations.GenCodesFailureClearsTable := by
  unfold Obligations.GenCodesFailureClearsTable
  refine ⟨fun s => ?any, fun s hv => ?noRoot⟩
  case any =>
    obtain ⟨u, hu, hx⟩ | ⟨e, he, hx⟩ := exec_genCodes_cases s
    · refine ⟨_, hx, Or.inl ⟨rfl, rfl, rfl, ?_⟩⟩
      by_contra hv
      rw [Bool.not_eq_true] at hv
      rw [hv] at hu
      cases hu
    · refine ⟨_, hx, Or.inr ⟨(raise_errCode _ _ _).trans (genTable_error_code he), ?_, rfl, rfl,
        fun y => ⟨codeLen_clearCodes s y, codeVal_clearCodes s y⟩⟩⟩
      rw [raise_errInfo]
      obtain ⟨-, rfl⟩ | ⟨-, c, i, pos, rfl, hc⟩ := genTable_error _ _ _ he
      · decide
      · rw [Raise.invalidTree, treeInfo_div]
        revert hc
        cases c <;> decide
  case noRoot =>
    have hu : genTable (clearCodes s).mem s.rootValid s.rootIdx = .error (.invalidTree .noRoot 0 0) := by
      rw [hv]
      rfl
    exact ⟨_, exec_genCodes_error hu, rfl⟩

end Sys2Proof
end

section
/-! PROOFS. Where the traversal of GEN_CODES stops (41_code_table.md R152; 60_exceptions.md R242, R243). -/

namespace Sys2Proof.Machine

/-! ## Visits -/

theorem visits_length_le (nd : NodeIdx → Word) (k : Nat) (st : List (NodeIdx × Nat)) :
    (visits nd k st).length ≤ k := by
  induction k generalizing st with
  | zero => exact Nat.le_refl 0
  | succ k ih =>
    cases st with
    | nil => exact Nat.zero_le _
    | cons v st => exact Nat.succ_le_succ (ih _)

/-- The visits of an internal node whose left child is itself: ever deeper. -/
theorem visits_self_left {nd : NodeIdx → Word} {r : NodeIdx} (hi : isInt (nd r) = true) (hl : nodeLeft (nd r) = r)
    (k d : Nat) (st : List (NodeIdx × Nat)) :
    visits nd k ((r, d) :: st) = (List.range' d k).map (fun n => (r, n)) := by
  induction k generalizing d st with
  | zero => rfl
  | succ k ih => rw [visits, if_pos hi, hl, ih, List.range'_succ, List.map_cons]

/-- Visits of internal nodes meet no symbol. -/
theorem leafSymbols_eq_nil {nd : NodeIdx → Word} {vs : List (NodeIdx × Nat)} (h : ∀ v ∈ vs, isInt (nd v.1) = true) :
    leafSymbols nd vs = [] := by
  rw [leafSymbols, List.map_eq_nil_iff, List.filter_eq_nil_iff]
  intro v hv
  rw [isLeaf_eq_false_of_isInt (h v hv)]
  decide

theorem CleanVisits_nil (nd : NodeIdx → Word) : CleanVisits nd [] :=
  ⟨fun _ hv => absurd hv List.not_mem_nil, List.nodup_nil⟩

/-! ## What the first error records -/

/-- GEN_CODES records INVALID_TREE with the subcause's word, the index and the depth of a visit. -/
def GenCodesFails (s : State) (subcause : Word) (i : NodeIdx) (d : Nat) : Prop :=
  ∃ t, exec .genCodes s = .next t ∧ t.errCode = .invalidTree ∧ t.errInfo = subcause ||| i.setWidth 32 ∧
    t.errPos = BitVec.ofNat 32 d

theorem genCodesFails_of_error {s : State} {c : Subcause} {i : NodeIdx} {d : Nat}
    (h : genTable (clearCodes s).mem s.rootValid s.rootIdx = .error (.invalidTree c i d)) :
    GenCodesFails s (c.toByte.setWidth 32 <<< 24) i d := by
  refine ⟨_, exec_genCodes_error h, raise_errCode _ _ _, ?_, raise_errPos _ _ _⟩
  rw [raise_errInfo]
  exact treeInfo_eq_or c i

/-- The visits of GEN_CODES on the arena of `s`, up to the one that would raise VISITS (R152). -/
def preorder (s : State) : List (NodeIdx × Nat) := visits (node s.mem) 512 [(s.rootIdx, 0)]

/-- The arena of `s`, whose root is no leaf, is visited without an error before visit `j`, which is node `i` at depth
`d`. -/
structure StopsAt (s : State) (j : Nat) (i : NodeIdx) (d : Nat) : Prop where
  rootValid : s.rootValid = true
  root : isLeaf (node s.mem s.rootIdx) = false
  visit : (preorder s)[j]? = some (i, d)
  clean : CleanVisits (node s.mem) ((preorder s).take j)

section
variable {s : State} {j : Nat} {i : NodeIdx} {d : Nat} (h : StopsAt s j i d)
include h

theorem StopsAt.lt : j < 512 :=
  have ⟨hj, _⟩ := List.getElem?_eq_some_iff.mp h.visit
  hj.trans_le (visits_length_le _ _ _)

/-- The loop reaches visit `j`, with a table that has codes for the symbols before it. -/
theorem StopsAt.genTable_eq :
    ∃ p st t, genTable (clearCodes s).mem s.rootValid s.rootIdx =
        genWalk (clearCodes s).mem (511 - j) (⟨i, d, p⟩ :: st) t ∧
      ∀ y, codeLen t.mem y ≠ 0 ↔ y ∈ leafSymbols (node s.mem) ((preorder s).take j) := by
  have hnode : node (clearCodes s).mem = node s.mem := funext (node_clearCodes s)
  obtain ⟨w, st, t, hwalk, hw, hcodes⟩ := genWalk_visits (m := (clearCodes s).mem) (j := j) (k := 511)
    (st := [⟨s.rootIdx, 0, 0⟩]) (t := ⟨(clearCodes s).mem, 0, 0⟩) (seen := []) (v := (i, d))
    (Nat.le_of_lt_succ h.lt) (fun y => iff_of_false (not_not.mpr (codeLen_clearCodes s y)) List.not_mem_nil)
    (fun w hw hl => by
      obtain rfl := List.mem_singleton.mp hw
      rw [hnode, h.root] at hl
      cases hl)
    (by rw [hnode]; exact h.visit) (by rw [hnode]; exact h.clean.1) (by rw [hnode]; exact h.clean.2)
  obtain ⟨rfl, rfl⟩ := Prod.mk.inj hw
  rw [hnode] at hcodes
  refine ⟨w.path, st, t, ?_, hcodes⟩
  rw [← hwalk, genTable, h.rootValid, hnode, h.root]
  rfl

theorem StopsAt.fails_visits (hj : j = 511) : GenCodesFails s 0x06000000 i d := by
  obtain ⟨p, st, t, hwalk, -⟩ := h.genTable_eq
  rw [hj] at hwalk
  exact genCodesFails_of_error (c := .visits) hwalk

theorem StopsAt.fails_depth (hj : j < 511) (hd : 255 < d) : GenCodesFails s 0x04000000 i d := by
  obtain ⟨p, st, t, hwalk, -⟩ := h.genTable_eq
  rw [show 511 - j = 510 - j + 1 by omega, genWalk_deep (v := ⟨i, d, p⟩) hd] at hwalk
  exact genCodesFails_of_error (c := .depth) hwalk

theorem StopsAt.fails_dupSymbol (hj : j < 511) (hd : d ≤ 255) (hl : isLeaf (node s.mem i) = true)
    (hy : nodeSym (node s.mem i) ∈ leafSymbols (node s.mem) ((preorder s).take j)) :
    GenCodesFails s 0x05000000 i d := by
  obtain ⟨p, st, t, hwalk, hcodes⟩ := h.genTable_eq
  rw [← node_clearCodes] at hl
  rw [← hcodes, ← node_clearCodes] at hy
  rw [show 511 - j = 510 - j + 1 by omega, genWalk_dup (v := ⟨i, d, p⟩) hd hl hy] at hwalk
  exact genCodesFails_of_error (c := .dupSymbol) hwalk

theorem StopsAt.fails_badTag (hj : j < 511) (hd : d ≤ 255) (hl : isLeaf (node s.mem i) = false)
    (hi : isInt (node s.mem i) = false) : GenCodesFails s 0x02000000 i d := by
  obtain ⟨p, st, t, hwalk, -⟩ := h.genTable_eq
  rw [← node_clearCodes] at hl hi
  rw [show 511 - j = 510 - j + 1 by omega, genWalk_badTag (v := ⟨i, d, p⟩) hd hl hi] at hwalk
  exact genCodesFails_of_error (c := .badTag) hwalk

end

/-! ## Three arenas (V15, V16, V18) -/

section
variable {s : State} (hv : s.rootValid = true)
include hv

/-- The first visit is the root's. -/
theorem stopsAt_root (hl : isLeaf (node s.mem s.rootIdx) = false) : StopsAt s 0 s.rootIdx 0 :=
  ⟨hv, hl, rfl, CleanVisits_nil _⟩

/-- An internal root with one leaf for its two children: the third visit is the second to that leaf. -/
theorem stopsAt_sameLeaf (hi : isInt (node s.mem s.rootIdx) = true)
    (hlr : nodeLeft (node s.mem s.rootIdx) = nodeRight (node s.mem s.rootIdx))
    (hl : isLeaf (node s.mem (nodeLeft (node s.mem s.rootIdx))) = true) :
    StopsAt s 2 (nodeLeft (node s.mem s.rootIdx)) 1 ∧
      leafSymbols (node s.mem) ((preorder s).take 2) = [nodeSym (node s.mem (nodeLeft (node s.mem s.rootIdx)))] := by
  have hint : ¬ isInt (node s.mem (nodeLeft (node s.mem s.rootIdx))) = true := fun hc => by
    rw [isLeaf_eq_false_of_isInt hc] at hl
    cases hl
  have hvis : preorder s =
      [(s.rootIdx, 0), (nodeLeft (node s.mem s.rootIdx), 1), (nodeLeft (node s.mem s.rootIdx), 1)] := by
    rw [preorder, visits, if_pos hi, ← hlr, visits, if_neg hint, visits, if_neg hint, visits]
  have hsym : leafSymbols (node s.mem) ((preorder s).take 2) =
      [nodeSym (node s.mem (nodeLeft (node s.mem s.rootIdx)))] := by
    simp [hvis, leafSymbols, isLeaf_eq_false_of_isInt hi, hl]
  refine ⟨⟨hv, isLeaf_eq_false_of_isInt hi, by rw [hvis]; rfl, fun v hmem => ?_, hsym ▸ List.nodup_singleton _⟩,
    hsym⟩
  rw [hvis] at hmem
  obtain rfl | rfl : v = (s.rootIdx, 0) ∨ v = (nodeLeft (node s.mem s.rootIdx), 1) := by simpa using hmem
  · exact ⟨Nat.zero_le 255, Or.inr hi⟩
  · exact ⟨Nat.le_add_left 1 254, Or.inl hl⟩

/-- An internal root that is its own left child: the visit at depth 256. -/
theorem stopsAt_selfLeft (hi : isInt (node s.mem s.rootIdx) = true)
    (hl : nodeLeft (node s.mem s.rootIdx) = s.rootIdx) : StopsAt s 256 s.rootIdx 256 := by
  have hvis : preorder s = (List.range' 0 512).map (fun n => (s.rootIdx, n)) := visits_self_left hi hl 512 0 []
  have htake : (preorder s).take 256 = (List.range' 0 256).map (fun n => (s.rootIdx, n)) := by
    rw [hvis, ← List.map_take, List.take_range'_of_length_ge (by decide)]
  have hself : ∀ v ∈ (List.range' 0 256).map (fun n => (s.rootIdx, n)), v.1 = s.rootIdx ∧ v.2 ≤ 255 := by
    intro v hmem
    obtain ⟨n, hn, rfl⟩ := List.mem_map.mp hmem
    rw [List.mem_range'_1] at hn
    exact ⟨rfl, by dsimp only; omega⟩
  refine ⟨hv, isLeaf_eq_false_of_isInt hi, ?_, ?_, ?_⟩
  · rw [hvis, List.getElem?_map, List.getElem?_range' (by decide)]
    rfl
  · rw [htake]
    exact fun v hmem => ⟨(hself v hmem).2, Or.inr ((hself v hmem).1 ▸ hi)⟩
  · rw [htake, leafSymbols_eq_nil fun v hmem => (hself v hmem).1 ▸ hi]
    exact List.nodup_nil

end

end Sys2Proof.Machine

namespace Sys2Proof

open Machine

/-- Settles O45: the loop stands at the first visit that meets an error, and records it. -/
theorem genCodesTraps : Obligations.GenCodesTraps := by
  unfold Obligations.GenCodesTraps
  intro s hv w
  refine ⟨fun hl hi => ?notNode, fun hi hlr hl => ?sameLeaf, fun hi hl _ => ?selfLeft, fun j i d hl => ?any⟩
  case notNode => exact (stopsAt_root hv hl).fails_badTag (by decide) (by decide) hl hi
  case sameLeaf =>
    obtain ⟨hstop, hsym⟩ := stopsAt_sameLeaf hv hi hlr hl
    exact hstop.fails_dupSymbol (by decide) (by decide) hl (hsym ▸ List.mem_singleton_self _)
  case selfLeft => exact (stopsAt_selfLeft hv hi hl).fails_depth (by decide) (by decide)
  case any =>
    intro vs hvis hclean fails
    have hstop : StopsAt s j i d := ⟨hv, hl, hvis, hclean⟩
    exact ⟨hstop.fails_visits, hstop.fails_depth, hstop.fails_dupSymbol, hstop.fails_badTag⟩

end Sys2Proof
end

section
/-! PROOFS. ENCODE: its output and its failures (42_encoder_packer.md R170 to R172; 60_exceptions.md R242 to R244). -/

namespace Sys2Proof.Machine

/-! ## The answer of ENCODE (R171) -/

/-- The state after an ENCODE that ends with the packer `k`. -/
def encodeDone (s : State) (k : Packer) : State :=
  complete
    { s with
      mem := k.mem
      outLen := BitVec.ofNat 17 ((k.len + 7) / 8)
      outBits := BitVec.ofNat 32 k.len
      decTail := 0 }

theorem exec_encode_ok {s : State} {k : Packer} (h : encodeRun s.params s.mem s.inLen.toNat = .ok k) :
    exec .encode s = .next (encodeDone s k) := by
  rw [exec, execEncode, h]
  rfl

theorem exec_encode_error {s : State} {e : Raise} (h : encodeRun s.params s.mem s.inLen.toNat = .error e) :
    exec .encode s = .next (raise (some .encode) e s) := by
  rw [exec, execEncode, h]

/-! ## The output -/

theorem bitStream_inBytes_succ (p : Params) (m : Memory) (n : Nat) :
    bitStream m (inBytes p m (n + 1)) = bitStream m (inBytes p m n) ++ codeOf m (inByte p m n) := by
  rw [inBytes_succ, bitStream_append]
  exact congrArg _ (List.flatMap_singleton _ _)

/-- The packer after the first `n` input bytes: it holds their BitStream. -/
theorem encodeBytes_packed {p : Params} {m : Memory} {n : Nat} (hc : ∀ j, j < n → codeLen m (inByte p m j) ≠ 0)
    (hf : (bitStream m (inBytes p m n)).length ≤ 8 * p.outCap) :
    ∃ k, encodeBytes p m n 0 (Packer.init m) = .ok k ∧ Packed p m (bitStream m (inBytes p m n)) k := by
  rw [← inBytesFrom_zero] at hf ⊢
  exact encodeBytes_spec (Packed.init p m) 0 n (fun j _ hj => hc j (by omega)) hf

/-- An input with a code for every byte and room for every bit: the count of bits, and OUT_BUF with their bytes. -/
theorem encodeRun_ok {p : Params} {m : Memory} {n : Nat} (hn : n ≤ p.inCap)
    (hc : ∀ j, j < n → codeLen m (inByte p m j) ≠ 0) (hf : (bitStream m (inBytes p m n)).length ≤ 8 * p.outCap) :
    ∃ k, encodeRun p m n = .ok k ∧ k.len = (bitStream m (inBytes p m n)).length ∧
      ∀ a, readByte k.mem a =
        if 0x20000 ≤ a ∧ a < 0x20000 + ((bitStream m (inBytes p m n)).length + 7) / 8 then
          packedByte (bitStream m (inBytes p m n)) (a - 0x20000)
        else readByte m a := by
  obtain ⟨k, hrun, hk⟩ := encodeBytes_packed hc hf
  refine ⟨packFlush p k, ?_, packFlush_spec hk⟩
  rw [encodeRun, if_neg (by omega), hrun]

/-! ## The first error in input order (R171, R243) -/

/-- The bytes before index `j` are packed, and the byte at `j` meets an error: ENCODE ends with that error. -/
theorem encodeRun_error_at {p : Params} {m : Memory} {n j : Nat} {k : Packer} {e : Raise} (hn : n ≤ p.inCap)
    (hj : j < n) (hrun : encodeBytes p m j 0 (Packer.init m) = .ok k)
    (herr : ∀ r, encodeBytes p m (r + 1) j k = .error e) : encodeRun p m n = .error e := by
  have stops : encodeBytes p m n 0 (Packer.init m) = .error e := by
    rw [show n = j + (n - j - 1 + 1) by omega, encodeBytes_add, hrun, Nat.zero_add]
    exact herr _
  rw [encodeRun, if_neg (by omega), stops]

section
variable {p : Params} {m : Memory} {n j : Nat} (hn : n ≤ p.inCap) (hj : j < n)
  (hc : ∀ i, i < j → codeLen m (inByte p m i) ≠ 0) (hf : (bitStream m (inBytes p m j)).length ≤ 8 * p.outCap)
include hn hj hc hf

theorem encodeRun_unknownSymbol (h0 : codeLen m (inByte p m j) = 0) :
    encodeRun p m n = .error (.unknownSymbol (inByte p m j) j) := by
  obtain ⟨k, hrun, -⟩ := encodeBytes_packed hc hf
  exact encodeRun_error_at hn hj hrun fun r => by rw [encodeBytes, if_pos h0]

/-- The code of byte `j` ends beyond OUT_CAP bytes. -/
theorem encodeRun_outOverflow (hne : codeLen m (inByte p m j) ≠ 0)
    (hover : 8 * p.outCap < (bitStream m (inBytes p m (j + 1))).length) :
    encodeRun p m n = .error (.outOverflow p j) := by
  obtain ⟨k, hrun, hk⟩ := encodeBytes_packed hc hf
  have hlen : (bitStream m (inBytes p m (j + 1))).length =
      (bitStream m (inBytes p m j)).length + (codeLen m (inByte p m j)).toNat := by
    rw [bitStream_inBytes_succ, List.length_append, codeOf_length]
  have hcode := (packCode_spec hk (codeVal m (inByte p m j)) j _).2 (hlen ▸ hover)
  exact encodeRun_error_at hn hj hrun fun r => by rw [encodeBytes, if_neg hne, hcode]

end

/-! ## A failure (R244) -/

/-- A failed ENCODE records the error, has no output, and keeps every byte outside OUT_BUF. -/
theorem exec_encode_fails {s : State} {e : Raise} (h : encodeRun s.params s.mem s.inLen.toNat = .error e) :
    ∃ t, exec .encode s = .next t ∧ t.errCode = e.code ∧ t.errInfo = e.info ∧ t.errPos = e.pos ∧
      t.outLen = 0 ∧ t.outBits = 0 ∧ t.decTail = 0 ∧
      ∀ a, ¬ (0x20000 ≤ a ∧ a < 0x30000) → readByte t.mem a = readByte s.mem a := by
  have hx := exec_encode_error h
  have hcap := s.params.outCap_le
  refine ⟨_, hx, raise_errCode _ _ _, raise_errInfo _ _ _, raise_errPos _ _ _, rfl, rfl, rfl, fun a ha => ?_⟩
  exact (answer_of_exec hx).byte_kept fun hw => ha ⟨hw.1, by have := hw.2; omega⟩

end Sys2Proof.Machine

namespace Sys2Proof

open Machine

/-- Settles O48: the packer takes the codes of the input in order, and the flush pads its last byte. -/
theorem encodeCompletes : Obligations.EncodeCompletes := by
  unfold Obligations.EncodeCompletes
  rintro s bits hn hc rfl hf
  obtain ⟨k, hrun, hlen, hmem⟩ := encodeRun_ok hn hc hf
  have hcap := s.params.outCap_le
  refine ⟨_, exec_encode_ok hrun, rfl, ?outBits, ?outLen, fun j hj => ?packed, fun a ha => ?kept⟩
  case outBits =>
    rw [encodeDone, complete_outBits, BitVec.toNat_ofNat, hlen]
    omega
  case outLen =>
    rw [encodeDone, complete_outLen, BitVec.toNat_ofNat, hlen]
    omega
  case packed =>
    rw [outByte, outBufAddr, if_pos (by omega), encodeDone, complete_mem, hmem, if_pos (by omega), Nat.add_sub_cancel_left]
  case kept =>
    rw [encodeDone, complete_mem, hmem, if_neg ha]

/-- Settles O49: the bytes before the first error are packed, and the error itself ends ENCODE with no output. -/
theorem encodeTraps : Obligations.EncodeTraps := by
  unfold Obligations.EncodeTraps
  intro s
  refine ⟨fun hover => ?paramRange, fun j hn hj hc hf => ⟨fun h0 => ?unknownSymbol, fun hne hover => ?outOverflow⟩⟩
  case paramRange =>
    exact exec_encode_fails (e := .paramRange 1) (if_pos hover)
  case unknownSymbol =>
    obtain ⟨t, hx, hcode, hinfo, hpos, rest⟩ := exec_encode_fails (encodeRun_unknownSymbol hn hj hc hf h0)
    refine ⟨t, hx, hcode, hinfo, ?_, rest⟩
    rw [hpos, Raise.unknownSymbol, BitVec.toNat_ofNat]
    omega
  case outOverflow =>
    obtain ⟨t, hx, hcode, hinfo, hpos, rest⟩ := exec_encode_fails (encodeRun_outOverflow hn hj hc hf hne hover)
    have hcap := s.params.outCap_le
    refine ⟨t, hx, hcode, ?_, ?_, rest⟩
    · rw [hinfo, Raise.outOverflow, BitVec.toNat_ofNat]
      omega
    · rw [hpos, Raise.outOverflow, BitVec.toNat_ofNat]
      omega

end Sys2Proof
end

section
/-! PROOFS. What DECODE and DECODE.ALL answer: their output and their failures (43_decoder_unpacker.md R190 to R192;
60_exceptions.md R242 to R244). -/

namespace Sys2Proof.Machine

/-! ## The answers (R191, R192) -/

/-- `i` decodes `n` bits in `s`: DECODE reads N from DEC_NBITS, DECODE.ALL takes every bit of the input (R191, R192). -/
def DecodesBits (s : State) (i : Instr) (n : Nat) : Prop :=
  i = .decode ∧ n = s.decNbits.toNat ∨ i = .decodeAll ∧ n = 8 * s.inLen.toNat

theorem DecodesBits.exec_ok {s : State} {i : Instr} {n : Nat} {d : Decoder} (hi : DecodesBits s i n)
    (h : decodeRun s n = .ok d) : exec i s = .next (decodeDone n d s) := by
  obtain ⟨rfl, rfl⟩ | ⟨rfl, rfl⟩ := hi
  · rw [exec, execDecode, h]
  · rw [exec, execDecodeAll, allBits, h]

theorem DecodesBits.exec_error {s : State} {i : Instr} {n : Nat} {e : Raise} (hi : DecodesBits s i n)
    (h : decodeRun s n = .error e) : exec i s = .next (raise (some i) e s) := by
  obtain ⟨rfl, rfl⟩ | ⟨rfl, rfl⟩ := hi
  · rw [exec, execDecode, h]
  · rw [exec, execDecodeAll, allBits, h]

/-- What a decode that raises `e` leaves: the error, no output, and every byte outside OUT_BUF (R244). -/
def DecodeFails (s : State) (i : Instr) (e : Raise) : Prop :=
  ∃ t, exec i s = .next t ∧ t.errCode = e.code ∧ t.errInfo = e.info ∧ t.errPos = e.pos ∧
    t.outLen = 0 ∧ t.outBits = 0 ∧ t.decTail = 0 ∧
    ∀ a, ¬ (0x20000 ≤ a ∧ a < 0x30000) → readByte t.mem a = readByte s.mem a

theorem DecodesBits.fails {s : State} {i : Instr} {n : Nat} {e : Raise} (hi : DecodesBits s i n)
    (h : decodeRun s n = .error e) : DecodeFails s i e := by
  have hx := hi.exec_error h
  have hout : i = .encode ∨ i = .decode ∨ i = .decodeAll := .inr (hi.imp And.left And.left)
  have hcap := s.params.outCap_le
  rw [raise_output i e s hout] at hx
  refine ⟨_, hx, rfl, rfl, rfl, rfl, rfl, rfl, fun a ha => ?_⟩
  have howns : Ram.outBuf.owns s.params a = false := by
    simp only [Ram.owns, Bool.and_eq_false_iff, decide_eq_false_iff_not]
    omega
  rw [readByte_scrambleRam, howns, if_neg (by decide)]

/-! ## The walk over the input -/

/-- The decoder before the first bit: the cursor at the root, no output (R191). -/
def Decoder.start (s : State) : Decoder := ⟨s.rootIdx, 0, 0, s.mem⟩

/-- The checks of R191 passed: the counts are in range and ROOT is valid. -/
structure DecodeReady (s : State) (n : Nat) : Prop where
  inLen : s.inLen.toNat ≤ s.params.inCap
  bits : n ≤ 8 * s.inLen.toNat
  root : s.rootValid = true

/-- What the arena of `s` makes of the first `k` bits of IN_BUF: the symbols, the cursor and the tail. -/
def walk (s : State) (k : Nat) : Option (List Byte × NodeIdx × Nat) :=
  arenaDecode (node s.mem) s.rootIdx s.rootIdx 0 (inBits s.params s.mem k)

/-- On an arena that holds a tree, the walk from ROOT is the tree's. -/
theorem walk_of_tree {s : State} {T : HuffmanTree} (hT : T.Represents s.mem s.rootIdx) {k : Nat} {out : List Byte}
    {tail : Nat} (h : T.decode (inBits s.params s.mem k) = some (out, tail)) :
    ∃ cur, walk s k = some (out, cur, tail) := by
  rw [HuffmanTree.decode, HuffmanTree.decodeFrom_eq, Option.map_eq_some_iff] at h
  obtain ⟨⟨out, c, tail⟩, hrun, h⟩ := h
  obtain ⟨rfl, rfl⟩ := Prod.mk.inj h
  obtain ⟨cur, hwalk, -⟩ := arenaDecode_tree hT hT (fun _ => rfl) hrun
  exact ⟨cur, hwalk⟩

/-- One bit more: the walk goes on from where it stood. -/
theorem walk_succ {s : State} {k : Nat} {out : List Byte} {cur : NodeIdx} {tail : Nat}
    (h : walk s k = some (out, cur, tail)) :
    walk s (k + 1) = (arenaDecode (node s.mem) s.rootIdx cur tail [inBit s.params s.mem k]).map
      (fun q => (out ++ q.1, q.2)) := by
  rw [walk] at h
  rw [walk, inBits_succ, arenaDecode_append, h, Option.bind_some]

theorem decodeRun_ready {s : State} {n : Nat} (h : DecodeReady s n) :
    decodeRun s n = decodeBits s.params s.mem s.rootIdx n 0 (Decoder.start s) := by
  have hin := h.inLen
  have hbits := h.bits
  rw [decodeRun, if_neg (by omega), if_neg (by omega), h.root]
  rfl

/-- The decoder after the first `k` bits, when the symbols of their walk fit OUT_BUF. -/
theorem decodeBits_walk {s : State} {k : Nat} {out : List Byte} {cur : NodeIdx} {tail : Nat}
    (h : walk s k = some (out, cur, tail)) (hfit : out.length ≤ s.params.outCap) :
    ∃ d, decodeBits s.params s.mem s.rootIdx k 0 (Decoder.start s) = .ok d ∧ d.cur = cur ∧
      (isLeaf (node s.mem cur) = true → cur = s.rootIdx) ∧ d.tail = tail ∧ d.optr = out.length ∧
      ∀ a, readByte d.mem a =
        if 0x20000 ≤ a ∧ a < 0x20000 + out.length then out.getD (a - 0x20000) 0 else readByte s.mem a := by
  rw [walk, ← inBitsFrom_zero] at h
  simpa [Decoder.start] using
    decodeBits_arena (d := Decoder.start s) (fun _ => rfl) k 0 h (by simpa [Decoder.start] using hfit)

/-! ## The output (R191) -/

/-- The registers and OUT_BUF after a decode whose walk went well. -/
theorem DecodesBits.completes {s : State} {i : Instr} {n : Nat} (hi : DecodesBits s i n) (hr : DecodeReady s n)
    {out : List Byte} {cur : NodeIdx} {tail : Nat} (h : walk s n = some (out, cur, tail))
    (hfit : out.length ≤ s.params.outCap) : ∃ t, exec i s = .next t ∧ Decoded s t n out tail := by
  obtain ⟨d, hd, -, -, rfl, hoptr, hmem⟩ := decodeBits_walk h hfit
  rw [← decodeRun_ready hr] at hd
  obtain ⟨-, htail, hbits, hin⟩ := decodeRun_counts hd
  have hcap := s.params.outCap_le
  have hincap := s.params.inCap_le
  refine ⟨_, hi.exec_ok hd, ⟨rfl, ?outLen, ?outBits, ?decTail, ?symbols, fun a ha => ?bytes⟩⟩
  case outLen =>
    rw [decodeDone, complete_outLen, BitVec.toNat_ofNat, hoptr]
    omega
  case outBits =>
    rw [decodeDone, complete_outBits, BitVec.toNat_ofNat]
    omega
  case decTail =>
    rw [decodeDone, complete_decTail, BitVec.toNat_ofNat]
    omega
  case symbols =>
    refine List.ext_getElem (by simp [outBytes]) fun j _ hj => ?_
    simp only [outBytes, List.getElem_map, List.getElem_range]
    rw [outByte, outBufAddr, if_pos (by omega), decodeDone, complete_mem, hmem, if_pos (by omega),
      Nat.add_sub_cancel_left, List.getD_eq_getElem _ _ hj]
  case bytes =>
    rw [decodeDone, complete_mem, hmem, if_neg ha]

/-- The same over an arena that holds a tree. -/
theorem DecodesBits.completes_tree {s : State} {i : Instr} {n : Nat} (hi : DecodesBits s i n) (hr : DecodeReady s n)
    {T : HuffmanTree} (hT : T.Represents s.mem s.rootIdx) {out : List Byte} {tail : Nat}
    (h : T.decode (inBits s.params s.mem n) = some (out, tail)) (hfit : out.length ≤ s.params.outCap) :
    ∃ t, exec i s = .next t ∧ Decoded s t n out tail := by
  obtain ⟨cur, hwalk⟩ := walk_of_tree hT h
  exact hi.completes hr hwalk hfit

/-! ## The first error (R190, R243) -/

/-- The bits before bit `k` are decoded, and bit `k` raises `e`: the command raises it. -/
theorem DecodesBits.fails_at {s : State} {i : Instr} {n k : Nat} (hi : DecodesBits s i n) (hr : DecodeReady s n)
    (hk : k < n) {d : Decoder} {e : Raise} (hrun : decodeBits s.params s.mem s.rootIdx k 0 (Decoder.start s) = .ok d)
    (hstep : decodeStep s.params s.mem s.rootIdx k (inBit s.params s.mem k) d = .error e) : DecodeFails s i e := by
  refine hi.fails ?_
  rw [decodeRun_ready hr, show n = k + (n - k - 1 + 1) by omega, decodeBits_add, hrun, Nat.zero_add]
  change decodeBits s.params s.mem s.rootIdx (n - k - 1 + 1) k d = .error e
  rw [decodeBits, hstep]

/-- A 1 bit at a lone leaf (R190, subcause MISSING_CHILD). -/
theorem decodeStep_missingChild {p : Params} {m : Memory} {r : NodeIdx} {pos : Nat} {d : Decoder}
    (hl : isLeaf (node m d.cur) = true) :
    decodeStep p m r pos true d = .error (.invalidTree .missingChild d.cur pos) := by
  rw [decodeStep, if_pos hl, if_pos rfl]

/-- A word at the cursor that is no node (R190, subcause BAD_TAG). -/
theorem decodeStep_badCursor {p : Params} {m : Memory} {r : NodeIdx} {pos : Nat} {b : Bool} {d : Decoder}
    (hl : isLeaf (node m d.cur) = false) (hn : isInt (node m d.cur) = false) :
    decodeStep p m r pos b d = .error (.invalidTree .badTag d.cur pos) := by
  rw [decodeStep, if_neg (by rw [hl]; decide), if_neg (by rw [hn]; decide)]

/-- A child that is no node (R190, subcause BAD_TAG). -/
theorem decodeStep_badChild {p : Params} {m : Memory} {r : NodeIdx} {pos : Nat} {b : Bool} {d : Decoder}
    (hc : isInt (node m d.cur) = true) (hl : isLeaf (node m (childAt m d.cur b)) = false)
    (hn : isInt (node m (childAt m d.cur b)) = false) :
    decodeStep p m r pos b d = .error (.invalidTree .badTag (childAt m d.cur b) pos) := by
  rw [childAt] at hl hn ⊢
  rw [decodeStep, if_neg (by rw [isLeaf_eq_false_of_isInt hc]; decide), if_pos hc, if_neg (by rw [hl]; decide),
    if_neg (by rw [hn]; decide)]

/-- A lone leaf emits its symbol at every 0 bit. -/
theorem walk_loneLeaf {s : State} (hl : isLeaf (node s.mem s.rootIdx) = true) {k : Nat}
    (h : ∀ q, q < k → inBit s.params s.mem q = false) :
    walk s k = some (List.replicate k (nodeSym (node s.mem s.rootIdx)), s.rootIdx, 0) := by
  induction k with
  | zero => rfl
  | succ k ih =>
    rw [walk_succ (ih fun q hq => h q (by omega)), h k (by omega), List.replicate_succ']
    simp [arenaDecode, hl]

/-- Bit `k` completes one symbol more than OUT_BUF has room for (R190). -/
theorem DecodesBits.fails_overflow {s : State} {i : Instr} {n k : Nat} (hi : DecodesBits s i n) (hr : DecodeReady s n)
    (hk : k < n) {out out' : List Byte} {cur cur' : NodeIdx} {tail tail' : Nat} (hw : walk s k = some (out, cur, tail))
    (hw' : walk s (k + 1) = some (out', cur', tail')) (hfull : out.length = s.params.outCap)
    (hmore : out'.length = s.params.outCap + 1) : DecodeFails s i (.outOverflow s.params k) := by
  obtain ⟨d, hd, rfl, hroot, -, hoptr, -⟩ := decodeBits_walk hw hfull.le
  rw [walk_succ hw, Option.map_eq_some_iff] at hw'
  obtain ⟨q, hq, hout⟩ := hw'
  obtain ⟨rfl, -⟩ := Prod.mk.inj hout
  obtain ⟨y, -, -, -, hstep⟩ | ⟨c, -, hnil, -⟩ := arenaDecode_cons hroot hq
  · refine hi.fails_at hr hk hd ?_
    rw [hstep _ _ d rfl, emitSymbol, if_pos (by omega)]
  · obtain rfl : ([], c, tail + 1) = q := by simpa [arenaDecode] using hnil
    rw [List.append_nil] at hmore
    omega

end Sys2Proof.Machine

namespace Sys2Proof

open Machine

/-- Settles O50: the loop over the bits follows the walk of the arena, which is the tree's walk where it holds one. -/
theorem decodeCompletes : Obligations.DecodeCompletes := by
  unfold Obligations.DecodeCompletes
  intro s i n out tail (hi : DecodesBits s i n) hin hn hv hfit
  have hr : DecodeReady s n := ⟨hin, hn, hv⟩
  exact ⟨fun _ hT h => hi.completes_tree hr hT h hfit, fun _ h => hi.completes hr h hfit⟩

/-- Settles O52: each failure is the first error of the command's order, and leaves what `raise` leaves. -/
theorem decodeTraps : Obligations.DecodeTraps := by
  unfold Obligations.DecodeTraps
  intro s i n (hi : DecodesBits s i n) fails
  -- ERR_INFO as the subcause's word with the index
  have recorded : ∀ {c : Subcause} {j : NodeIdx} {k : Nat}, DecodeFails s i (.invalidTree c j k) →
      fails ⟨.invalidTree, c.toByte.setWidth 32 <<< 24 ||| j.setWidth 32, BitVec.ofNat 32 k⟩ := fun {c j k} h => by
    rw [← treeInfo_eq_or]
    exact h
  refine ⟨fun hover => ?inLen, fun hin hover => ?decNbits, fun hin hn hv => ?noRoot, fun hin hn hv => ?_⟩
  case inLen => exact hi.fails (if_pos hover)
  case decNbits => exact hi.fails (by rw [decodeRun, if_neg (by omega), if_pos hover]; rfl)
  case noRoot => exact hi.fails (by rw [decodeRun, if_neg (by omega), if_neg (by omega), hv]; rfl)
  have hr : DecodeReady s n := ⟨hin, hn, hv⟩
  refine ⟨fun hl k hk hfit hzero hone => ?missingChild, fun hl hni hpos => ?badRoot,
    fun k out cur tail hk hw hfit hc => ?badChild⟩
  case missingChild =>
    obtain ⟨d, hd, hcur, -⟩ := decodeBits_walk (walk_loneLeaf hl hzero) (by simpa using hfit)
    refine recorded (c := .missingChild) (hi.fails_at hr hk hd ?_)
    rw [hone, decodeStep_missingChild (by rwa [hcur]), hcur]
  case badRoot =>
    exact recorded (c := .badTag) (k := 0)
      (hi.fails_at hr hpos (d := Decoder.start s) rfl (decodeStep_badCursor hl hni))
  case badChild =>
    intro c hl hni
    obtain ⟨d, hd, rfl, -⟩ := decodeBits_walk hw hfit
    exact recorded (c := .badTag) (hi.fails_at hr hk hd (decodeStep_badChild hc hl hni))

/-- Settles O53: the walk of one bit more emits a symbol, and `emit` finds OUT_BUF full. -/
theorem decodeOverflow : Obligations.DecodeOverflow := by
  unfold Obligations.DecodeOverflow
  intro s i n k out out' (hi : DecodesBits s i n) hin hn hv hk hfull hmore hwalks
  have hr : DecodeReady s n := ⟨hin, hn, hv⟩
  have fails : DecodeFails s i (.outOverflow s.params k) := by
    obtain ⟨T, hT, ⟨tail, h⟩, h'⟩ | ⟨cur, tail, hw, hw'⟩ := hwalks
    · obtain ⟨cur, hw⟩ := walk_of_tree hT h
      obtain ⟨cur', hw'⟩ := walk_of_tree hT h'
      exact hi.fails_overflow hr hk hw hw' hfull hmore
    · exact hi.fails_overflow hr hk hw hw' hfull hmore
  obtain ⟨t, hx, hcode, hinfo, hpos, rest⟩ := fails
  have hcap := s.params.outCap_le
  have hincap := s.params.inCap_le
  refine ⟨t, hx, hcode, ?_, ?_, rest⟩
  · rw [hinfo, Raise.outOverflow, BitVec.toNat_ofNat]
    omega
  · rw [hpos, Raise.outOverflow, BitVec.toNat_ofNat]
    omega

/-- Settles O54: with DEC_NBITS = 8 x IN_LEN the two commands run the same loop, and end or fail alike. -/
theorem decodeAllIsDecodeOfEveryBit : Obligations.DecodeAllIsDecodeOfEveryBit := by
  unfold Obligations.DecodeAllIsDecodeOfEveryBit
  refine ⟨by decide, fun s => ?_⟩
  have hlen := s.inLen.isLt
  have hall : DecodesBits s .decodeAll (8 * s.inLen.toNat) := .inr ⟨rfl, rfl⟩
  have hdec : DecodesBits { s with decNbits := BitVec.ofNat 32 (8 * s.inLen.toNat) } .decode (8 * s.inLen.toNat) :=
    .inl ⟨rfl, by rw [BitVec.toNat_ofNat]; omega⟩
  cases h : decodeRun s (8 * s.inLen.toNat) with
  | ok d => exact ⟨_, _, hall.exec_ok h, hdec.exec_ok h, rfl, fun _ _ => rfl, rfl, fun _ _ => rfl⟩
  | error e => exact ⟨_, _, hall.exec_error h, hdec.exec_error h, rfl, fun _ _ => rfl, rfl, fun _ _ => rfl⟩

/-- Settles O51: the loop over no bits leaves the decoder at its start. -/
theorem decodeOfNoBits : Obligations.DecodeOfNoBits := by
  unfold Obligations.DecodeOfNoBits
  intro s h0 hin hv
  have hi : DecodesBits s .decode 0 := .inl ⟨rfl, by rw [h0]; rfl⟩
  rw [hi.exec_ok (decodeRun_ready ⟨hin, Nat.zero_le _, hv⟩)]
  rfl

end Sys2Proof
end

section
/-! PROOFS. The unpacker over packed bytes, and decoding what ENCODE packed (43_decoder_unpacker.md R190, R193 to
R195). -/

namespace Sys2Proof.Machine

/-! ## The unpacker (R190, R194) -/

/-- The PISO register before bit `k`: what is left of byte k div 8 stands at its top. Before the first bit of a byte it
may hold anything. -/
def Piso.Ready (p : Params) (m : Memory) (k : Nat) (r : Piso) : Prop :=
  k % 8 ≠ 0 → r.sh = inByte p m (k / 8) <<< (k % 8)

theorem Piso.shift_ready {p : Params} {m : Memory} {k : Nat} {r : Piso} (h : r.Ready p m k) :
    (r.shift p m k).1 = inBit p m k ∧ (r.shift p m k).2.Ready p m (k + 1) := by
  have hsh : (if k % 8 = 0 then (⟨inByte p m (k / 8), 8⟩ : Piso) else r).sh = inByte p m (k / 8) <<< (k % 8) := by
    split
    · rename_i h0
      rw [h0, BitVec.shiftLeft_zero]
    · rename_i h0
      exact h h0
  refine ⟨?_, fun h1 => ?_⟩
  · rw [Piso.shift]
    dsimp only
    rw [hsh, inBit, BitVec.getLsbD_shiftLeft, decide_eq_true (by decide), decide_eq_false (by omega)]
    rfl
  · rw [Piso.shift]
    dsimp only
    rw [hsh, ← BitVec.shiftLeft_add, show k / 8 = (k + 1) / 8 by omega, show k % 8 + 1 = (k + 1) % 8 by omega]

theorem Piso.stream_ready {p : Params} {m : Memory} (n : Nat) {k : Nat} {r : Piso} (h : r.Ready p m k) :
    Piso.stream p m n k r = inBitsFrom p m k n := by
  induction n generalizing k r with
  | zero => rfl
  | succ n ih =>
    obtain ⟨hbit, hnext⟩ := Piso.shift_ready h
    rw [Piso.stream, hbit, ih hnext]
    rfl

/-- Bytes that hold a packed BitStream unpack to its bits, and after them to zeros. -/
theorem inBits_packed {p : Params} {m : Memory} {bits : List Bool} {len : Nat}
    (h : ∀ k, k < len → inByte p m k = packedByte bits k) {z : Nat} (hz : bits.length + z ≤ 8 * len) :
    inBits p m (bits.length + z) = bits ++ List.replicate z false := by
  refine List.ext_getElem (by simp) fun j hj _ => ?_
  rw [inBits_length] at hj
  simp only [inBits, List.getElem_map, List.getElem_range]
  rw [inBit, h _ (by omega), packedByte_getLsbD _ _ (by omega), show 8 * (j / 8) + (7 - (7 - j % 8)) = j by omega,
    List.getElem_append]
  split
  · rename_i hb
    exact List.getD_eq_getElem _ _ hb
  · rw [List.getElem_replicate, List.getD_eq_default _ _ (by omega)]

/-! ## Codes of a tree (R150, R151) -/

theorem HuffmanTree.code_ne_nil {T : HuffmanTree} {x : Byte × List Bool} (hx : x ∈ T.codes) : x.2 ≠ [] := by
  cases T with
  | leaf y =>
    rw [HuffmanTree.codes, List.mem_singleton] at hx
    rw [hx]
    exact List.cons_ne_nil _ _
  | node l r => exact HuffmanTree.path_ne_nil hx

theorem HuffmanTree.decode_of_run {T c : HuffmanTree} {bs : List Bool} {out : List Byte} {tail : Nat}
    (h : T.run T 0 bs = some (out, c, tail)) : T.decode bs = some (out, tail) := by
  rw [HuffmanTree.decode, HuffmanTree.decodeFrom_eq, h]
  rfl

/-- A symbol with a code of the tree has a stored length. -/
theorem codeLen_ne_zero_of_code {m : Memory} {T : HuffmanTree} {y : Byte} (h : (y, codeOf m y) ∈ T.codes) :
    codeLen m y ≠ 0 := fun h0 => by
  refine HuffmanTree.code_ne_nil h ?_
  rw [codeOf, h0]
  rfl

/-! ## Padding (R195) -/

/-- Bits that complete no symbol all go to the tail. -/
theorem HuffmanTree.run_silent {root c c' : HuffmanTree} {tail tail' : Nat} {bs : List Bool}
    (h : root.run c tail bs = some ([], c', tail')) : tail' = tail + bs.length := by
  induction bs generalizing c tail with
  | nil =>
    obtain ⟨-, -, rfl⟩ : [] = ([] : List Byte) ∧ c = c' ∧ tail = tail' := by simpa [HuffmanTree.run] using h
    rfl
  | cons b bs ih =>
    rw [HuffmanTree.run] at h
    split at h
    · cases h
    · obtain ⟨q, -, hq⟩ := Option.map_eq_some_iff.mp h
      cases hq
    · rw [ih h, List.length_cons]
      omega

/-- A code cut before its end completes no symbol. -/
theorem HuffmanTree.run_codePrefix {T : HuffmanTree} {y : Byte} {c d : List Bool} (h : (y, c ++ d) ∈ T.codes)
    (hd : d ≠ []) : ∃ c', T.run T 0 c = some ([], c', c.length) := by
  have hrun := T.run_code h
  rw [HuffmanTree.run_append, Option.bind_eq_some_iff] at hrun
  obtain ⟨⟨out, c', tail⟩, hc, hrest⟩ := hrun
  obtain ⟨⟨out', c'', tail'⟩, hd', hq⟩ := Option.map_eq_some_iff.mp hrest
  obtain ⟨hout, rfl, rfl⟩ : out ++ out' = [y] ∧ c'' = T ∧ tail' = 0 := by simpa using hq
  obtain ⟨rfl, -⟩ | ⟨-, rfl⟩ := List.append_eq_singleton_iff.mp hout
  · have htail := HuffmanTree.run_silent hc
    rw [Nat.zero_add] at htail
    exact ⟨c', htail ▸ hc⟩
  · -- the symbol cannot be out before the last bit: the tail after that bit would not be 0
    have htail := HuffmanTree.run_silent hd'
    have hpos := List.length_pos_of_ne_nil hd
    omega

/-- Zero bits from the root: copies of the symbol of the leftmost leaf, and a tail that is no whole code. -/
theorem HuffmanTree.run_zeros {T : HuffmanTree} {y : Byte} {dl : Nat} (h : (y, List.replicate dl false) ∈ T.codes)
    (P : Nat) : ∃ c, T.run T 0 (List.replicate P false) = some (List.replicate (P / dl) y, c, P % dl) := by
  have hdl : 0 < dl := Nat.pos_of_ne_zero fun h0 => HuffmanTree.code_ne_nil h (by rw [h0]; rfl)
  have hmod := Nat.mod_lt P hdl
  have hcopies := T.run_codes (fun _ => List.replicate dl false) (List.replicate (P / dl) y) fun z hz => by
    rwa [List.eq_of_mem_replicate hz]
  have hsplit : List.replicate P false =
      (List.replicate (P / dl) y).flatMap (fun _ => List.replicate dl false) ++ List.replicate (P % dl) false := by
    rw [List.flatMap_replicate, List.flatten_replicate_replicate, List.replicate_append_replicate, Nat.div_add_mod']
  obtain ⟨c, hrest⟩ := T.run_codePrefix (y := y) (c := List.replicate (P % dl) false)
    (d := List.replicate (dl - P % dl) false)
    (by rwa [List.replicate_append_replicate, Nat.add_sub_cancel' hmod.le])
    (by rw [Ne, List.replicate_eq_nil_iff]; omega)
  refine ⟨c, ?_⟩
  rw [hsplit, HuffmanTree.run_append, hcopies, Option.bind_some, hrest]
  simp

/-- The codes of a byte sequence and then zero bits. -/
theorem HuffmanTree.decode_codes_zeros {T : HuffmanTree} {code : Byte → List Bool} {input : List Byte}
    (hcodes : ∀ z ∈ input, (z, code z) ∈ T.codes) {y : Byte} {dl : Nat}
    (hy : (y, List.replicate dl false) ∈ T.codes) (P : Nat) :
    T.decode (input.flatMap code ++ List.replicate P false) = some (input ++ List.replicate (P / dl) y, P % dl) := by
  obtain ⟨c, hzeros⟩ := T.run_zeros hy P
  apply HuffmanTree.decode_of_run (c := c)
  rw [HuffmanTree.run_append, T.run_codes code input hcodes, Option.bind_some, hzeros]
  rfl

end Sys2Proof.Machine

namespace Sys2Proof

open Machine

/-- Settles O55: before every bit the register holds what is left of its byte, and the first bit of a byte loads it. -/
theorem pisoYieldsTheBits : Obligations.PisoYieldsTheBits := by
  unfold Obligations.PisoYieldsTheBits
  intro p m n r
  rw [Piso.stream_ready n (fun h => absurd rfl h), inBitsFrom_zero]

/-- Settles O56: bit j of the bytes is bit j of the stream, and the bits that fill the last byte are zeros. -/
theorem unpackOfPackedIsPadded : Obligations.UnpackOfPackedIsPadded := by
  unfold Obligations.UnpackOfPackedIsPadded
  intro s bits m hin hc hbits hf
  obtain ⟨t, hx, -, -, hlen, hpacked, -⟩ := encodeCompletes s bits hin hc hbits hf
  refine ⟨t, hx, fun hm => ?_⟩
  rw [hlen] at hm ⊢
  rw [show 8 * ((bits.length + 7) / 8) = bits.length + (8 - bits.length % 8) % 8 by omega]
  exact inBits_packed (fun k hk => (hm k hk).trans (hpacked k hk)) (by omega)

/-- Settles O57: the unpacker yields the BitStream of the input, and the codes of the tree bring out the input. -/
theorem decodeInvertsEncode : Obligations.DecodeInvertsEncode := by
  unfold Obligations.DecodeInvertsEncode
  intro s T input hinput hin hout hcodes hf
  have hcoded : ∀ j, j < s.inLen.toNat → codeLen s.mem (inByte s.params s.mem j) ≠ 0 := fun j hj =>
    codeLen_ne_zero_of_code (hcodes _ (hinput ▸ List.mem_map_of_mem (List.mem_range.mpr hj)))
  have hsize : input.length = s.inLen.toNat := by rw [hinput, inBytes, List.length_map, List.length_range]
  obtain ⟨t, hx, ht, hbits, hlen, hpacked, -⟩ := encodeCompletes s _ hin hcoded (congrArg _ hinput) hf
  have htp : t.params = s.params := by rw [ht]
  refine ⟨t, hx, by rw [ht], fun u hp hfits hbytes hulen hunbits hv hT => ?_⟩
  have hstream : inBits u.params u.mem (bitStream s.mem input).length = bitStream s.mem input := by
    have hu : ∀ k, k < t.outLen.toNat → inByte u.params u.mem k = packedByte (bitStream s.mem input) k :=
      fun k hk => by rw [hbytes k hk, htp, hpacked k (hlen ▸ hk)]
    simpa using inBits_packed hu (z := 0) (by omega)
  have hdecode : T.decode (inBits u.params u.mem (bitStream s.mem input).length) = some (input, 0) := by
    rw [hstream]
    exact HuffmanTree.decode_of_run (T.run_codes _ input hcodes)
  have hi : DecodesBits u .decode (bitStream s.mem input).length := .inl ⟨rfl, by rw [hunbits, hbits]⟩
  have hr : DecodeReady u (bitStream s.mem input).length := ⟨hulen ▸ hfits, by rw [hulen]; omega, hv⟩
  obtain ⟨v, hxv, hdone⟩ := hi.completes_tree hr hT hdecode (by rw [hp]; omega)
  have hframe := hdone.frame
  refine ⟨v, hxv, by rw [hframe], ?_, hdone.outLen, BitVec.eq_of_toNat_eq ?_, BitVec.eq_of_toNat_eq hdone.decTail⟩
  · rw [show v.params = u.params by rw [hframe]]
    exact hdone.symbols
  · rw [hdone.outBits, hbits, Nat.sub_zero]

/-- Settles O59: the padding is whole codes of the leftmost leaf and then the beginning of one. -/
theorem paddingArtifact : Obligations.PaddingArtifact := by
  unfold Obligations.PaddingArtifact
  intro s T input code y dl P hin hv hT hcodes hy hbits hfit
  have hdecode := HuffmanTree.decode_codes_zeros hcodes hy P
  rw [← hbits] at hdecode
  have hsize : (input ++ List.replicate (P / dl) y).length = input.length + P / dl := by simp
  have hi : DecodesBits s .decodeAll (8 * s.inLen.toNat) := .inr ⟨rfl, rfl⟩
  obtain ⟨t, hx, hdone⟩ := hi.completes_tree ⟨hin, le_rfl, hv⟩ hT hdecode (hsize ▸ hfit)
  have hframe := hdone.frame
  refine ⟨t, hx, by rw [hframe], hsize ▸ hdone.outLen, ?_, hdone.decTail⟩
  rw [show t.params = s.params by rw [hframe], ← hsize]
  exact hdone.symbols

end Sys2Proof
end

section
/-! PROOFS. BUILD_TREE, GEN_CODES, ENCODE and DECODE in a row (43_decoder_unpacker.md R193): the table holds the codes of
the built tree, and by optimality their bits fit where the input fits. -/

namespace Sys2Proof.Machine

/-! ## The table holds the codes of the tree (R150, R151) -/

/-- A tree is no deeper than its leaves allow. -/
theorem HuffmanTree.depth_lt_leaves (T : HuffmanTree) : T.depth < T.leaves.length := by
  induction T with
  | leaf y => exact Nat.zero_lt_one
  | node l r ihl ihr =>
    rw [HuffmanTree.depth, HuffmanTree.leaves, List.length_append, List.length_map, List.length_map]
    omega

theorem HuffmanTree.codes_symbols (T : HuffmanTree) : T.codes.map Prod.fst = T.symbols := by
  cases T <;> rfl

/-- GEN_CODES on an arena that holds a tree with distinct symbols gives every symbol its code of the tree. -/
theorem exec_genCodes_codes {s : State} {T : HuffmanTree} (hv : s.rootValid = true) (hT : T.Represents s.mem s.rootIdx)
    (hn : T.symbols.Nodup) :
    ∃ u, exec .genCodes s = .next u ∧
      u = { s with seq := .idle, done := true, mem := u.mem, ncodes := u.ncodes, maxlen := u.maxlen } ∧
      ∀ x ∈ T.codes, codeOf u.mem x.1 = x.2 := by
  cases T with
  | leaf y =>
    obtain ⟨hl, hy⟩ := hT
    obtain ⟨u, hu, hframe, hlen, hval, -⟩ := genCodesLoneLeaf s hv hl
    refine ⟨u, hu, by rw [hframe], fun x hx => ?_⟩
    obtain rfl : x = (y, [false]) := List.mem_singleton.mp hx
    rw [codeOf, hlen, hval, if_pos hy.symm]
    rfl
  | node l r =>
    have hdepth := (HuffmanTree.node l r).depth_lt_leaves
    have hleaves := HuffmanTree.leaves_le hn
    obtain ⟨u, hu, hframe, hcodes, -⟩ := genCodesGivesPaths s l r hv hT hn (by omega)
    exact ⟨u, hu, hframe, fun x hx => (hcodes x.1 x.2 hx).1⟩

/-! ## The length of the BitStream (R172) -/

/-- A sum over a byte sequence, symbol by symbol. -/
theorem sum_count (input : List Byte) (f : Byte → Nat) :
    (symbols.map (fun y => input.count y * f y)).sum = (input.map f).sum := by
  induction input with
  | nil => simp
  | cons z input ih =>
    have hz : (symbols.map (fun y => if z = y then f y else 0)).sum = f z := by
      rw [← List.sum_toFinset _ symbols_nodup, Finset.sum_ite_eq, if_pos (List.mem_toFinset.mpr (mem_symbols z))]
    rw [List.map_cons, List.sum_cons, ← ih, ← hz, ← List.sum_map_add]
    refine congrArg List.sum (List.map_congr_left fun y _ => ?_)
    rw [List.count_cons]
    by_cases h : z = y
    · simp [h, Nat.add_mul, Nat.add_comm]
    · simp [h]

theorem bitStream_length (m : Memory) (input : List Byte) :
    (bitStream m input).length = (input.map (fun y => (codeOf m y).length)).sum :=
  List.length_flatMap

/-- FREQ holds the frequencies of a byte sequence (R12), which do not wrap. -/
theorem freq_toNat_of_hostFreq {m : Memory} {input : List Byte} (h : ∀ y, freq m y = hostFreq input y)
    (hlen : input.length ≤ 65536) (y : Byte) : (freq m y).toNat = input.count y := by
  have hcount : input.count y ≤ input.length := List.count_le_length
  rw [h, hostFreq, BitVec.toNat_ofNat]
  omega

theorem freq_ne_zero_iff {m : Memory} {input : List Byte} (h : ∀ y, (freq m y).toNat = input.count y) {y : Byte} :
    freq m y ≠ 0 ↔ y ∈ input := by
  rw [← List.count_pos_iff, ← h, Nat.pos_iff_ne_zero]
  exact (BitVec.toNat_inj (y := 0#32)).not.symm

/-! ## Eight bits for every symbol -/

/-- The eight bits of a byte. -/
def plainCode (y : Byte) : List Bool := (List.range 8).map y.getLsbD

@[simp] theorem plainCode_length (y : Byte) : (plainCode y).length = 8 := rfl

theorem plainCode_prefixFree {y z : Byte} (hne : y ≠ z) : ¬ plainCode y <+: plainCode z := fun h => by
  have heq : plainCode y = plainCode z := h.eq_of_length (by simp)
  exact hne (BitVec.eq_of_getLsbD_eq fun i hi => List.map_inj_left.mp heq i (List.mem_range.mpr hi))

/-- The codes of a tree over the symbols of the input that costs no more than eight bits for every symbol: the BitStream
is no longer than the input. -/
theorem bitStream_length_le {m m' : Memory} {input : List Byte} {T : HuffmanTree}
    (hfreq : ∀ y, (freq m y).toNat = input.count y) (hsym : T.symbols.Perm (present m))
    (hcodes : ∀ x ∈ T.codes, codeOf m' x.1 = x.2)
    (hopt : (T.codes.map (fun x => (freq m x.1).toNat * x.2.length)).sum ≤
      (symbols.map (fun y => (freq m y).toNat * (plainCode y).length)).sum) :
    (bitStream m' input).length ≤ 8 * input.length := by
  calc (bitStream m' input).length
      = (symbols.map (fun y => (freq m y).toNat * (codeOf m' y).length)).sum := by
        simp only [hfreq]
        rw [bitStream_length, sum_count]
    _ = (T.symbols.map (fun y => (freq m y).toNat * (codeOf m' y).length)).sum := by
        rw [← sum_present, (hsym.map _).sum_eq]
    _ = (T.codes.map (fun x => (freq m x.1).toNat * x.2.length)).sum := by
        rw [← T.codes_symbols, List.map_map]
        refine congrArg List.sum (List.map_congr_left fun x hx => ?_)
        rw [Function.comp_apply, hcodes x hx]
    _ ≤ (symbols.map (fun y => (freq m y).toNat * (plainCode y).length)).sum := hopt
    _ = 8 * input.length := by
        simp only [hfreq]
        rw [sum_count]
        simp [Nat.mul_comm]

/-! ## What the commands before keep -/

theorem not_ramWriteSet_inBuf (p : Params) (i : Instr) {a : Nat} (h1 : 0x10000 ≤ a) (h2 : a < 0x20000) :
    ¬ ramWriteSet p i a := by
  cases i
  case nop => exact not_false
  all_goals
    simp only [ramWriteSet]
    omega

theorem not_ramWriteSet_node (p : Params) {i : Instr} (hi : i ∉ [.buildTree, .clrTree]) {a : Nat} (h1 : 0x800 ≤ a)
    (h2 : a < 0x1000) : ¬ ramWriteSet p i a := by
  cases i
  case buildTree | clrTree => simp at hi
  case nop => exact not_false
  all_goals
    simp only [ramWriteSet]
    omega

/-- Every command keeps the input (R51). -/
theorem inBytes_of_exec {i : Instr} {s t : State} (h : exec i s = .next t) (n : Nat) :
    inBytes s.params t.mem n = inBytes s.params s.mem n :=
  List.map_congr_left fun j _ =>
    inByte_congr (fun _ h1 h2 => (answer_of_exec h).byte_kept (not_ramWriteSet_inBuf _ _ h1 h2)) j

/-- A command other than BUILD_TREE and CLR_TREE keeps the tree at ROOT. -/
theorem represents_of_exec {i : Instr} {s t : State} (h : exec i s = .next t) (hi : i ∉ [.buildTree, .clrTree])
    {T : HuffmanTree} (hT : T.Represents s.mem s.rootIdx) : T.Represents t.mem t.rootIdx := by
  have ha := answer_of_exec h
  rw [(ha.tree_kept hi).2.1]
  exact T.Represents_of_node_eq
    (fun k => node_congr (fun _ h1 h2 => ha.byte_kept (not_ramWriteSet_node _ hi h1 h2)) k) hT

end Sys2Proof.Machine

namespace Sys2Proof

open Machine

/-- Settles O58: the built tree and its table agree, its codes are no longer than eight bits a symbol would be, and
DECODE inverts ENCODE on any such tree and table. -/
theorem roundTripUnderTableReuse : Obligations.RoundTripUnderTableReuse := by
  unfold Obligations.RoundTripUnderTableReuse
  intro s input hinput hne hin hout hfreq
  have hsize : input.length = s.inLen.toNat := by rw [hinput, inBytes, List.length_map, List.length_range]
  have hincap := s.params.inCap_le
  have hcount := freq_toNat_of_hostFreq hfreq (by omega)
  have hpresent : ∃ y, freq s.mem y ≠ 0 :=
    have ⟨y, hy⟩ := List.exists_mem_of_ne_nil input hne
    ⟨y, (freq_ne_zero_iff hcount).mpr hy⟩
  -- BUILD_TREE
  have ht := exec_buildTree (one_le_present hpresent)
  obtain ⟨T, hT, hsym, -, hopt⟩ := buildTreeIsOptimal s _ hpresent ht
  replace hopt := hopt plainCode (fun _ _ => List.cons_ne_nil _ _) (fun _ _ _ _ => plainCode_prefixFree)
  -- GEN_CODES
  obtain ⟨u, hu, hframe, hcodes⟩ := exec_genCodes_codes rfl hT (hsym.nodup_iff.mpr (present_nodup _))
  have hup : u.params = s.params := by rw [hframe]; rfl
  have hulen : u.inLen = s.inLen := by rw [hframe]; rfl
  have huinput : inBytes u.params u.mem u.inLen.toNat = input := by
    rw [hup, hulen, hinput]
    exact (inBytes_of_exec hu _).trans (inBytes_of_exec ht _)
  have hagree : ∀ y ∈ input, (y, codeOf u.mem y) ∈ T.codes := fun y hy => by
    have hyT : y ∈ T.codes.map Prod.fst := by
      rw [T.codes_symbols, hsym.mem_iff]
      exact mem_present.mpr ((freq_ne_zero_iff hcount).mpr hy)
    obtain ⟨x, hx, rfl⟩ := List.mem_map.mp hyT
    rwa [hcodes x hx]
  have hfit := bitStream_length_le hcount hsym hcodes hopt
  -- ENCODE and DECODE
  obtain ⟨v, hv, hverr, hdecode⟩ := decodeInvertsEncode u T input huinput.symm (by rw [hup, hulen]; exact hin)
    (by rw [hup, hulen]; exact hout) hagree (by rw [hup]; omega)
  have hTv := represents_of_exec hv (by decide) (represents_of_exec hu (by decide) hT)
  refine ⟨_, u, v, ht, hu, hv, by rw [hverr, hframe]; rfl, fun w hwp hfits hbytes hnode hwv hwr hwlen hwbits => ?_⟩
  refine hdecode w (hwp.trans hup.symm) (hwp ▸ hfits) hbytes hwlen hwbits ?_ ?_
  · rw [hwv, ((answer_of_exec hv).tree_kept (by decide)).1, hframe]
    rfl
  · rw [hwr]
    exact T.Represents_of_node_eq hnode hTv

end Sys2Proof
end

section
/-! PROOFS. NOP, the CLR commands, and the illegal command words (44_control_commands.md R215 to R220). -/

namespace Sys2Proof.Machine

/-- The state after CLR_TREE (R218). -/
def clrTreeDone (s : State) : State :=
  complete { s with mem := clearRam s.params .node s.mem, rootValid := false, rootIdx := 0, nleaf := 0, nnode := 0 }

theorem exec_clrTree (s : State) : exec .clrTree s = .next (clrTreeDone s) := rfl

/-- A completion without an error, under clear sticky bits, leaves DONE alone in STATUS (R27, R34). -/
theorem statusWord_complete {s : State} (he : s.errCode = .none) (hw : s.wrWhileBusy = false)
    (ho : s.cmdOverrun = false) : statusWord (complete s) = 0x00000002 := by
  unfold statusWord State.err State.busy
  rw [complete_seq, complete_done, complete_errCode, complete_wrWhileBusy, complete_cmdOverrun, he, hw, ho]
  decide

@[simp] theorem Packer.init_len (m : Memory) : (Packer.init m).len = 0 := rfl

/-- With IN_LEN = 0 ENCODE packs nothing, whatever the code table holds (R171). -/
theorem exec_encode_noInput {s : State} (h0 : s.inLen = 0) :
    exec .encode s = .next { s with seq := .idle, done := true, outLen := 0, outBits := 0, decTail := 0 } := by
  have hrun : encodeRun s.params s.mem s.inLen.toNat = .ok (Packer.init s.mem) := by
    rw [h0]
    exact if_neg (Nat.not_lt_zero _)
  rw [exec_encode_ok hrun, encodeDone, Packer.init_len]
  rfl

/-- A first input byte without a code ends ENCODE at byte 0 (R171). -/
theorem exec_encode_unknownFirst {s : State} (hne : s.inLen ≠ 0) (hin : s.inLen.toNat ≤ s.params.inCap)
    (h0 : codeLen s.mem (inByte s.params s.mem 0) = 0) :
    exec .encode s = .next (raise (some .encode) (.unknownSymbol (inByte s.params s.mem 0) 0) s) := by
  have hpos : 0 < s.inLen.toNat := Nat.pos_of_ne_zero fun h => hne (BitVec.eq_of_toNat_eq h)
  exact exec_encode_error
    (encodeRun_unknownSymbol hin hpos (fun _ hi => absurd hi (Nat.not_lt_zero _)) (Nat.zero_le _) h0)

end Sys2Proof.Machine

namespace Sys2Proof

open Machine

/-- Settles O6: a word outside the nine is refused by `decode`, and `raise` in an illegal word has no failure action. -/
theorem illegalWordCompletes : Obligations.IllegalWordCompletes := by
  unfold Obligations.IllegalWordCompletes
  intro s hb hd hc
  obtain ⟨e, he⟩ := (decode_refuses s.cmd).mpr fun i hi => hc ((mem_opcodeMap s.cmd).mpr ⟨i, hi⟩)
  rw [step_illegal ((coreTurn_iff s).mpr ⟨hb, hd⟩) he, raise_illegal]
  rfl

/-- Settles O33: with every FREQ word 0 no symbol is present, so BUILD_TREE right after it finds none. -/
theorem clrFreqCompletes : Obligations.ClrFreqCompletes := by
  unfold Obligations.ClrFreqCompletes
  refine ⟨decode_encode .clrFreq, fun s => ?_⟩
  have hx : exec .clrFreq s = .next (complete { s with mem := clearRam s.params .freq s.mem }) := rfl
  have hfreq := freq_clearRam s.params s.mem
  exact ⟨_, hx, rfl, hfreq, fun _ ha => (answer_of_exec hx).byte_kept ha, _, buildTreeEmptyInput _ hfreq, rfl⟩

/-- Settles O34: CLR_TREE leaves ROOT.VALID = 0, which GEN_CODES checks first and DECODE right after its counts. -/
theorem clrTreeCompletes : Obligations.ClrTreeCompletes := by
  unfold Obligations.ClrTreeCompletes
  refine ⟨decode_encode .clrTree, fun s => ?_⟩
  have hx := exec_clrTree s
  refine ⟨_, hx, rfl, node_clearRam s.params s.mem, fun _ ha => (answer_of_exec hx).byte_kept ha, ?genCodes,
    fun hin hbits => ?decode⟩
  case genCodes =>
    obtain ⟨-, noRoot⟩ := genCodesFailureClearsTable
    obtain ⟨u, hu, e⟩ := noRoot (clrTreeDone s) rfl
    exact ⟨u, hu, by rw [e], by rw [e]⟩
  case decode =>
    obtain ⟨-, -, noRoot, -⟩ := decodeTraps (clrTreeDone s) .decode _ (.inl ⟨rfl, rfl⟩)
    obtain ⟨u, hu, hcode, hinfo, -⟩ := noRoot hin hbits rfl
    exact ⟨u, hu, hcode, hinfo⟩

/-- Settles O35: the cleared table has no code for the first input byte, and an empty input needs none. -/
theorem clrCodesCompletes : Obligations.ClrCodesCompletes := by
  unfold Obligations.ClrCodesCompletes
  refine ⟨decode_encode .clrCodes, fun s => ?_⟩
  have hx : exec .clrCodes s = .next (complete (clearCodes s)) := rfl
  obtain ⟨u, hu, -⟩ := exec_answer .encode (complete (clearCodes s))
  refine ⟨_, hx, rfl, fun y => ⟨codeLen_clearCodes s y, codeVal_clearCodes s y⟩,
    fun _ ha => (answer_of_exec hx).byte_kept ha, u, hu, fun hne hin => ?nonempty, fun h0 => ?empty⟩
  case nonempty =>
    have hfail := exec_encode_unknownFirst (s := complete (clearCodes s)) hne hin (codeLen_clearCodes s _)
    obtain rfl := Host.Outcome.next.inj (hu.symm.trans hfail)
    exact ⟨raise_errCode _ _ _, raise_errPos _ _ _⟩
  case empty =>
    have hdone := exec_encode_noInput (s := complete (clearCodes s)) h0
    obtain rfl := Host.Outcome.next.inj (hu.symm.trans hdone)
    exact ⟨rfl, rfl, rfl⟩

/-- Settles O32: NOP is its completion alone; acceptance has cleared the error registers before it. -/
theorem nopCompletes : Obligations.NopCompletes := by
  unfold Obligations.NopCompletes
  refine ⟨decode_encode .nop, fun _ => rfl, fun s hs hw ho => ⟨_, rfl, ?_⟩⟩
  rw [memWrite_cmd (by decide), accept_idle _ s hs, memRead_status]
  exact ⟨statusWord_complete rfl hw ho, rfl, rfl, rfl⟩

end Sys2Proof
end

section
/-! PROOFS. The error registers under the host's accesses (60_exceptions.md R240), the IRQ output (R250, R251), and the
idle block with no access (R257). -/

namespace Sys2Proof.Machine

/-! ## The error registers -/

/-- From `s` to `t` no error is recorded (R240): the three error registers are kept, or cleared. -/
def NoErrorRecorded (s t : State) : Prop :=
  (t.errCode = s.errCode ∧ t.errInfo = s.errInfo ∧ t.errPos = s.errPos) ∨
  (t.errCode = .none ∧ t.errInfo = 0 ∧ t.errPos = 0)

theorem accept_noErrorRecorded (v : Word) (s : State) : NoErrorRecorded s (accept v s) := by
  cases hs : s.seq with
  | idle => rw [accept_idle v s hs]; exact Or.inr ⟨rfl, rfl, rfl⟩
  | busy => rw [accept_busy v s hs]; exact Or.inl ⟨rfl, rfl, rfl⟩

theorem softReset_noErrorRecorded (s : State) : NoErrorRecorded s (softReset s) := by
  obtain ⟨mem, n, e, -⟩ := softReset_shape s
  rw [e]
  exact Or.inr ⟨rfl, rfl, rfl⟩

theorem memWrite_noErrorRecorded (off : Offset) (v : Word) (s : State) : NoErrorRecorded s (memWrite off v s) := by
  obtain ⟨b, e⟩ | ⟨-, e⟩ | ⟨-, -, e⟩ | ⟨-, -, e⟩ | e | ⟨-, a, b, c, d, m, e, -⟩ := memWrite_shape off v s <;> rw [e]
  · exact Or.inl ⟨rfl, rfl, rfl⟩
  · exact accept_noErrorRecorded v s
  · exact softReset_noErrorRecorded s
  · exact Or.inl ⟨rfl, rfl, rfl⟩
  · exact Or.inl ⟨rfl, rfl, rfl⟩
  · exact Or.inl ⟨rfl, rfl, rfl⟩

theorem hostTurn_noErrorRecorded (s : State) : NoErrorRecorded s (hostTurn s) := by
  obtain ⟨l, d, n, lg, e⟩ | ⟨a, v, rest, off, -, -, e⟩ := hostTurn_cases s <;> rw [e]
  · exact Or.inl ⟨rfl, rfl, rfl⟩
  · exact memWrite_noErrorRecorded off v (s.tick rest)

/-! ## DONE and IRQ_EN -/

/-- No write sets DONE (R27). -/
theorem done_of_memWrite {off : Offset} {v : Word} {s : State} (h : (memWrite off v s).done = true) : s.done = true := by
  obtain ⟨b, e⟩ | ⟨-, e⟩ | ⟨-, -, e⟩ | ⟨-, -, e⟩ | e | ⟨-, a, b, c, d, m, e, -⟩ := memWrite_shape off v s <;> rw [e] at h
  · exact h
  · cases hs : s.seq with
    | idle => rw [accept_idle v s hs] at h; cases h
    | busy => rw [accept_busy v s hs] at h; exact h
  · obtain ⟨mem, n, e, -⟩ := softReset_shape s
    rw [e] at h
    cases h
  · exact h
  · rw [writeStatus_done, Bool.and_eq_true] at h
    exact h.1
  · exact h

/-- No host statement sets DONE (R27, R34). -/
theorem done_of_hostTurn {s : State} (h : (hostTurn s).done = true) : s.done = true := by
  obtain ⟨l, d, n, lg, e⟩ | ⟨a, v, rest, off, -, -, e⟩ := hostTurn_cases s <;> rw [e] at h
  · exact h
  · exact done_of_memWrite (s := s.tick rest) h

/-- No command changes CTRL (R78, R107). -/
theorem Answer.irqEn {i : Instr} {s t : State} (h : Answer s i t) : t.irqEn = s.irqEn := by
  rw [h.frame]

/-- The core's step leaves CTRL alone, for a command as for an illegal word. -/
theorem step_core_irqEn {s t : State} (hc : s.coreTurn = true) (h : step s = .next t) : t.irqEn = s.irqEn := by
  obtain ⟨-, i, -, hx⟩ | ⟨-, e, -, rfl⟩ | ⟨hf, -⟩ := step_cases h
  · exact (answer_of_exec hx).irqEn
  · exact raise_irqEn _ _ _
  · rw [hc] at hf
    cases hf

/-! ## The IRQ output -/

theorem irq_of_done {s : State} (h : s.done = true) : s.irq = s.irqEn := by
  rw [State.irq, h, Bool.and_true]

theorem irq_of_not_done {s : State} (h : s.done = false) : s.irq = false := by
  rw [State.irq, h, Bool.and_false]

/-- Bit 0 of CTRL reads IRQ_EN at every moment (R25). -/
theorem memRead_ctrl_bit0 (s : State) : (memRead s 0x00008).getLsbD 0 = s.irqEn := by
  rw [memRead_reg .ctrl rfl (by decide), readReg]
  cases s.irqEn <;> decide

/-- A write to CTRL without a soft reset sets IRQ_EN alone (R25). -/
theorem memWrite_ctrl_irqEn {off : Offset} {v : Word} (h : off.toNat / 4 = 2) (hv : v.getLsbD 31 = false) (s : State) :
    memWrite off v s = { s with irqEn := v.getLsbD 0 } := by
  rw [memWrite_ctrl h, writeCtrl_irqEn hv]

end Sys2Proof.Machine

namespace Sys2Proof

open Machine

/-- Settles O20: IRQ is a function of IRQ_EN and DONE; a completion alone sets DONE and keeps IRQ_EN, and each of the
other events clears one of the two. -/
theorem interruptOutput : Obligations.InterruptOutput := by
  unfold Obligations.InterruptOutput
  refine ⟨fun s => ?reads, fun i s => ?command, fun s t hb hd h => ?completes, fun s t h hs ht => ?onlyCompletion,
    fun p ram => rfl, fun s v hs => ?accepts, fun s v hv => ?clears, fun s v hv => ?softReset,
    fun s => ⟨?masked, ?kept, ?enabled⟩⟩
  case reads =>
    obtain ⟨-, b1, -⟩ := statusWord_bits s
    rw [memRead_ctrl_bit0, memRead_status, b1, State.irq]
  case command =>
    obtain ⟨t, h, ha⟩ := exec_answer i s
    exact ⟨t, h, (irq_of_done ha.completed.2).trans ha.irqEn⟩
  case completes =>
    have turn : s.coreTurn = true := (coreTurn_iff s).mpr ⟨hb, hd⟩
    exact (irq_of_done (step_completes turn h).2).trans (step_core_irqEn turn h)
  case onlyCompletion =>
    rw [← coreTurn_iff]
    by_contra hc
    obtain rfl := Host.Outcome.next.inj ((step_host (Bool.eq_false_iff.mpr hc)).symm.trans h)
    exact Bool.false_ne_true (hs.symm.trans (done_of_hostTurn ht))
  case accepts =>
    rw [memWrite_cmd (by decide), accept_idle v s hs]
    exact irq_of_not_done rfl
  case clears =>
    rw [memWrite_status (by decide)]
    exact irq_of_not_done (by rw [writeStatus_done, hv, Bool.not_true, Bool.and_false])
  case softReset =>
    obtain ⟨mem, n, e, -⟩ := softReset_shape s
    rw [memWrite_softReset (by decide) hv, e]
    exact irq_of_not_done rfl
  case masked => rw [memWrite_ctrl_irqEn (by decide) (by decide)]; rfl
  case kept => rw [memWrite_ctrl_irqEn (by decide) (by decide)]
  case enabled => rw [memWrite_ctrl_irqEn (by decide) (by decide)]; rfl

/-- Settles O10: of all that a host statement can do, acceptance and soft reset clear the error registers, and nothing
else touches them. -/
theorem hostAccessRaisesNoError : Obligations.HostAccessRaisesNoError := by
  unfold Obligations.HostAccessRaisesNoError
  intro s
  obtain ⟨t, h⟩ := step_total s
  refine ⟨t, h, fun turn => ?_⟩
  obtain rfl := Host.Outcome.next.inj ((step_host (coreTurn_eq_false turn)).symm.trans h)
  exact hostTurn_noErrorRecorded s

/-- Settles O7: the step of an idle block is the host's, and a host without a statement does nothing. -/
theorem idleKeepsState : Obligations.IdleKeepsState := by
  unfold Obligations.IdleKeepsState
  intro s hs hh
  rw [step_host (coreTurn_eq_false (Or.inl hs)), hostTurn_nil hh]

end Sys2Proof
end

section
/-! PROOFS. Power-on reset and soft reset (70_reset_and_hazards.md R270, R271, R274). -/

namespace Sys2Proof.Machine

/-- Every register between the version and the capacities reads 0 after power-on (R270). -/
theorem readReg_powerOn (p : Params) (ram : Memory) {r : Reg} (h1 : 2 ≤ r.index) (h2 : r.index < 18) :
    readReg (State.powerOn p ram) r = 0 := by
  cases r with
  | id | version => exact absurd h1 (by decide)
  | inCap | outCap => exact absurd h2 (by decide)
  | status => exact statusWord_zero rfl rfl rfl rfl rfl
  | ctrl =>
    rw [readReg, powerOn_irqEn]
    decide
  | root =>
    rw [readReg, powerOn_rootValid, powerOn_rootIdx]
    decide
  | _ => rfl

/-- A RAM that holds a byte holds the first byte of its word (R21). -/
theorem Ram.owns_word {p : Params} {r : Ram} {a : Nat} (h : r.owns p a = true) : r.owns p (4 * (a / 4)) = true := by
  cases r <;> simp only [Ram.owns, Bool.and_eq_true, decide_eq_true_eq, beq_iff_eq] at h ⊢ <;> omega

/-- No RAM of the latched command's write set holds a byte of a word outside the table of R78. -/
theorem owns_false_of_not_tableWriteSet {s : State} {a : Nat} (ha : ¬ tableWriteSet s.params s.cmd (a / 4)) {r : Ram}
    (hr : r ∈ writeRams (latched s)) : r.owns s.params a = false := by
  refine Bool.eq_false_iff.mpr fun ho => ha ?_
  cases hl : latched s with
  | none =>
    rw [hl] at hr
    exact absurd hr List.not_mem_nil
  | some i =>
    rw [hl] at hr
    rw [(latched_eq_some s i).mp hl]
    exact (tableWriteSet_encode s.params i (a / 4)).mpr (Or.inr ⟨r, hr, Ram.owns_word ho⟩)

end Sys2Proof.Machine

namespace Sys2Proof

open Machine

/-- Settles O25: a soft reset can change only the RAMs of an abandoned command's write set, and a byte outside the
table's words is in none of them. -/
theorem softReset : Obligations.SoftReset := by
  unfold Obligations.SoftReset
  intro s v off h hv
  obtain ⟨mem, n, e, idle, kept, -⟩ := softReset_shape s
  exact ⟨mem, n, (memWrite_softReset h hv s).trans e, idle,
    fun _ a ha => kept a fun _ hr => owns_false_of_not_tableWriteSet ha hr⟩

/-- Settles O24: the block is IDLE, so each word reads as stored; the constants read as in every state. -/
theorem powerOnReset : Obligations.PowerOnReset := by
  unfold Obligations.PowerOnReset
  intro p ram
  obtain ⟨constants, -⟩ := constantRegisters
  obtain ⟨id, version, inCap, outCap, -⟩ := constants (State.powerOn p ram)
  refine ⟨rfl, rfl, id, version, inCap, outCap, fun off h1 h2 => ?_, rfl⟩
  obtain ⟨r, hr, e⟩ := target_regRange (off := off) (by omega)
  rw [memRead_idle rfl, e, readTarget, readReg_powerOn p ram (by omega) (by omega)]

/-- Settles O26: every register clause holds of the reset values, and memory is canonical by hypothesis, or empty. -/
theorem invAtReset : Obligations.InvAtReset := by
  unfold Obligations.InvAtReset
  exact ⟨fun _ _ => Inv.powerOn, rfl, Inv.powerOn rfl rfl⟩

end Sys2Proof
end
